-- ==== Sys2Proof/Word.lean ====
section
/-! DEFINITION. The plain data types of the HTB core: bytes (rule R61), bit strings (rule R14). -/

namespace Sys2Proof

/-- A byte, value 0..255 (rule R61); also a Symbol (rules R7, R16). -/
abbrev Byte := BitVec 8

/-- A bit string, position 0 (the bit produced, sent and consumed first) at the head (rule R14).
`true` is the bit 1. -/
abbrev Bits := List Bool

end Sys2Proof
end

