-- ==== Sys2Proof/Config.lean ====
section
/-! DEFINITION. What an instance of the core fixes: the capacity parameters of rule R8 (arguments of the
model) with their defaults, the fixed sizes of rule R7, and the free values that the spec leaves open
(93_implementation_defined.md U2, U4, U6). -/

namespace Sys2Proof

/-- NSYM, the size of the alphabet (rule R7). -/
abbrev nsym : Nat := 256
/-- MAXNODE, the number of tree-node slots (rule R7). -/
abbrev maxNode : Nat := 511
/-- MAXCL, the length of the longest possible code (rule R7). -/
abbrev maxCl : Nat := 255
/-- PQCAP, the number of priority-queue entries (rule R7). -/
abbrev pqCap : Nat := 256

/-- The capacity parameters of rule R8. The spec leaves them OPEN (92_eei_decisions.md D2): they are arguments of
the model. State carries them as constant data, so that a claim about every state is a claim about every instance
(log entry 1). -/
structure Params where
  /-- IBUFCAP: bytes in IBUF. -/
  ibufcap : Nat
  /-- OBUFCAP: bytes in OBUF. -/
  obufcap : Nat
  /-- BSCAP: bits in BS. -/
  bscap : Nat
  /-- CNTW: bits in a frequency count. -/
  cntw : Nat
  /-- LENW: bits in ILEN, OLEN and BLEN. -/
  lenw : Nat
  deriving DecidableEq, Repr

/-- The default column of rule R8's table. -/
def Params.default : Params :=
  { ibufcap := 65536, obufcap := 65538, bscap := 524288, cntw := 32, lenw := 32 }

/-- FREE VALUE: the byte a host read of OBUF returns at an address the spec leaves unspecified
(93_implementation_defined.md U2 and U6), and the byte a host read of CMD returns (U4). It has no body: nothing can
be proved of it. Applied to a count of the draws made so far, so that two reads need not agree. Log entry 5. -/
opaque Config.freeByte : Nat → Byte

/-- FREE VALUE: the number a host read of a reserved register offset returns (rule R86, U6), as
`Config.freeByte`. Log entry 5. -/
opaque Config.freeWord : Nat → Nat

end Sys2Proof
end

