-- ==== Sys2Proof/Syntax.lean ====
section
/-! DEFINITION. The command set, whole: one constructor for each row of spec/opcode_table.json (rule R81). No
command has an explicit operand (rule R82), so no constructor has a field. -/

namespace Sys2Proof

/-- The ten commands of rule R81, in the table's order. -/
inductive Instr where
  /-- TALLY, 0x01: frequency tally (rule R101). -/
  | tally
  /-- BUILD, 0x02: Huffman-tree builder (rule R115). -/
  | build
  /-- GEN, 0x03: code-table generator (rule R131). -/
  | gen
  /-- SUBST, 0x04: symbols to bit string (rule R141). -/
  | subst
  /-- PACK, 0x05: bit string to padded bytes (rule R145). -/
  | pack
  /-- UNPACK, 0x06: padded bytes to bit string (rule R153). -/
  | unpack
  /-- MATCH, 0x07: prefix-match decoder (rule R161). -/
  | pmatch
  /-- ENCODE, 0x08: the encode chain (rule R171). -/
  | encode
  /-- DECODE, 0x09: the decode chain (rule R173). -/
  | decode
  /-- CLR, 0x0F: clear the instance (rule R176). -/
  | clr
  deriving DecidableEq, Repr

/-- Every command once, in the table's order. -/
def Instr.all : List Instr :=
  [.tally, .build, .gen, .subst, .pack, .unpack, .pmatch, .encode, .decode, .clr]

end Sys2Proof
end

