-- ==== Sys2Proof/WellFormed.lean ====
section
/-! DEFINITION. Well-formedness: the constraints between an instance's capacity parameters (rule R8), the form of
a command byte (rule R80, format C) and of a command (rule R82: nothing to check). -/

namespace Sys2Proof

/-- 2^CNTW > IBUFCAP (rule R8): every count is representable. -/
def Params.countsFit (p : Params) : Bool := decide (p.ibufcap < 2 ^ p.cntw)

/-- 2^LENW > max(IBUFCAP, OBUFCAP, BSCAP) (rule R8): every length is representable. -/
def Params.lengthsFit (p : Params) : Bool :=
  decide (max p.ibufcap (max p.obufcap p.bscap) < 2 ^ p.lenw)

/-- The constraint column of rule R8's table, whole. -/
def Params.wf (p : Params) : Bool :=
  decide (1 ≤ p.ibufcap) && decide (1 ≤ p.obufcap) && decide (1 ≤ p.bscap) && p.countsFit && p.lengthsFit

/-- Format C (rule R80): bits 7:4 of a command byte, the field grp, are 0b0000. -/
def formatC (v : Byte) : Bool := v.extractLsb' 4 4 == 0#4

/-- A command is well formed as it stands: it has no operand, immediate, mode bit or prefix (rules R80, R82). -/
def Instr.wf : Instr → Bool
  | .tally => true
  | .build => true
  | .gen => true
  | .subst => true
  | .pack => true
  | .unpack => true
  | .pmatch => true
  | .encode => true
  | .decode => true
  | .clr => true

end Sys2Proof
end

