-- ==== Sys2Proof/Decode.lean ====
section
/-! DEFINITION. Decoding a command byte (rules R80, R81, R83), total on every byte and rejecting by name, and the
encoder written from the same table. -/

namespace Sys2Proof

/-- What the byte written to CMD stands for. -/
inductive Decoded where
  /-- One of the ten values of rule R81. -/
  | command (i : Instr)
  /-- A reserved value (rule R83), rejected by name. -/
  | reserved (v : Byte)
  deriving DecidableEq, Repr

/-- The field op of format C (rule R80), bits 3:0, read by the opcode map of rule R81. -/
def decodeOp (op : BitVec 4) : Option Instr :=
  match op with
  | 0x1#4 => some .tally
  | 0x2#4 => some .build
  | 0x3#4 => some .gen
  | 0x4#4 => some .subst
  | 0x5#4 => some .pack
  | 0x6#4 => some .unpack
  | 0x7#4 => some .pmatch
  | 0x8#4 => some .encode
  | 0x9#4 => some .decode
  | 0xF#4 => some .clr
  | _ => none

/-- The decoder. The whole byte is compared (rule R80): grp must be 0 and op one of rule R81's; every other value
is reserved (rule R83). -/
def decodeByte (v : Byte) : Decoded :=
  if formatC v then
    match decodeOp (v.extractLsb' 0 4) with
    | some i => .command i
    | none => .reserved v
  else .reserved v

/-- The encoder: the value column of rule R81. -/
def encodeInstr : Instr → Byte
  | .tally => 0x01#8
  | .build => 0x02#8
  | .gen => 0x03#8
  | .subst => 0x04#8
  | .pack => 0x05#8
  | .unpack => 0x06#8
  | .pmatch => 0x07#8
  | .encode => 0x08#8
  | .decode => 0x09#8
  | .clr => 0x0F#8

/-- The command that the decoder reads from a value of the opcode table. A command is one byte (rule R85), so the
value is that byte; a value that is no byte is no command. -/
def decodeTableWord (_nbits w : Nat) : Option Instr :=
  if w < 256 then
    match decodeByte (BitVec.ofNat 8 w) with
    | .command i => some i
    | .reserved _ => none
  else none

end Sys2Proof
end

