-- ==== Sys2Proof/Machine/Memory.lean ====
section
/-! DEFINITION. Byte memory of the IBUF address space (rules R25, R60): a list of (address, byte) cells in one
canonical form. -/

namespace Sys2Proof.Machine

/-- The written bytes of a buffer: cells with strictly rising addresses. -/
abbrev Mem := List Host.Cell

/-- What an unlisted address reads as: no value. The spec leaves the byte unspecified and says a model should make
a read of it a fault and never pick a value (rule R67, 93_implementation_defined.md U1). Log entry 4. -/
def Mem.unlisted : Option Byte := none

/-- The byte at address `a`. -/
def Mem.read (m : Mem) (a : Nat) : Option Byte :=
  match m with
  | [] => Mem.unlisted
  | c :: rest => if c.1 = a then some c.2 else Mem.read rest a

/-- The memory with byte `b` at address `a`; keeps the canonical form. -/
def Mem.write (m : Mem) (a : Nat) (b : Byte) : Mem :=
  match m with
  | [] => [(a, b)]
  | c :: rest =>
    if a < c.1 then (a, b) :: c :: rest
    else if a = c.1 then (a, b) :: rest
    else c :: Mem.write rest a b

/-- The canonical form: addresses strictly rising. (An unlisted address reads as no value, so no entry can equal
what an unlisted address reads as.) -/
def Mem.wf : Mem → Bool
  | [] => true
  | c :: rest => rest.all (fun d => decide (c.1 < d.1)) && Mem.wf rest

end Sys2Proof.Machine
end

