-- ==== Sys2Proof/Machine/Table.lean ====
section
/-! DEFINITION. Tables with one entry per symbol value, the form of FT (rule R30) and CT (rule R35). -/

namespace Sys2Proof.Machine

/-- A table of NSYM = 256 entries, one per symbol value, held as 16 rows of 16: the row is the symbol's upper four
bits, the place in it the lower four. -/
abbrev Table (α : Type) := Vector (Vector α 16) 16

/-- The upper four bits of a symbol. -/
def rowOf (b : Byte) : Fin 16 := (b.extractLsb' 4 4).toFin

/-- The lower four bits of a symbol. -/
def placeOf (b : Byte) : Fin 16 := (b.extractLsb' 0 4).toFin

/-- The table with the same entry at every symbol. -/
def Table.const {α : Type} (x : α) : Table α := Vector.replicate 16 (Vector.replicate 16 x)

/-- The entry of symbol `b`. -/
def Table.look {α : Type} (t : Table α) (b : Byte) : α := t[rowOf b][placeOf b]

/-- The table with the entry of symbol `b` replaced by `x`. -/
def Table.put {α : Type} (t : Table α) (b : Byte) (x : α) : Table α :=
  t.set (rowOf b) (t[rowOf b].set (placeOf b) x)

/-- Every symbol value, ascending: the order of `for s in 0..255`. -/
def allSymbols : List Byte := (List.range 256).map (BitVec.ofNat 8)

end Sys2Proof.Machine
end

