-- ==== Sys2Proof/Machine/State.lean ====
section
/-! DEFINITION. The architectural state of the HTB core (10_state.md, rules R20 to R44) as plain data, the reasons
a step can stop, and the state after reset (rule R43). -/

namespace Sys2Proof.Machine

/-- The sequencer state SEQ (rule R28). While a command runs, the value latched from CMD is part of SEQ
(rule R44). -/
inductive Seq where
  /-- SEQ = IDLE: waits for a write to CMD. -/
  | idle
  /-- SEQ = RUN: executes the command whose opcode was written. -/
  | run (op : Byte)
  deriving DecidableEq, Repr

/-- The result codes of rule R180 that STATUS.ERR can hold; code 7 is never held. -/
inductive ErrCode where
  | ok
  | emptyInput
  | malformedHeader
  | truncatedStream
  | unencodableSymbol
  | capacityExceeded
  | illegalCommand
  deriving DecidableEq, Repr

/-- One tree-node slot of NODE, with the five fields of rule R31. -/
structure Node where
  /-- 1 for a leaf, 0 for an internal node. -/
  leaf : Bool
  /-- The leaf's symbol; 0 in an internal node. -/
  sym : Byte
  /-- CNTW bits; its bound is an invariant (rule R119). -/
  freq : Nat
  /-- NODEW = 9 bits: index of the left child; 0 in a leaf. -/
  left : Nat
  /-- NODEW = 9 bits: index of the right child; 0 in a leaf. -/
  right : Nat
  deriving DecidableEq, Repr

/-- One access of the host or the platform to the core (rules R27, R86, R200). Registers are named by their word
offset in the register block, buffers by their own byte addresses (rule R60). -/
inductive HostAccess where
  /-- Read the register at this offset. -/
  | readReg (off : Nat)
  /-- Write a number to the register at this offset. -/
  | writeReg (off v : Nat)
  /-- Write one byte of IBUF. -/
  | writeIbuf (a : Nat) (b : Byte)
  /-- Read one byte of IBUF: there is no such port. -/
  | readIbuf (a : Nat)
  /-- Read one byte of OBUF. -/
  | readObuf (a : Nat)
  /-- Write one byte of OBUF: there is no such port. -/
  | writeObuf (a : Nat) (b : Byte)
  /-- The platform asserts reset (rule R200). -/
  | reset
  deriving DecidableEq, Repr

/-- An access with its timing relative to a running command: `early` says that it arrives while the command
started before it still runs (BUSY = 1). When no command runs `early` means nothing. Log entry 2. -/
structure Arrival where
  early : Bool
  access : HostAccess
  deriving DecidableEq, Repr

/-- The state. When SEQ = IDLE it is exactly rules R22 to R38 (rule R41). Storage that the spec leaves unspecified
and no command reads is not held (93_implementation_defined.md U7): a buffer or slot memory is the list of its
defined entries, and its length register is that list's length (log entry 3). The last three fields are the model's
own: the host's accesses to come, what its reads returned, and the count of free values drawn. -/
structure State where
  /-- The capacities of rule R8: configuration, constant (log entry 1). -/
  params : Params
  /-- SEQ (rule R28); STATUS.BUSY is 1 exactly when it is RUN (rule R22). -/
  seq : Seq
  /-- STATUS.ERR (rule R22). -/
  err : ErrCode
  /-- ILEN (rule R23), LENW bits. -/
  ilen : Nat
  /-- IBUF (rule R25): the bytes the host has written since reset. -/
  ibuf : Mem
  /-- OBUF[0..OLEN) (rule R26); OLEN (rule R24) is its length. -/
  obuf : List Byte
  /-- FT (rule R30). -/
  ft : Table Nat
  /-- NODE[0..NNODES) (rule R31); NNODES (rule R32) is its length. -/
  nodes : List Node
  /-- NLEAF (rule R32), 9 bits. -/
  nleaf : Nat
  /-- ROOT (rule R32), NODEW bits. -/
  root : Nat
  /-- PQ (rule R34): a set of node indices, empty at every command boundary. -/
  pq : List Nat
  /-- CT (rule R35): each symbol's code, the empty string for none. -/
  ct : Table Bits
  /-- RCT (rule R37): (code, symbol) entries, no code twice. -/
  rct : List (Bits × Byte)
  /-- BS[0..BLEN) (rule R38); BLEN is its length. -/
  bs : Bits
  /-- The host's accesses still to come, oldest first. -/
  pending : List Arrival
  /-- What the host's reads returned, newest first. -/
  replies : List Nat
  /-- How many free values reads have drawn. -/
  draws : Nat
  deriving DecidableEq, Repr

/-- Why the machine stops with a fault. -/
inductive Fault where
  /-- SAFE. A command (TALLY, SUBST, UNPACK, ENCODE, DECODE) reads the byte of IBUF at this address, which the host
  has not written since reset (rule R67, U1: a model should make such a read a fault, never pick a value). -/
  | unwrittenInput (a : Nat)
  /-- SAFE. GEN (or ENCODE's GEN step) starts from a NODE memory that is no tree. Rule R33 excludes it in every
  state a run reaches; only states no run reaches raise it (log entry 8). -/
  | brokenTree
  deriving DecidableEq, Repr

/-- Why the model has no meaning for what is asked. -/
inductive Refusal where
  /-- SAFE. The instruction has no meaning in the model yet: raised by an arm of exec only (no arm does). -/
  | notModelled (mnemonic : String)
  /-- SAFE: the model stops where the spec says nothing. The host makes an access other than a STATUS read while
  BUSY = 1, which is outside the spec (rule R207, U3). Raised by the host port. -/
  | accessWhileBusy
  /-- SAFE. The host reads IBUF or writes OBUF: there is no such port (rule R27, U5). Raised by the host port. -/
  | noPort
  /-- SAFE. The host names an offset below 0x10 that is no word offset of rule R86. Raised by the host port. -/
  | noSuchRegister
  /-- SAFE. The host writes a number that is wider than the register. Raised by the host port (log entry 6). -/
  | valueTooWide
  deriving DecidableEq, Repr

/-- The reset state of an instance with parameters `p`: rule R43's table. IBUF holds no written byte; OBUF, NODE
and BS have no defined entry. -/
def State.resetWith (p : Params) : State :=
  { params := p, seq := .idle, err := .ok, ilen := 0, ibuf := [], obuf := [],
    ft := Table.const 0, nodes := [], nleaf := 0, root := 0, pq := [],
    ct := Table.const [], rct := [], bs := [],
    pending := [], replies := [], draws := 0 }

/-- The machine right after reset (rules R43, R200), at the default capacities of rule R8, with no host access
made or to come. -/
def State.reset : State := State.resetWith Params.default

end Sys2Proof.Machine
end

