-- ==== Sys2Proof/Machine/Ops.lean ====
section
/-! DEFINITION. The named operations over the state: the updates of its registers, tables and buffers, how a
command ends (`done` and `fail E` of rule R15, shared by every command), how micro steps chain (rule R170), and the
reading of IBUF. -/

namespace Sys2Proof.Machine

/-! ### Length registers: each is the length of what it measures -/

/-- OLEN (rule R24). -/
def State.olen (s : State) : Nat := s.obuf.length
/-- BLEN (rule R38). -/
def State.blen (s : State) : Nat := s.bs.length
/-- NNODES (rule R32). -/
def State.nnodes (s : State) : Nat := s.nodes.length

/-! ### Updates -/

/-- FT <- `f`. -/
def State.setFt (s : State) (f : Table Nat) : State := { s with ft := f }
/-- NODE[0..NNODES), NNODES, NLEAF, ROOT <- the tree; PQ <- empty, as BUILD leaves it (rule R118). -/
def State.setTree (s : State) (ns : List Node) (nl r : Nat) : State :=
  { s with nodes := ns, nleaf := nl, root := r, pq := [] }
/-- CT and RCT, always written together (rule R37). -/
def State.setCodes (s : State) (c : Table Bits) (r : List (Bits × Byte)) : State := { s with ct := c, rct := r }
/-- BS[0..BLEN) and BLEN <- the bit string `x`. -/
def State.setBs (s : State) (x : Bits) : State := { s with bs := x }
/-- OBUF[0..OLEN) and OLEN <- the bytes `o`. -/
def State.setObuf (s : State) (o : List Byte) : State := { s with obuf := o }
/-- ILEN <- `n`. -/
def State.setIlen (s : State) (n : Nat) : State := { s with ilen := n }
/-- IBUF <- `m`. -/
def State.setIbuf (s : State) (m : Mem) : State := { s with ibuf := m }
/-- SEQ <- RUN with the opcode latched from CMD (rules R21, R44). -/
def State.latch (s : State) (op : Byte) : State := { s with seq := .run op }
/-- The host's accesses still to come. -/
def State.setPending (s : State) (l : List Arrival) : State := { s with pending := l }
/-- A host read returns `v`. -/
def State.reply (s : State) (v : Nat) : State := { s with replies := v :: s.replies }
/-- One more free value has been drawn. -/
def State.drawn (s : State) : State := { s with draws := s.draws + 1 }

/-! ### The end of a command -/

/-- A command ends with result code `e`: STATUS.ERR <- `e`, SEQ <- IDLE, hence BUSY <- 0 (rules R15, R22, R191).
This is the core's whole "exception entry" and, with `.ok`, its `done`: no state is saved, no mode changes and
control goes nowhere (rule R191 item 4). -/
def State.endWith (s : State) (e : ErrCode) : State := { s with err := e, seq := .idle }

/-- How a micro step ends: `done`, `fail E` after the step's own clean-up, or a machine fault. -/
inductive StepEnd where
  | ok (s : State)
  | fail (e : ErrCode) (s : State)
  | fault (f : Fault)
  deriving DecidableEq, Repr

/-- A step's end as the end of the whole command (rules R15, R170). -/
def StepEnd.finish : StepEnd → Host.Outcome State Fault Refusal
  | .ok s => .next (s.endWith .ok)
  | .fail e s => .next (s.endWith e)
  | .fault f => .fault f

/-- Chaining inside a macro command (rule R170): `done` passes control to the next step, `fail E` and a fault end
the macro. -/
def StepEnd.andThen (m : StepEnd) (next : State → StepEnd) : StepEnd :=
  match m with
  | .ok s => next s
  | .fail e s => .fail e s
  | .fault f => .fault f

/-- Why a computation over the input stops before its end. -/
inductive Stop where
  /-- A failure of rule R180. -/
  | err (e : ErrCode)
  /-- A machine fault. -/
  | fault (f : Fault)
  deriving DecidableEq, Repr

/-! ### Reading IBUF -/

/-- `MemRead(IBUF, a, 1)` (rule R15); a byte never written faults (rule R67). -/
def memRead (m : Mem) (a : Nat) : Except Fault Byte :=
  match m.read a with
  | some b => .ok b
  | none => .error (.unwrittenInput a)

/-- The `n` bytes at `a`, `a + 1`, ..., read in ascending order (rule R63). -/
def readRun (m : Mem) (a : Nat) : Nat → Except Fault (List Byte)
  | 0 => .ok []
  | n + 1 =>
    match memRead m a with
    | .error f => .error f
    | .ok b =>
      match readRun m (a + 1) n with
      | .error f => .error f
      | .ok bs => .ok (b :: bs)

end Sys2Proof.Machine
end

