-- ==== Sys2Proof/Machine/Tally.lean ====
section
/-! DEFINITION. The frequency tally: TALLY (40_frequency_table.md). -/

namespace Sys2Proof.Machine

/-- One more occurrence of symbol `b`: FT[b] <- FT[b] + 1. The count cannot pass CNTW bits (rule R102). -/
def countOne (f : Table Nat) (b : Byte) : Table Nat := f.put b (f.look b + 1)

/-- The counts of the bytes `bs`, from the empty table (rule R101). -/
def countAll (bs : List Byte) : Table Nat := bs.foldl countOne (Table.const 0)

/-- FT is the empty table: every count, row by row, is 0 (rule R30). -/
def ftEmpty (f : Table Nat) : Bool := f.toList.all fun row => row.toList.all fun n => decide (n = 0)

/-- The body of TALLY (rule R101). -/
def tallyBody (s : State) : StepEnd :=
  if s.params.ibufcap < s.ilen then .fail .capacityExceeded (s.setFt (Table.const 0))
  else
    match readRun s.ibuf 0 s.ilen with
    | .error f => .fault f
    | .ok bs => .ok (s.setFt (countAll bs))

/-- TALLY (rule R101). -/
def execTally (s : State) : Host.Outcome State Fault Refusal := (tallyBody s).finish

end Sys2Proof.Machine
end

