-- ==== Sys2Proof/Machine/Build.lean ====
section
/-! DEFINITION. The Huffman-tree builder and its priority queue: BUILD (41_tree_builder.md). -/

namespace Sys2Proof.Machine

/-! ### Tree-node slots -/

/-- A leaf slot (rules R31, R116): the child fields are written 0. -/
def leafNode (b : Byte) (f : Nat) : Node := { leaf := true, sym := b, freq := f, left := 0, right := 0 }

/-- An internal slot (rules R31, R117): the symbol field is written 0. -/
def innerNode (f l r : Nat) : Node := { leaf := false, sym := 0#8, freq := f, left := l, right := r }

/-- NODE[k].freq. Every index the builder uses is a defined slot (rule R111); a slot that is not defined is never
read, and counts as 0 here. -/
def freqAt (ns : List Node) (k : Nat) : Nat :=
  match ns[k]? with
  | some n => n.freq
  | none => 0

/-! ### The priority queue (rules R111 to R113) -/

/-- The queue's order (rule R112): entry `j` comes before entry `k`. -/
def before (ns : List Node) (j k : Nat) : Bool :=
  decide (freqAt ns j < freqAt ns k) || (decide (freqAt ns j = freqAt ns k) && decide (j < k))

/-- `PQ.insert(k)` (rule R111). The arrangement of the entries is not architectural (rule R34). -/
def pqInsert (q : List Nat) (k : Nat) : List Nat := q ++ [k]

/-- The entry of `j :: q` that comes before every other one. -/
def pqLeast (ns : List Node) (j : Nat) : List Nat → Nat
  | [] => j
  | k :: q => if before ns k j then pqLeast ns k q else pqLeast ns j q

/-- `PQ.extract_min()` (rule R113): the first entry in the order and the queue without it; none when the queue is
empty, where the rule gives it no meaning. -/
def pqExtractMin (ns : List Node) (q : List Nat) : Option (Nat × List Nat) :=
  match q with
  | [] => none
  | j :: rest => some (pqLeast ns j rest, (j :: rest).erase (pqLeast ns j rest))

/-! ### The builder -/

/-- The working state of BUILD: NODE[0..NNODES) and PQ. -/
structure Builder where
  nodes : List Node
  pq : List Nat
  deriving DecidableEq, Repr

/-- NODE[NNODES] <- `n`; NNODES <- NNODES + 1; PQ.insert of the new index (rules R115 to R117). -/
def addNode (b : Builder) (n : Node) : Builder :=
  { nodes := b.nodes ++ [n], pq := pqInsert b.pq b.nodes.length }

/-- Leaf creation (rule R116) for one symbol: a present symbol gets a leaf, an absent one none. -/
def addLeaf (f : Table Nat) (b : Builder) (s : Byte) : Builder :=
  if f.look s = 0 then b else addNode b (leafNode s (f.look s))

/-- All leaves, in ascending symbol value, from the empty tree and the empty queue. -/
def leafPhase (f : Table Nat) : Builder := allSymbols.foldl (addLeaf f) { nodes := [], pq := [] }

/-- One combine step (rule R117): the first entry extracted becomes the left child, the second the right. None when
the queue holds fewer than two entries: the loop of rule R115 has ended. -/
def combine (b : Builder) : Option Builder :=
  match pqExtractMin b.nodes b.pq with
  | none => none
  | some (l, q) =>
    match pqExtractMin b.nodes q with
    | none => none
    | some (r, q') =>
      some (addNode { nodes := b.nodes, pq := q' } (innerNode (freqAt b.nodes l + freqAt b.nodes r) l r))

/-- `while |PQ| > 1` of rule R115. Each step shortens the queue by one (rule R118), so as many rounds as the queue
has entries are enough. -/
def combineAll : Nat → Builder → Builder
  | 0, b => b
  | n + 1, b =>
    match combine b with
    | none => b
    | some b' => combineAll n b'

/-- The tree of FT (rules R115 to R118): NODE[0..NNODES), NLEAF and ROOT, the one entry left in the queue. -/
def buildTree (f : Table Nat) : List Node × Nat × Nat :=
  let leaves := leafPhase f
  let b := combineAll leaves.pq.length leaves
  (b.nodes, leaves.nodes.length, (pqExtractMin b.nodes b.pq).elim 0 Prod.fst)

/-- The body of BUILD (rule R115). -/
def buildBody (s : State) : StepEnd :=
  if ftEmpty s.ft then .fail .emptyInput (s.setTree [] 0 0)
  else .ok (s.setTree (buildTree s.ft).1 (buildTree s.ft).2.1 (buildTree s.ft).2.2)

/-- BUILD (rule R115). -/
def execBuild (s : State) : Host.Outcome State Fault Refusal := (buildBody s).finish

end Sys2Proof.Machine
end

