-- ==== Sys2Proof/Machine/Gen.lean ====
section
/-! DEFINITION. The prefix-free code-table generator, the tree walk: GEN (42_code_table.md). -/

namespace Sys2Proof.Machine

/-- CT and RCT. -/
structure Codes where
  ct : Table Bits
  rct : List (Bits × Byte)
  deriving DecidableEq, Repr

/-- The empty tables: no codes (rules R35, R37). -/
def noCodes : Codes := { ct := Table.const [], rct := [] }

/-- RCT with `p` mapped to `b` (rule R131's assign): any earlier entry of `p` is replaced. -/
def rctAssign (r : List (Bits × Byte)) (p : Bits) (b : Byte) : List (Bits × Byte) :=
  r.filter (fun e => decide (e.1 ≠ p)) ++ [(p, b)]

/-- `assign(s, p)` of rule R131. -/
def assign (c : Codes) (e : Byte × Bits) : Codes :=
  { ct := c.ct.put e.1 e.2, rct := rctAssign c.rct e.2 e.1 }

/-- `walk(k, p)` of rule R131: the leaves below slot `k` with their codes, left before right. None if the descent
leaves the defined slots or does not end within `fuel` levels, which the tree invariants exclude (rule R135). -/
def walk (ns : List Node) : Nat → Nat → Bits → Option (List (Byte × Bits))
  | 0, _, _ => none
  | fuel + 1, k, p =>
    match ns[k]? with
    | none => none
    | some n =>
      if n.leaf then some [(n.sym, p)]
      else
        match walk ns fuel n.left (p ++ [false]) with
        | none => none
        | some l =>
          match walk ns fuel n.right (p ++ [true]) with
          | none => none
          | some r => some (l ++ r)

/-- The assignments GEN makes for the tree (rule R131): none for the empty tree (rule R133), the code "0" when the
root is a leaf (rule R132), else the walk's. -/
def treeCodes (ns : List Node) (root : Nat) : Option (List (Byte × Bits)) :=
  if ns = [] then some []
  else
    match ns[root]? with
    | none => none
    | some n => if n.leaf then some [(n.sym, [false])] else walk ns ns.length root []

/-- The tables of a list of assignments, from the empty tables. -/
def codesOf (l : List (Byte × Bits)) : Codes := l.foldl assign noCodes

/-- The body of GEN (rule R131). -/
def genBody (s : State) : StepEnd :=
  match treeCodes s.nodes s.root with
  | none => .fault .brokenTree
  | some l => .ok (s.setCodes (codesOf l).ct (codesOf l).rct)

/-- GEN (rule R131). -/
def execGen (s : State) : Host.Outcome State Fault Refusal := (genBody s).finish

end Sys2Proof.Machine
end

