-- ==== Sys2Proof/Machine/Match.lean ====
section
/-! DEFINITION. The prefix-match decoder: MATCH (44_prefix_decoder.md). -/

namespace Sys2Proof.Machine

/-- RCT(c) (rule R37): the symbol of the entry that matches `c` in length and bits, or none. -/
def rctLook (r : List (Bits × Byte)) (c : Bits) : Option Byte :=
  match r with
  | [] => none
  | e :: rest => if e.1 = c then some e.2 else rctLook rest c

/-- The loop of rule R161 over the remaining bits, with `acc` the running buffer ACC and `out` the symbols written
so far. ACC is held unbounded, which behaves as the saturating one (rule R163). -/
def matchLoop (r : List (Bits × Byte)) (cap : Nat) : Bits → Bits → List Byte → Except ErrCode (List Byte)
  | [], acc, out => if acc = [] then .ok out else .error .truncatedStream
  | b :: rest, acc, out =>
    match rctLook r (acc ++ [b]) with
    | none => matchLoop r cap rest (acc ++ [b]) out
    | some y =>
      if out.length = cap then .error .capacityExceeded
      else matchLoop r cap rest [] (out ++ [y])

/-- The body of MATCH (rule R161); every failure leaves OLEN = 0 (rules R164, R165). -/
def matchBody (s : State) : StepEnd :=
  match matchLoop s.rct s.params.obufcap s.bs [] [] with
  | .ok out => .ok (s.setObuf out)
  | .error e => .fail e (s.setObuf [])

/-- MATCH (rule R161). -/
def execMatch (s : State) : Host.Outcome State Fault Refusal := (matchBody s).finish

end Sys2Proof.Machine
end

