-- ==== Sys2Proof/Machine/Operands.lean ====
section
/-! DEFINITION. The forms of the implicit operands: the bit order inside a byte (rule R62) and the packed-buffer
format (rules R87 to R89, R145 to R150, R153). -/

namespace Sys2Proof.Machine

/-- `bits_of(v)` of rule R62: x[p] = (v div 2^(7-p)) mod 2, most significant bit first. -/
def bitsOf (v : Byte) : Bits := (List.range 8).map fun p => decide (v.toNat / 2 ^ (7 - p) % 2 = 1)

/-- `byte_of(x)` of rule R62, the sum of x[p] * 2^(7-p) over p = 0..7. A position past the end of `x` counts as the
bit 0 (rule R145: the padding bits are zero); bits after the first eight are not looked at. -/
def byteOf (x : Bits) : Byte :=
  BitVec.ofNat 8 ((List.range 8).map fun p => if x.getD p false then 2 ^ (7 - p) else 0).sum

/-- pad of rule R146: 1..8, and 8 when L mod 8 = 0. -/
def padLen (len : Nat) : Nat := 8 - len % 8

/-- NB of rule R145: the number of payload bytes. -/
def payloadLen (len : Nat) : Nat := (len + padLen len) / 8

/-- The packed length of a bit string of `len` bits (rules R145, R149, R150). -/
def packedLen (len : Nat) : Nat := if len = 0 then 1 else 1 + payloadLen len

/-- Payload byte `j`: positions 8j..8j+7 of the padded bit string (rule R148). -/
def payloadByte (x : Bits) (j : Nat) : Byte := byteOf (x.drop (8 * j))

/-- The packed buffer of the bit string `x` (rules R87, R145): the single byte 0x08 for the empty one (rule R149),
else the header, whose value is the padding length (rule R147), and the payload. -/
def packed (x : Bits) : List Byte :=
  if x = [] then [0x08#8]
  else BitVec.ofNat 8 (padLen x.length) :: (List.range (payloadLen x.length)).map (payloadByte x)

/-- The first `nb` bits of the bytes of IBUF from address 1 (rule R153): exactly the bytes that hold them are read,
in ascending order, each most significant bit first. -/
def unpackedBits (m : Mem) (nb : Nat) : Except Fault Bits :=
  match readRun m 1 ((nb + 7) / 8) with
  | .error f => .error f
  | .ok bytes => .ok ((bytes.flatMap bitsOf).take nb)

end Sys2Proof.Machine
end

