-- ==== Sys2Proof/Machine/Packer.lean ====
section
/-! DEFINITION. The bit-packer and unpacker: SUBST, PACK, UNPACK (43_bit_packer.md). -/

namespace Sys2Proof.Machine

/-! ### SUBST -/

/-- The loop of rule R141 over the `n` symbols from address `i`, with `x` the bit string so far: absence of a code
is tested before capacity (rules R142, R190). -/
def substLoop (m : Mem) (ct : Table Bits) (cap : Nat) : Nat → Nat → Bits → Except Stop Bits
  | 0, _, x => .ok x
  | n + 1, i, x =>
    match memRead m i with
    | .error f => .error (.fault f)
    | .ok b =>
      if ct.look b = [] then .error (.err .unencodableSymbol)
      else if cap < x.length + (ct.look b).length then .error (.err .capacityExceeded)
      else substLoop m ct cap n (i + 1) (x ++ ct.look b)

/-- The body of SUBST (rule R141); every failure leaves BLEN = 0 (rule R142). -/
def substBody (s : State) : StepEnd :=
  if s.params.ibufcap < s.ilen then .fail .capacityExceeded (s.setBs [])
  else
    match substLoop s.ibuf s.ct s.params.bscap s.ilen 0 [] with
    | .ok x => .ok (s.setBs x)
    | .error (.err e) => .fail e (s.setBs [])
    | .error (.fault f) => .fault f

/-- SUBST (rule R141). -/
def execSubst (s : State) : Host.Outcome State Fault Refusal := (substBody s).finish

/-! ### PACK -/

/-- The body of PACK (rule R145). The capacity is checked for a non-empty bit string only: OBUFCAP ≥ 1 lets the
header-only buffer always fit. BS is not changed (rule R144). -/
def packBody (s : State) : StepEnd :=
  if s.bs = [] then .ok (s.setObuf (packed s.bs))
  else if s.params.obufcap < 1 + payloadLen s.bs.length then .fail .capacityExceeded (s.setObuf [])
  else .ok (s.setObuf (packed s.bs))

/-- PACK (rule R145). -/
def execPack (s : State) : Host.Outcome State Fault Refusal := (packBody s).finish

/-! ### UNPACK -/

/-- The payload part of UNPACK (rules R153, R156), for ILEN ≥ 2 and a header `h` in 1..8. -/
def unpackPayload (s : State) (h : Nat) : StepEnd :=
  if s.params.bscap < 8 * (s.ilen - 1) - h then .fail .capacityExceeded (s.setBs [])
  else
    match unpackedBits s.ibuf (8 * (s.ilen - 1) - h) with
    | .error f => .fault f
    | .ok x => .ok (s.setBs x)

/-- UNPACK from the header byte's value `h` on (rules R153 to R155). -/
def unpackHeader (s : State) (h : Nat) : StepEnd :=
  if h < 1 ∨ 8 < h then .fail .malformedHeader (s.setBs [])
  else if s.ilen = 1 then
    if h = 8 then .ok (s.setBs []) else .fail .malformedHeader (s.setBs [])
  else unpackPayload s h

/-- The body of UNPACK (rule R153); the checks in the order of rule R157. -/
def unpackBody (s : State) : StepEnd :=
  if s.params.ibufcap < s.ilen then .fail .capacityExceeded (s.setBs [])
  else if s.ilen = 0 then .fail .malformedHeader (s.setBs [])
  else
    match memRead s.ibuf 0 with
    | .error f => .fault f
    | .ok h => unpackHeader s h.toNat

/-- UNPACK (rule R153). -/
def execUnpack (s : State) : Host.Outcome State Fault Refusal := (unpackBody s).finish

end Sys2Proof.Machine
end

