-- ==== Sys2Proof/Machine/Macro.lean ====
section
/-! DEFINITION. The macro commands and the control command: ENCODE, DECODE, CLR (45_orchestration.md). -/

namespace Sys2Proof.Machine

/-- ENCODE's second step (rules R171, R172): BUILD, or the empty tree without BUILD on an empty table. -/
def buildOrBypass (s : State) : StepEnd :=
  if ftEmpty s.ft then .ok (s.setTree [] 0 0) else buildBody s

/-- The body of ENCODE (rule R171): OLEN <- 0, then TALLY; BUILD or the bypass; GEN; SUBST; PACK. -/
def encodeBody (s : State) : StepEnd :=
  ((((tallyBody (s.setObuf [])).andThen buildOrBypass).andThen genBody).andThen substBody).andThen packBody

/-- ENCODE (rule R171). -/
def execEncode (s : State) : Host.Outcome State Fault Refusal := (encodeBody s).finish

/-- The body of DECODE (rule R173): OLEN <- 0, then UNPACK; MATCH. -/
def decodeBody (s : State) : StepEnd := (unpackBody (s.setObuf [])).andThen matchBody

/-- DECODE (rule R173). -/
def execDecode (s : State) : Host.Outcome State Fault Refusal := (decodeBody s).finish

/-- What CLR writes (rule R176): every register and table to its reset value; the defined parts of OBUF, BS and
NODE become empty with OLEN, BLEN and NNODES; IBUF is not written. -/
def State.cleared (s : State) : State :=
  (((((s.setIlen 0).setObuf []).setBs []).setFt (Table.const 0)).setCodes (Table.const []) []).setTree [] 0 0

/-- CLR (rule R176). -/
def execClr (s : State) : Host.Outcome State Fault Refusal := (StepEnd.ok s.cleared).finish

end Sys2Proof.Machine
end

