-- ==== Sys2Proof/Machine/Flags.lean ====
section
/-! DEFINITION. The status flags: STATUS and its fields BUSY and ERR (rules R22, R29, R180). There are no others. -/

namespace Sys2Proof.Machine

/-- The numbers of rule R180's table. -/
def ErrCode.code : ErrCode → BitVec 3
  | .ok => 0#3
  | .emptyInput => 1#3
  | .malformedHeader => 2#3
  | .truncatedStream => 3#3
  | .unencodableSymbol => 4#3
  | .capacityExceeded => 5#3
  | .illegalCommand => 6#3

/-- STATUS.BUSY: 1 while SEQ = RUN, 0 while SEQ = IDLE (rule R22). -/
def State.busy (s : State) : Bool :=
  match s.seq with
  | .idle => false
  | .run _ => true

/-- STATUS as the host reads it: bits 7:4 reserved, read as 0; bits 3:1 ERR; bit 0 BUSY (rule R22). -/
def State.status (s : State) : Byte := 0#4 ++ s.err.code ++ BitVec.ofBool s.busy

end Sys2Proof.Machine
end

