-- ==== Sys2Proof/Machine/HostPort.lean ====
section
/-! DEFINITION. The host port and reset: what each access of the host does while the core is idle (rules R21 to
R27, R60, R66, R86), what it may do while a command runs (rule R207), and the platform's reset (rule R200). -/

namespace Sys2Proof.Machine

/-- The registers of the register block (rule R86). -/
inductive HostReg where
  | cmd
  | status
  | ilen
  | olen
  /-- Offsets 0x10 and above. -/
  | reserved
  deriving DecidableEq, Repr

/-- The register at a word offset (rule R86); none for an offset the rule does not list. -/
def regAt (off : Nat) : Option HostReg :=
  if off = 0x00 then some .cmd
  else if off = 0x04 then some .status
  else if off = 0x08 then some .ilen
  else if off = 0x0C then some .olen
  else if 0x10 ≤ off then some .reserved
  else none

/-- A read that returns a free byte (U2, U4, U6). -/
def State.replyFreeByte (s : State) : State := (s.reply (Config.freeByte s.draws).toNat).drawn

/-- A read that returns a free number (rule R86: a reserved offset). -/
def State.replyFreeWord (s : State) : State := (s.reply (Config.freeWord s.draws)).drawn

/-- A host read of a register (rules R21 to R24, R66, R86). -/
def hostReadReg (r : HostReg) (s : State) : State :=
  match r with
  | .cmd => s.replyFreeByte
  | .status => s.reply s.status.toNat
  | .ilen => s.reply s.ilen
  | .olen => s.reply s.olen
  | .reserved => s.replyFreeWord

/-- A host write of the number `v` to a register (rules R21 to R24, R86). A number wider than the register is no
value of it (rule R13). -/
def hostWriteReg (r : HostReg) (v : Nat) (s : State) : Host.Outcome State Fault Refusal :=
  match r with
  | .cmd => if v < 2 ^ 8 then .next (s.latch (BitVec.ofNat 8 v)) else .refused .valueTooWide
  | .status => .next s
  | .ilen => if v < 2 ^ s.params.lenw then .next (s.setIlen v) else .refused .valueTooWide
  | .olen => .next s
  | .reserved => .next s

/-- A host read of the byte of OBUF at `a`: defined below OLEN (rule R26), any value elsewhere (U2, U6). -/
def hostReadObuf (a : Nat) (s : State) : State :=
  match s.obuf[a]? with
  | some b => s.reply b.toNat
  | none => s.replyFreeByte

/-- A host write of one byte of IBUF (rule R25); outside IBUF it is ignored (U6). -/
def hostWriteIbuf (a : Nat) (b : Byte) (s : State) : State :=
  if a < s.params.ibufcap then s.setIbuf (s.ibuf.write a b) else s

/-- Reset (rules R43, R200): every piece of the core's state at its reset value. The instance's parameters, the
host's accesses to come and what it has read are not the core's state and stay. -/
def State.afterReset (s : State) : State :=
  { State.resetWith s.params with pending := s.pending, replies := s.replies, draws := s.draws }

/-- An access while SEQ = IDLE (rules R27, R28). -/
def hostAccess (a : HostAccess) (s : State) : Host.Outcome State Fault Refusal :=
  match a with
  | .readReg off =>
    match regAt off with
    | some r => .next (hostReadReg r s)
    | none => .refused .noSuchRegister
  | .writeReg off v =>
    match regAt off with
    | some r => hostWriteReg r v s
    | none => .refused .noSuchRegister
  | .writeIbuf a b => .next (hostWriteIbuf a b s)
  | .readIbuf _ => .refused .noPort
  | .readObuf a => .next (hostReadObuf a s)
  | .writeObuf _ _ => .refused .noPort
  | .reset => .next s.afterReset

/-- An access while SEQ = RUN (rule R207): a STATUS read is the only one the host may make; reset may be asserted
at any time and abandons the command (rule R200, U9). -/
def hostAccessBusy (a : HostAccess) (s : State) : Host.Outcome State Fault Refusal :=
  match a with
  | .readReg off => if regAt off = some .status then .next (s.reply s.status.toNat) else .refused .accessWhileBusy
  | .writeReg _ _ => .refused .accessWhileBusy
  | .writeIbuf _ _ => .refused .accessWhileBusy
  | .readIbuf _ => .refused .accessWhileBusy
  | .readObuf _ => .refused .accessWhileBusy
  | .writeObuf _ _ => .refused .accessWhileBusy
  | .reset => .next s.afterReset

/-- The host action `LOAD` of rule R91: the bytes to IBUF from address `i` on, then their count to ILEN. -/
def loadFrom (i : Nat) : List Byte → List HostAccess
  | [] => [.writeReg 0x08 i]
  | b :: bs => .writeIbuf i b :: loadFrom (i + 1) bs

/-- `LOAD b0 b1 ...` of rule R91. -/
def load (bs : List Byte) : List HostAccess := loadFrom 0 bs

/-- `LOADOUT` of rule R91: the host copies OBUF[0..OLEN) back in as the next input. -/
def loadOut (s : State) : List HostAccess := load s.obuf

end Sys2Proof.Machine
end

