-- ==== Sys2Proof/Machine/Sequencer.lean ====
section
/-! DEFINITION. The sequencer (rules R9, R28): what a step does in each state of SEQ. -/

namespace Sys2Proof.Machine

/-- SEQ = RUN: the latched value is decoded and the command executed, whole (rules R18, R28). A reserved value ends
at once with IllegalCommand and changes nothing else (rules R83, R187). -/
def runLatched (op : Byte) (s : State) : Host.Outcome State Fault Refusal :=
  match decodeByte op with
  | .command i => exec i s
  | .reserved _ => .next (s.endWith .illegalCommand)

/-- A step with SEQ = RUN: an access that arrives while the command still runs comes first, else the command
runs to its end (log entry 2). -/
def stepRunning (op : Byte) (s : State) : Host.Outcome State Fault Refusal :=
  match s.pending with
  | [] => runLatched op s
  | a :: rest => if a.early then hostAccessBusy a.access (s.setPending rest) else runLatched op s

/-- A step with SEQ = IDLE: the host's next access; with none to come the sequencer waits (rule R28). -/
def stepIdle (s : State) : Host.Outcome State Fault Refusal :=
  match s.pending with
  | [] => .next s
  | a :: rest => hostAccess a.access (s.setPending rest)

/-- `s` with the command byte `op` latched from CMD and no access arriving before it runs. -/
def placeCommand (op : Byte) (s : State) : State := (s.setPending (s.pending.dropWhile (·.early))).latch op

end Sys2Proof.Machine
end

