-- ==== Sys2Proof/Machine/Step.lean ====
section
/-! DEFINITION. One step of the machine, and the placing of a command where the next step finds it. -/

namespace Sys2Proof.Machine

/-- One step (rule R28). -/
def step (s : State) : Host.Outcome State Fault Refusal :=
  match s.seq with
  | .idle => stepIdle s
  | .run op => stepRunning op s

/-- `s` with the command whose byte is `w` where step finds its next command. The core fetches no instructions
(rules R28, R72): a command is the byte latched from CMD (rule R44), so this stands for the host's write of `w` to
CMD, just made, with no access arriving before the command runs (log entry 9). -/
def State.withFetchWord (s : State) (_nbits w : Nat) : State := placeCommand (BitVec.ofNat 8 w) s

end Sys2Proof.Machine
end

