-- ==== Sys2Proof/Safety.lean ====
section
/-! DEFINITION. The terms claims are stated in: what the host has placed in IBUF, the tree and code-table invariants
(rules R33, R36, R37), the invariant of the whole machine, and a command that completes. -/

namespace Sys2Proof.Machine

/-! ### The input -/

/-- IBUF[0..ILEN) holds exactly the bytes `bs`, all written (rules R23, R25). -/
def InputIs (s : State) (bs : List Byte) : Prop :=
  s.ilen = bs.length ∧ ∀ i, i < bs.length → s.ibuf.read i = bs[i]?

/-- Every byte of IBUF[0..ILEN) has been written by the host: hazard H2 is respected (rule R208). -/
def InputWritten (s : State) : Prop := ∀ a, a < s.ilen → s.ibuf.read a ≠ none

/-- No access arrives before the running command ends: the next step is the sequencer's (log entry 2). -/
def NoEarlyAccess (s : State) : Prop := ∀ a rest, s.pending = a :: rest → a.early = false

/-- The command or access completes: it answers a next state. -/
def Completes (o : Host.Outcome State Fault Refusal) : Prop := ∃ t, o = .next t

/-! ### The tree (rule R33) -/

/-- An undefined slot, as seen by the claims; no claim rests on its fields. -/
def noNode : Node := { leaf := false, sym := 0#8, freq := 0, left := 0, right := 0 }

/-- NODE[k]. -/
def nodeAt (ns : List Node) (k : Nat) : Node := (ns[k]?).getD noNode

/-- How many internal nodes have slot `k` as a child. -/
def parentCount (ns : List Node) (k : Nat) : Nat :=
  ((List.range ns.length).filter fun j =>
    !(nodeAt ns j).leaf && (decide ((nodeAt ns j).left = k) || decide ((nodeAt ns j).right = k))).length

/-- Slot `j` was still in the queue when slot `k` was made (rule R117): no internal slot below `k` has it as a
child. -/
def NoParentBelow (ns : List Node) (nleaf k j : Nat) : Prop :=
  ∀ m, nleaf ≤ m → m < k → (nodeAt ns m).left ≠ j ∧ (nodeAt ns m).right ≠ j

/-- The six items of rule R33 for a tree, with the unused fields 0 (rule R31). -/
abbrev IsTree (ns : List Node) (nleaf root : Nat) : Prop :=
  (1 ≤ nleaf ∧ nleaf ≤ nsym ∧ ns.length = 2 * nleaf - 1) ∧
  (∀ k, k < ns.length → (nodeAt ns k).leaf = decide (k < nleaf)) ∧
  (∀ k, k < nleaf → ∀ j, j < k → (nodeAt ns j).sym < (nodeAt ns k).sym) ∧
  (∀ k, k < ns.length → nleaf ≤ k →
    (nodeAt ns k).left < k ∧ (nodeAt ns k).right < k ∧ (nodeAt ns k).left ≠ (nodeAt ns k).right ∧
    (nodeAt ns k).freq = (nodeAt ns (nodeAt ns k).left).freq + (nodeAt ns (nodeAt ns k).right).freq) ∧
  (root = ns.length - 1 ∧ ∀ k, k < ns.length → parentCount ns k = if k = root then 0 else 1) ∧
  (∀ k, k < ns.length → 1 ≤ (nodeAt ns k).freq) ∧
  (∀ k, k < ns.length →
    if k < nleaf then (nodeAt ns k).left = 0 ∧ (nodeAt ns k).right = 0 else (nodeAt ns k).sym = 0#8)

/-- NODE, NLEAF and ROOT at a command boundary: the empty tree (rule R32) or a tree (rule R33). -/
abbrev TreeInv (ns : List Node) (nleaf root : Nat) : Prop :=
  (ns = [] ∧ nleaf = 0 ∧ root = 0) ∨ IsTree ns nleaf root

/-- The slot reached from slot `k` by the edge labels `p`: 0 left, 1 right (rule R90); none when the path leaves the
defined slots or goes on below a leaf. -/
def followPath (ns : List Node) : Nat → Bits → Option Nat
  | k, [] => if k < ns.length then some k else none
  | k, b :: p =>
    match ns[k]? with
    | none => none
    | some n => if n.leaf then none else followPath ns (if b then n.right else n.left) p

/-! ### The code tables (rules R36, R37) -/

/-- No code is a prefix of another symbol's (rule R36). -/
def PrefixFree (ct : Table Bits) : Prop :=
  ∀ a b, a ≠ b → ct.look a ≠ [] → ct.look b ≠ [] → ¬ ct.look a <+: ct.look b

/-- RCT is the exact inverse of CT (rule R37). -/
def InverseTables (ct : Table Bits) (rct : List (Bits × Byte)) : Prop :=
  ∀ c b, rctLook rct c = some b ↔ c ≠ [] ∧ ct.look b = c

/-- CT and RCT are the tables of some tree: empty, the lone "0", or the root-to-leaf paths (rule R36). -/
def CodesInv (ct : Table Bits) (rct : List (Bits × Byte)) : Prop :=
  ∃ ns nleaf root l, TreeInv ns nleaf root ∧ treeCodes ns root = some l ∧ ct = (codesOf l).ct ∧ rct = (codesOf l).rct

/-- The codes of the bytes `bs`, concatenated in order (rule R141). -/
def coded (ct : Table Bits) (bs : List Byte) : Bits := bs.flatMap ct.look

/-- Every one of the bytes `bs` has a code. -/
def AllCoded (ct : Table Bits) (bs : List Byte) : Prop := ∀ b ∈ bs, ct.look b ≠ []

/-! ### What a command depends on and may report -/

/-- Two states of the same instance that hold the same input: ILEN and IBUF[0..ILEN) (rule R82's reads column). -/
def SameInput (s u : State) : Prop :=
  s.params = u.params ∧ s.ilen = u.ilen ∧ ∀ a, a < s.ilen → s.ibuf.read a = u.ibuf.read a

/-- The result codes a command can end with: OK and the non-blank columns of rule R188's table. -/
def mayReport : Instr → List ErrCode
  | .tally => [.ok, .capacityExceeded]
  | .build => [.ok, .emptyInput]
  | .gen => [.ok]
  | .subst => [.ok, .unencodableSymbol, .capacityExceeded]
  | .pack => [.ok, .capacityExceeded]
  | .unpack => [.ok, .malformedHeader, .capacityExceeded]
  | .pmatch => [.ok, .truncatedStream, .capacityExceeded]
  | .encode => [.ok, .capacityExceeded]
  | .decode => [.ok, .malformedHeader, .truncatedStream, .capacityExceeded]
  | .clr => [.ok]

/-! ### The machine's invariant -/

/-- What every state that a run reaches satisfies. -/
structure Inv (s : State) : Prop where
  /-- Rule R8's constraints. -/
  params : s.params.wf = true
  /-- ILEN holds LENW bits (rule R23). -/
  ilen : s.ilen < 2 ^ s.params.lenw
  /-- IBUF's memory is in its canonical form. -/
  ibufWf : s.ibuf.wf = true
  /-- IBUF's addresses are 0..IBUFCAP - 1 (rule R25). -/
  ibufIn : ∀ c ∈ s.ibuf, c.1 < s.params.ibufcap
  /-- OLEN ≤ OBUFCAP (rule R24). -/
  obuf : s.obuf.length ≤ s.params.obufcap
  /-- BLEN ≤ BSCAP (rule R38). -/
  bs : s.bs.length ≤ s.params.bscap
  /-- The counts of FT sum to at most IBUFCAP, so each is below 2^CNTW (rules R102, R119). -/
  ft : (allSymbols.map s.ft.look).sum ≤ s.params.ibufcap
  /-- The tree (rule R33). -/
  tree : TreeInv s.nodes s.nleaf s.root
  /-- Every node's frequency is below 2^CNTW (rule R119). -/
  freqs : ∀ n ∈ s.nodes, n.freq ≤ s.params.ibufcap
  /-- PQ is empty (rule R34). -/
  pq : s.pq = []
  /-- The code tables (rules R36, R37). -/
  codes : CodesInv s.ct s.rct

end Sys2Proof.Machine
end

