-- ==== Sys2Proof/Certificates/Slice0/Obligations.lean ====
section
/-! DEFINITION. The statements for the provers, from the numbered rules of spec/. They quantify over every state and
so over every instance's capacities (log entry 1). -/

open Sys2Proof Sys2Proof.Machine

/-! ### Reset, the sequencer and the host port -/

/-- R43: every register at its reset value, every table empty, no defined byte, bit or slot in a buffer. That no byte
of IBUF has a value is the model's rendering of "unspecified" (log entry 4). -/
def Obligations.ResetLeavesNothingSeen : Prop :=
  State.reset = State.resetWith Params.default ∧
  ∀ p : Params,
    (State.resetWith p).seq = .idle ∧ (State.resetWith p).status = 0#8 ∧ (State.resetWith p).err = .ok ∧
    (State.resetWith p).ilen = 0 ∧ (State.resetWith p).olen = 0 ∧ (State.resetWith p).blen = 0 ∧
    (∀ a, (State.resetWith p).ibuf.read a = none) ∧ (∀ a : Nat, (State.resetWith p).obuf[a]? = none) ∧
    (∀ b, (State.resetWith p).ft.look b = 0) ∧
    (State.resetWith p).nnodes = 0 ∧ (State.resetWith p).nleaf = 0 ∧ (State.resetWith p).root = 0 ∧
    (State.resetWith p).pq = [] ∧ (∀ b, (State.resetWith p).ct.look b = []) ∧
    ∀ c, rctLook (State.resetWith p).rct c = none

/-- R200: reset may be asserted in any state, also while a command runs, which is abandoned; what is not the core's
state (the instance's capacities and the host's side) stays. -/
def Obligations.ResetInEveryState : Prop :=
  ∀ (s : State) (e : Bool) (rest : List Arrival), s.pending = ⟨e, .reset⟩ :: rest → (s.busy = true → e = true) →
    step s = .next { State.resetWith s.params with pending := rest, replies := s.replies, draws := s.draws }

/-- R28: with SEQ = IDLE and no host access the sequencer waits. -/
def Obligations.IdleSequencerWaits : Prop :=
  ∀ s : State, s.seq = .idle → s.pending = [] → step s = .next s

/-- R81, with R80: the ten words of the opcode map, and every other value reserved. -/
def Obligations.OpcodeMapIsComplete : Prop :=
  (decodeByte 0x01#8 = .command .tally ∧ decodeByte 0x02#8 = .command .build ∧ decodeByte 0x03#8 = .command .gen ∧
    decodeByte 0x04#8 = .command .subst ∧ decodeByte 0x05#8 = .command .pack ∧
    decodeByte 0x06#8 = .command .unpack ∧ decodeByte 0x07#8 = .command .pmatch ∧
    decodeByte 0x08#8 = .command .encode ∧ decodeByte 0x09#8 = .command .decode ∧
    decodeByte 0x0F#8 = .command .clr) ∧
  ∀ v : Byte, v ∉ [0x01#8, 0x02#8, 0x03#8, 0x04#8, 0x05#8, 0x06#8, 0x07#8, 0x08#8, 0x09#8, 0x0F#8] →
    decodeByte v = .reserved v

/-- R80, R84, R85: decoding and encoding agree, both ways: each command has one byte and each command byte one
command. -/
def Obligations.DecodeAndEncodeAgree : Prop :=
  ∀ (i : Instr) (v : Byte), decodeByte v = .command i ↔ v = encodeInstr i

/-- R28, R44: with SEQ = RUN the step is the meaning of the command latched; `withFetchWord` places a command so. -/
def Obligations.StepRunsTheLatchedCommand : Prop :=
  (∀ (s : State) (op : Byte) (i : Instr), s.seq = .run op → NoEarlyAccess s → decodeByte op = .command i →
    step s = exec i s) ∧
  ∀ (s : State) (i : Instr), step (s.withFetchWord 8 (encodeInstr i).toNat) =
    exec i (s.withFetchWord 8 (encodeInstr i).toNat)

/-- R21, R22, R44: a host write of CMD while idle latches the value and sets BUSY; nothing else changes. -/
def Obligations.CmdWriteStartsTheCommand : Prop :=
  ∀ (s : State) (e : Bool) (v : Nat) (rest : List Arrival),
    s.seq = .idle → s.pending = ⟨e, .writeReg 0x00 v⟩ :: rest → v < 256 →
    step s = .next ((s.setPending rest).latch (BitVec.ofNat 8 v)) ∧
      ((s.setPending rest).latch (BitVec.ofNat 8 v)).busy = true

/-- R83: a reserved value written to CMD ends as a command that fails with IllegalCommand, code 6, and nothing else
changes. -/
def Obligations.ReservedValueIsIllegalCommand : Prop :=
  ErrCode.illegalCommand.code = 6#3 ∧
  ∀ (s : State) (e : Bool) (v : Nat) (rest : List Arrival),
    s.seq = .idle → s.pending = ⟨e, .writeReg 0x00 v⟩ :: rest → v < 256 →
    (∀ i, BitVec.ofNat 8 v ≠ encodeInstr i) → NoEarlyAccess (s.setPending rest) →
    ∃ t, step s = .next t ∧ step t = .next ((s.setPending rest).endWith .illegalCommand)

/-- R180: the numbers of the result codes; no two kinds share one, and 7 is never held. -/
def Obligations.ResultCodesAreDistinct : Prop :=
  (ErrCode.ok.code = 0#3 ∧ ErrCode.emptyInput.code = 1#3 ∧ ErrCode.malformedHeader.code = 2#3 ∧
    ErrCode.truncatedStream.code = 3#3 ∧ ErrCode.unencodableSymbol.code = 4#3 ∧
    ErrCode.capacityExceeded.code = 5#3 ∧ ErrCode.illegalCommand.code = 6#3) ∧
  (∀ e f : ErrCode, e.code = f.code → e = f) ∧ ∀ e : ErrCode, e.code ≠ 7#3

/-- R22, R66: a STATUS read returns ERR in bits 3:1 and BUSY in bit 0, bits 7:4 zero, and changes nothing. -/
def Obligations.StatusReadGivesErrAndBusy : Prop :=
  ∀ (s : State) (e : Bool) (rest : List Arrival), s.pending = ⟨e, .readReg 0x04⟩ :: rest →
    (s.seq = .idle → step s = .next ((s.setPending rest).reply (2 * s.err.code.toNat))) ∧
    ∀ op, s.seq = .run op → e = true → step s = .next ((s.setPending rest).reply (2 * s.err.code.toNat + 1))

/-- R22 to R27: what each host access of an idle core does: writes of STATUS and OLEN are ignored, ILEN is written
and read, OLEN is read, a byte of IBUF is written, a byte of OBUF below OLEN is read, and there is no port to read
IBUF or write OBUF. -/
def Obligations.HostAccessRights : Prop :=
  ∀ (s : State) (e : Bool) (a : HostAccess) (rest : List Arrival), s.seq = .idle → s.pending = ⟨e, a⟩ :: rest →
    (∀ v, a = .writeReg 0x04 v ∨ a = .writeReg 0x0C v → step s = .next (s.setPending rest)) ∧
    (∀ v, v < 2 ^ s.params.lenw → a = .writeReg 0x08 v → step s = .next ((s.setPending rest).setIlen v)) ∧
    (a = .readReg 0x08 → step s = .next ((s.setPending rest).reply s.ilen)) ∧
    (a = .readReg 0x0C → step s = .next ((s.setPending rest).reply s.olen)) ∧
    (∀ c b, c < s.params.ibufcap → a = .writeIbuf c b →
      ∃ m, step s = .next ((s.setPending rest).setIbuf m) ∧ m.read c = some b ∧
        ∀ d, d ≠ c → m.read d = s.ibuf.read d) ∧
    (∀ c b, s.obuf[c]? = some b → a = .readObuf c → step s = .next ((s.setPending rest).reply b.toNat)) ∧
    (∀ c, a = .readIbuf c → step s = .refused .noPort) ∧
    ∀ c b, a = .writeObuf c b → step s = .refused .noPort

/-- R21, R26, R86: a read of CMD, of a reserved offset or of OBUF at or above OLEN answers some value, whichever it
is, and changes nothing of the core; a write to a reserved offset is ignored. That the read answers (and is not
refused) is the model's choice among the two treatments of U2 and U6 (log entry 5). -/
def Obligations.UnspecifiedReadsAnswer : Prop :=
  ∀ (s : State) (e : Bool) (a : HostAccess) (rest : List Arrival), s.seq = .idle → s.pending = ⟨e, a⟩ :: rest →
    (a = .readReg 0x00 → ∃ v, v < 256 ∧ step s = .next ((s.setPending rest).reply v).drawn) ∧
    (∀ off, 0x10 ≤ off → a = .readReg off → ∃ v, step s = .next ((s.setPending rest).reply v).drawn) ∧
    (∀ c, s.olen ≤ c → a = .readObuf c → ∃ v, v < 256 ∧ step s = .next ((s.setPending rest).reply v).drawn) ∧
    ∀ off v, 0x10 ≤ off → a = .writeReg off v → step s = .next (s.setPending rest)

/-- R207: while a command runs every host access but a STATUS read stops the model (its treatment of U3). -/
def Obligations.AccessWhileBusyIsRefused : Prop :=
  ∀ (s : State) (op : Byte) (a : HostAccess) (rest : List Arrival), s.seq = .run op →
    s.pending = ⟨true, a⟩ :: rest → a ≠ .readReg 0x04 → a ≠ .reset → step s = .refused .accessWhileBusy

/-- R91: the accesses of `LOAD b0 b1 ...` leave the bytes in IBUF from address 0 and their count in ILEN; the bytes
of IBUF at and above the count, and everything else, stay. -/
def Obligations.LoadPlacesTheInput : Prop :=
  ∀ (s : State) (bs : List Byte), s.seq = .idle → s.pending = (load bs).map (⟨false, ·⟩) →
    bs.length ≤ s.params.ibufcap → bs.length < 2 ^ s.params.lenw →
    ∃ m, Host.Core.run Sys2Proof.core (bs.length + 1) s =
        .next (((s.setPending []).setIbuf m).setIlen bs.length) ∧
      (∀ i, i < bs.length → m.read i = bs[i]?) ∧ ∀ a, bs.length ≤ a → m.read a = s.ibuf.read a

/-- R62: the bit order inside a byte, as formulas, and the two directions as inverses. -/
def Obligations.BitOrderIsMsbFirst : Prop :=
  (∀ (v : Byte) (p : Nat), p < 8 → (bitsOf v)[p]? = some (decide (v.toNat / 2 ^ (7 - p) % 2 = 1))) ∧
  (∀ x : Bits, x.length = 8 →
    (byteOf x).toNat = ((List.range 8).map fun p => if x.getD p false then 2 ^ (7 - p) else 0).sum) ∧
  (∀ v : Byte, byteOf (bitsOf v) = v) ∧
  (∀ x : Bits, x.length = 8 → bitsOf (byteOf x) = x) ∧
  ∀ (v : Byte) (p : Nat), p < 8 → (bitsOf v)[p]? = some (v.getLsbD (7 - p))

/-! ### TALLY -/

/-- R101: TALLY's failure, and its counts after success: FT[b] is the number of times b occurs in IBUF[0..ILEN), the
counts sum to ILEN, and at most min(ILEN, 256) symbols are present. Only FT, ERR and SEQ change. -/
def Obligations.TallyCountsSymbols : Prop :=
  encodeInstr .tally = 0x01#8 ∧
  ∀ s : State,
    (s.params.ibufcap < s.ilen →
      exec .tally s = .next ((s.setFt (Table.const 0)).endWith .capacityExceeded)) ∧
    ∀ bs : List Byte, s.ilen ≤ s.params.ibufcap → InputIs s bs →
      ∃ f, exec .tally s = .next ((s.setFt f).endWith .ok) ∧ (∀ b, f.look b = bs.count b) ∧
        (allSymbols.map f.look).sum = s.ilen ∧
        (allSymbols.filter fun b => decide (f.look b ≠ 0)).length ≤ min s.ilen 256

/-- R104: the result does not depend on what FT held, nor on the order of the bytes: from any two states whose inputs
are permutations of each other TALLY gives the same FT, and changes nothing but FT, ERR and SEQ. -/
def Obligations.TallyIgnoresOrder : Prop :=
  ∀ (s u : State) (bs cs : List Byte), InputIs s bs → InputIs u cs → bs.Perm cs →
    s.ilen ≤ s.params.ibufcap → u.ilen ≤ u.params.ibufcap →
    ∃ f, exec .tally s = .next ((s.setFt f).endWith .ok) ∧ exec .tally u = .next ((u.setFt f).endWith .ok)

/-- R67, R208, with U1: a command that reads a byte of IBUF the host has not written stops with a fault that names
the first such address. TALLY and ENCODE read every byte below ILEN; SUBST reads as far as no symbol fails (R142);
UNPACK and DECODE read the header and, where no check of R157 fails, the bytes that hold the first
nb = 8(ILEN - 1) - h payload bits (R153). The fault is the treatment U1 asks of a model (log entry 4). -/
def Obligations.UnwrittenInputFaults : Prop :=
  ∀ (s : State) (a : Nat), s.ilen ≤ s.params.ibufcap → a < s.ilen → s.ibuf.read a = none →
    (∀ c, c < a → s.ibuf.read c ≠ none) →
    exec .tally s = .fault (.unwrittenInput a) ∧ exec .encode s = .fault (.unwrittenInput a) ∧
    (∀ pre : List Byte, pre.length = a → (∀ i, i < a → s.ibuf.read i = pre[i]?) → AllCoded s.ct pre →
      (coded s.ct pre).length ≤ s.params.bscap → exec .subst s = .fault (.unwrittenInput a)) ∧
    (a = 0 → exec .unpack s = .fault (.unwrittenInput 0) ∧ exec .decode s = .fault (.unwrittenInput 0)) ∧
    ∀ h : Byte, s.ibuf.read 0 = some h → 1 ≤ h.toNat → h.toNat ≤ 8 → 2 ≤ s.ilen →
      8 * (s.ilen - 1) - h.toNat ≤ s.params.bscap → 1 ≤ a → a ≤ (8 * (s.ilen - 1) - h.toNat + 7) / 8 →
      exec .unpack s = .fault (.unwrittenInput a) ∧ exec .decode s = .fault (.unwrittenInput a)

/-! ### BUILD -/

/-- R121: BUILD rejects the empty table with EmptyInput, code 1, and leaves the empty tree, PQ empty and everything
else unchanged. -/
def Obligations.BuildRejectsEmptyTable : Prop :=
  ErrCode.emptyInput.code = 1#3 ∧
  ∀ s : State, (∀ b, s.ft.look b = 0) → exec .build s = .next ((s.setTree [] 0 0).endWith .emptyInput)

/-- R115, R118, R119, R120: on a table with a present symbol BUILD completes with a tree that meets every item of
R33; its leaves are exactly the present symbols with their counts, and the root's frequency is the sum of the counts.
Only the tree, PQ (empty), ERR and SEQ change. -/
def Obligations.BuildGivesTheTree : Prop :=
  ∀ s : State, (∃ b, s.ft.look b ≠ 0) →
    ∃ ns nl r, exec .build s = .next ((s.setTree ns nl r).endWith .ok) ∧ IsTree ns nl r ∧
      nl = (allSymbols.filter fun b => decide (s.ft.look b ≠ 0)).length ∧
      (∀ k, k < nl → (nodeAt ns k).freq = s.ft.look (nodeAt ns k).sym) ∧
      (∀ b, s.ft.look b ≠ 0 → ∃ k, k < nl ∧ (nodeAt ns k).sym = b) ∧
      (nodeAt ns r).freq = (allSymbols.map s.ft.look).sum

/-- R117, with R112: each internal node was made from the first two entries of the queue's order among the nodes with
no parent yet, two nodes that had none themselves; the first is its left child, the second its right, its frequency is
their sum and its symbol 0. -/
def Obligations.BuildCombinesTheTwoFirst : Prop :=
  ∀ s t : State, exec .build s = .next t → t.err = .ok → ∀ k, t.nleaf ≤ k → k < t.nnodes →
    ∃ a b, t.nodes[k]? = some (innerNode (freqAt t.nodes a + freqAt t.nodes b) a b) ∧ a < k ∧ b < k ∧
      NoParentBelow t.nodes t.nleaf k a ∧ NoParentBelow t.nodes t.nleaf k b ∧ before t.nodes a b = true ∧
      ∀ j, j < k → j ≠ a → j ≠ b → NoParentBelow t.nodes t.nleaf k j →
        before t.nodes a j = true ∧ before t.nodes b j = true

/-- R112: the queue's order is (frequency, index) lexicographically, strict and total. -/
def Obligations.QueueOrderIsStrictTotal : Prop :=
  ∀ ns : List Node,
    (∀ j k, before ns j k = true ↔ freqAt ns j < freqAt ns k ∨ (freqAt ns j = freqAt ns k ∧ j < k)) ∧
    (∀ j, before ns j j = false) ∧
    (∀ j k l, before ns j k = true → before ns k l = true → before ns j l = true) ∧
    ∀ j k, j ≠ k → (before ns j k = true ↔ before ns k j = false)

/-- R113: extract_min removes and returns the entry that comes before every other; the answer does not depend on how
the queue arranges its entries. -/
def Obligations.ExtractMinIsFirst : Prop :=
  ∀ (ns : List Node) (q : List Nat), q ≠ [] →
    ∃ m, pqExtractMin ns q = some (m, q.erase m) ∧ m ∈ q ∧ (∀ j ∈ q, j ≠ m → before ns m j = true) ∧
      ∀ q' : List Nat, q.Perm q' → pqExtractMin ns q' = some (m, q'.erase m)

/-- R124: BUILD is a function of FT alone. -/
def Obligations.BuildDependsOnFtAlone : Prop :=
  ∀ s u : State, s.ft = u.ft →
    ∃ ns nl r e, exec .build s = .next ((s.setTree ns nl r).endWith e) ∧
      exec .build u = .next ((u.setTree ns nl r).endWith e)

/-! ### GEN -/

/-- R133: GEN on the empty tree clears both tables and succeeds. -/
def Obligations.GenOfEmptyTree : Prop :=
  ∀ s : State, s.nnodes = 0 →
    ∃ c r, exec .gen s = .next ((s.setCodes c r).endWith .ok) ∧ (∀ b, c.look b = []) ∧ ∀ p, rctLook r p = none

/-- R132: the lone leaf gets the code "0", every other symbol none, and no other string is a code. -/
def Obligations.GenOfLoneLeaf : Prop :=
  ∀ (s : State) (n : Node), s.nodes[s.root]? = some n → n.leaf = true →
    ∃ c r, exec .gen s = .next ((s.setCodes c r).endWith .ok) ∧ c.look n.sym = [false] ∧
      (∀ b, b ≠ n.sym → c.look b = []) ∧ rctLook r [false] = some n.sym ∧ ∀ p, p ≠ [false] → rctLook r p = none

/-- R131: on a tree with an internal root GEN completes, and CT[b] is the string of edge labels from ROOT to b's leaf;
a symbol with no leaf has no code. Only CT, RCT, ERR and SEQ change. -/
def Obligations.GenCodesAreThePaths : Prop :=
  ∀ s : State, TreeInv s.nodes s.nleaf s.root → 1 < s.nnodes →
    ∃ c r, exec .gen s = .next ((s.setCodes c r).endWith .ok) ∧
      ∀ b p, p ≠ [] → (c.look b = p ↔
        ∃ k, followPath s.nodes s.root p = some k ∧ (nodeAt s.nodes k).leaf = true ∧ (nodeAt s.nodes k).sym = b)

/-- R134, R135, R37: on every tree GEN's codes are prefix-free, RCT is the exact inverse of CT with NLEAF entries, and
a code has at most NLEAF - 1 bits (one bit for the lone leaf). -/
def Obligations.GenTablesArePrefixFree : Prop :=
  ∀ s : State, TreeInv s.nodes s.nleaf s.root →
    ∃ c r, exec .gen s = .next ((s.setCodes c r).endWith .ok) ∧ PrefixFree c ∧ InverseTables c r ∧
      r.length = s.nleaf ∧ (allSymbols.filter fun b => decide (c.look b ≠ [])).length = s.nleaf ∧
      ∀ b, (c.look b).length ≤ max 1 (s.nleaf - 1)

/-! ### SUBST, PACK, UNPACK -/

/-- R141: where every byte of the text has a code and the codes fit BS, SUBST completes with their concatenation in
order. Only BS, BLEN, ERR and SEQ change. -/
def Obligations.SubstConcatenatesCodes : Prop :=
  ∀ (s : State) (bs : List Byte), s.ilen ≤ s.params.ibufcap → InputIs s bs → AllCoded s.ct bs →
    (coded s.ct bs).length ≤ s.params.bscap →
    exec .subst s = .next ((s.setBs (coded s.ct bs)).endWith .ok)

/-- R142: SUBST's failures: ILEN > IBUFCAP; else the first offending symbol decides, absence of a code before
capacity. Afterwards BLEN = 0 and nothing else has changed. -/
def Obligations.SubstFailures : Prop :=
  ∀ s : State,
    (s.params.ibufcap < s.ilen → exec .subst s = .next ((s.setBs []).endWith .capacityExceeded)) ∧
    ∀ (pre : List Byte) (b : Byte), s.ilen ≤ s.params.ibufcap → pre.length < s.ilen →
      (∀ i, i < pre.length → s.ibuf.read i = pre[i]?) → s.ibuf.read pre.length = some b →
      AllCoded s.ct pre → (coded s.ct pre).length ≤ s.params.bscap →
      (s.ct.look b = [] → exec .subst s = .next ((s.setBs []).endWith .unencodableSymbol)) ∧
      (s.ct.look b ≠ [] → s.params.bscap < (coded s.ct pre).length + (s.ct.look b).length →
        exec .subst s = .next ((s.setBs []).endWith .capacityExceeded))

/-- R149: the empty bit string packs to the single byte 0x08. -/
def Obligations.PackOfEmptyString : Prop :=
  ∀ s : State, s.blen = 0 → exec .pack s = .next ((s.setObuf [0x08#8]).endWith .ok)

/-- R145 to R148, R150: a bit string of L > 0 bits that fits packs to 2 + L div 8 bytes: the header, whose value is
8 - L mod 8, in 1..8, and the payload, most significant bit first, the bits past L zero. One that does not fit fails
with CapacityExceeded and leaves OLEN = 0. Only OBUF, OLEN, ERR and SEQ change. -/
def Obligations.PackWritesHeaderAndPayload : Prop :=
  ∀ s : State, s.blen ≠ 0 →
    (2 + s.blen / 8 ≤ s.params.obufcap →
      ∃ h pay, exec .pack s = .next ((s.setObuf (h :: pay)).endWith .ok) ∧
        h.toNat = 8 - s.blen % 8 ∧ 1 ≤ h.toNat ∧ h.toNat ≤ 8 ∧ pay.length = 1 + s.blen / 8 ∧
        ∀ j, j < pay.length → ∀ p, p < 8 →
          ∃ v, pay[j]? = some v ∧ v.getLsbD (7 - p) = s.bs.getD (8 * j + p) false) ∧
    (s.params.obufcap < 2 + s.blen / 8 →
      exec .pack s = .next ((s.setObuf []).endWith .capacityExceeded))

/-- R153, R156: for ILEN ≥ 2 and a header h in 1..8 UNPACK completes with the first nb = 8(ILEN - 1) - h bits of bytes
1, 2, ..., most significant bit first; the stripped bits are not examined, and only the bytes that hold the nb bits
are read. -/
def Obligations.UnpackStripsThePadding : Prop :=
  ∀ (s : State) (h : Byte) (pay : List Byte), 2 ≤ s.ilen → s.ilen ≤ s.params.ibufcap →
    s.ibuf.read 0 = some h → 1 ≤ h.toNat → h.toNat ≤ 8 → 8 * (s.ilen - 1) - h.toNat ≤ s.params.bscap →
    pay.length = (8 * (s.ilen - 1) - h.toNat + 7) / 8 → (∀ i, i < pay.length → s.ibuf.read (1 + i) = pay[i]?) →
    ∃ x, exec .unpack s = .next ((s.setBs x).endWith .ok) ∧ x.length = 8 * (s.ilen - 1) - h.toNat ∧
      ∀ q, q < x.length → ∃ v, pay[q / 8]? = some v ∧ x[q]? = some (v.getLsbD (7 - q % 8))

/-- R155: a one-byte buffer is the empty bit string if its header is 8, and malformed if it is 1..7. -/
def Obligations.UnpackHeaderOnlyBuffer : Prop :=
  ∀ (s : State) (h : Byte), s.ilen = 1 → 1 ≤ s.params.ibufcap → s.ibuf.read 0 = some h →
    (h = 0x08#8 → exec .unpack s = .next ((s.setBs []).endWith .ok)) ∧
    (1 ≤ h.toNat → h.toNat ≤ 7 → exec .unpack s = .next ((s.setBs []).endWith .malformedHeader))

/-- R157, R154: UNPACK's five checks in order, each ending with BLEN = 0 and nothing else changed; no payload byte
need be readable for the header checks, and TruncatedStream is never raised. -/
def Obligations.UnpackChecksInOrder : Prop :=
  ∀ s : State,
    (s.params.ibufcap < s.ilen → exec .unpack s = .next ((s.setBs []).endWith .capacityExceeded)) ∧
    (s.ilen = 0 → exec .unpack s = .next ((s.setBs []).endWith .malformedHeader)) ∧
    (∀ h : Byte, 0 < s.ilen → s.ilen ≤ s.params.ibufcap → s.ibuf.read 0 = some h →
      (h.toNat < 1 ∨ 8 < h.toNat → exec .unpack s = .next ((s.setBs []).endWith .malformedHeader)) ∧
      (1 ≤ h.toNat → h.toNat < 8 → s.ilen = 1 → exec .unpack s = .next ((s.setBs []).endWith .malformedHeader)) ∧
      (1 ≤ h.toNat → h.toNat ≤ 8 → 2 ≤ s.ilen → s.params.bscap < 8 * (s.ilen - 1) - h.toNat →
        exec .unpack s = .next ((s.setBs []).endWith .capacityExceeded))) ∧
    ∀ t, exec .unpack s = .next t → t.err ≠ .truncatedStream

/-- R158: UNPACK inverts PACK: the packed buffer of any bit string that the capacities allow unpacks to it, whatever
else the unpacking state holds. The converse does not hold: some buffer unpacks and packs to other bytes. -/
def Obligations.UnpackInvertsPack : Prop :=
  (∀ s : State, s.blen ≤ s.params.bscap → 2 + s.blen / 8 ≤ min s.params.obufcap s.params.ibufcap →
    ∃ o, exec .pack s = .next ((s.setObuf o).endWith .ok) ∧
      ∀ u : State, u.params = s.params → InputIs u o → exec .unpack u = .next ((u.setBs s.bs).endWith .ok)) ∧
  ∃ (s t v : State) (bs : List Byte), InputIs s bs ∧ exec .unpack s = .next t ∧ t.err = .ok ∧
    exec .pack t = .next v ∧ v.err = .ok ∧ v.obuf ≠ bs

/-! ### MATCH -/

/-- R162: under a prefix-free table and its inverse, a bit string has at most one decomposition into codes; MATCH
finds it if it exists (capacity permitting), so MATCH inverts SUBST, and fails with TruncatedStream if none does. The
last clause is R164's failure at any BLEN: bits that are the codes of at most OBUFCAP symbols and then a residue that
begins with no code. -/
def Obligations.MatchIsUnambiguous : Prop :=
  ∀ s : State, PrefixFree s.ct → InverseTables s.ct s.rct →
    (∀ bs cs, AllCoded s.ct bs → AllCoded s.ct cs → coded s.ct bs = coded s.ct cs → bs = cs) ∧
    (∀ bs, AllCoded s.ct bs → s.bs = coded s.ct bs → bs.length ≤ s.params.obufcap →
      exec .pmatch s = .next ((s.setObuf bs).endWith .ok)) ∧
    ((∀ bs, AllCoded s.ct bs → s.bs ≠ coded s.ct bs) → s.blen ≤ s.params.obufcap →
      exec .pmatch s = .next ((s.setObuf []).endWith .truncatedStream)) ∧
    ∀ (bs : List Byte) (rest : Bits), AllCoded s.ct bs → s.bs = coded s.ct bs ++ rest → rest ≠ [] →
      (∀ b, s.ct.look b ≠ [] → ¬ s.ct.look b <+: rest) → bs.length ≤ s.params.obufcap →
      exec .pmatch s = .next ((s.setObuf []).endWith .truncatedStream)

/-- R165: the symbol that finds OBUF full ends MATCH with CapacityExceeded and OLEN = 0, whatever bits follow it;
OBUFCAP ≥ BLEN rules the failure out. -/
def Obligations.MatchCapacity : Prop :=
  ∀ s : State,
    (∀ (bs : List Byte) (rest : Bits), PrefixFree s.ct → InverseTables s.ct s.rct → AllCoded s.ct bs →
      s.bs = coded s.ct bs ++ rest → bs.length = s.params.obufcap + 1 →
      exec .pmatch s = .next ((s.setObuf []).endWith .capacityExceeded)) ∧
    (s.blen ≤ s.params.obufcap → ∀ t, exec .pmatch s = .next t → t.err ≠ .capacityExceeded)

/-- R166: the degenerate inputs of MATCH: no bits; no codes; the single-symbol table, with a stream of zeros and with
one whose first 1 follows m zeros that OBUF holds; MATCH run twice. -/
def Obligations.MatchDegenerateInputs : Prop :=
  ∀ s : State,
    (s.blen = 0 → exec .pmatch s = .next ((s.setObuf []).endWith .ok)) ∧
    (s.rct = [] → s.blen ≠ 0 → exec .pmatch s = .next ((s.setObuf []).endWith .truncatedStream)) ∧
    (∀ b m, s.rct = [([false], b)] → s.bs = List.replicate m false → m ≤ s.params.obufcap →
      exec .pmatch s = .next ((s.setObuf (List.replicate m b)).endWith .ok)) ∧
    (∀ b m rest, s.rct = [([false], b)] → s.bs = List.replicate m false ++ true :: rest → m ≤ s.params.obufcap →
      exec .pmatch s = .next ((s.setObuf []).endWith .truncatedStream)) ∧
    ∀ t, exec .pmatch s = .next t → exec .pmatch t = .next t

/-! ### ENCODE, DECODE, CLR -/

/-- R172: ENCODE of the empty input: the header-only buffer, the empty table, tree and codes, no bits, success. -/
def Obligations.EncodeOfEmptyInput : Prop :=
  ∀ s : State, s.ilen = 0 →
    exec .encode s = .next ((((((s.setFt (Table.const 0)).setTree [] 0 0).setCodes (Table.const []) []).setBs
      []).setObuf [0x08#8]).endWith .ok)

/-- R171: on any written text that fits IBUF ENCODE completes: FT holds its counts, the tree and the tables are those
of a tree, every byte has a code, and the packed codes are in OBUF, unless BSCAP or OBUFCAP does not suffice, when it
fails with CapacityExceeded and no output; no other failure occurs. ILEN, IBUF and the host's side do not change. -/
def Obligations.EncodeCompletes : Prop :=
  ∀ (s : State) (bs : List Byte), InputIs s bs → s.ilen ≤ s.params.ibufcap → 1 ≤ s.params.obufcap →
    ∃ t, exec .encode s = .next t ∧ (∀ b, t.ft.look b = bs.count b) ∧ TreeInv t.nodes t.nleaf t.root ∧
      PrefixFree t.ct ∧ InverseTables t.ct t.rct ∧ AllCoded t.ct bs ∧
      (if (coded t.ct bs).length ≤ s.params.bscap ∧ packedLen (coded t.ct bs).length ≤ s.params.obufcap then
        t.err = .ok ∧ t.bs = coded t.ct bs ∧ t.obuf = packed (coded t.ct bs)
      else t.err = .capacityExceeded ∧ t.obuf = []) ∧
      t.params = s.params ∧ t.ilen = s.ilen ∧ t.ibuf = s.ibuf ∧ t.seq = .idle ∧ t.pq = [] ∧
      t.pending = s.pending ∧ t.replies = s.replies ∧ t.draws = s.draws

/-- R170, R175: ENCODE against the chain TALLY; BUILD; GEN; SUBST; PACK issued by the host: the same final state; a
failing step ends the macro with its error and OLEN = 0; BUILD's EmptyInput in the chain is no failure of the
macro. -/
def Obligations.EncodeEqualsTheChain : Prop :=
  ∀ s t1 : State, exec .tally s = .next t1 →
    (t1.err ≠ .ok → exec .encode s = .next (t1.setObuf [])) ∧
    (t1.err = .ok → ∀ t2 t3 t4, exec .build t1 = .next t2 → exec .gen t2 = .next t3 → exec .subst t3 = .next t4 →
      (t4.err ≠ .ok → exec .encode s = .next (t4.setObuf [])) ∧
      (t4.err = .ok → exec .encode s = exec .pack t4))

/-- R170, R173, R175: DECODE against the chain UNPACK; MATCH. -/
def Obligations.DecodeEqualsTheChain : Prop :=
  ∀ s t : State, exec .unpack s = .next t →
    (t.err ≠ .ok → exec .decode s = .next (t.setObuf [])) ∧ (t.err = .ok → exec .decode s = exec .pmatch t)

/-- R173: on any written input DECODE completes; its failures are MalformedHeader, TruncatedStream and
CapacityExceeded, each with OLEN = 0; it does not write FT, the tree, CT, RCT, ILEN or IBUF. -/
def Obligations.DecodeCompletes : Prop :=
  ∀ s : State, InputWritten s →
    ∃ x o e, exec .decode s = .next (((s.setBs x).setObuf o).endWith e) ∧
      e ∈ [.ok, .malformedHeader, .truncatedStream, .capacityExceeded] ∧ (e ≠ .ok → o = [])

/-- R173, R158, R162: on the packed codes of any symbols, under a prefix-free table and its inverse, DECODE completes
with those symbols. Only BS, BLEN, OBUF, OLEN, ERR and SEQ change. -/
def Obligations.DecodeOfPackedCodes : Prop :=
  ∀ (s : State) (bs : List Byte), PrefixFree s.ct → InverseTables s.ct s.rct → AllCoded s.ct bs →
    InputIs s (packed (coded s.ct bs)) → s.ilen ≤ s.params.ibufcap →
    (coded s.ct bs).length ≤ s.params.bscap → bs.length ≤ s.params.obufcap →
    exec .decode s = .next (((s.setBs (coded s.ct bs)).setObuf bs).endWith .ok)

/-- R177: the round trip. ENCODE of any text that fits IBUF succeeds where its bits fit BS and its packed bytes fit
OBUF, and fails only with CapacityExceeded. After a success, DECODE of its output, in any state of the same instance
that still holds the reverse table, gives the text back, byte for byte; where IBUF or OBUF does not hold the output or
the text it fails with CapacityExceeded and no output, never with a wrong result. -/
def Obligations.DecodeInvertsEncode : Prop :=
  ∀ (s : State) (bs : List Byte), InputIs s bs → s.ilen ≤ s.params.ibufcap → 1 ≤ s.params.obufcap →
    ∃ t, exec .encode s = .next t ∧
      ((coded t.ct bs).length ≤ s.params.bscap → packedLen (coded t.ct bs).length ≤ s.params.obufcap → t.err = .ok) ∧
      (t.err ≠ .ok → t.err = .capacityExceeded ∧ t.olen = 0) ∧
      (t.err = .ok → ∀ u : State, u.params = s.params → u.rct = t.rct → InputIs u t.obuf →
        (t.olen ≤ s.params.ibufcap → bs.length ≤ s.params.obufcap →
          exec .decode u = .next (((u.setBs t.bs).setObuf bs).endWith .ok)) ∧
        (s.params.ibufcap < t.olen →
          exec .decode u = .next (((u.setBs []).setObuf []).endWith .capacityExceeded)) ∧
        (t.olen ≤ s.params.ibufcap → s.params.obufcap < bs.length →
          exec .decode u = .next (((u.setBs t.bs).setObuf []).endWith .capacityExceeded)))

/-- R178: ENCODE's output depends on the text alone, and the header of every successful PACK or ENCODE is in 1..8. -/
def Obligations.EncodeIsDeterministic : Prop :=
  (∀ (s u : State) (bs : List Byte), InputIs s bs → InputIs u bs → u.params = s.params →
    s.ilen ≤ s.params.ibufcap →
    ∃ s' u', exec .encode s = .next s' ∧ exec .encode u = .next u' ∧ u'.obuf = s'.obuf ∧ u'.err = s'.err) ∧
  ∀ s t : State, exec .pack s = .next t ∨ exec .encode s = .next t → t.err = .ok →
    ∃ h pay, t.obuf = h :: pay ∧ 1 ≤ h.toNat ∧ h.toNat ≤ 8

/-- R179: a successful ENCODE output without its last byte never decodes to the text: outputs of one or two bytes give
MalformedHeader, longer ones an error or fewer symbols. -/
def Obligations.TruncationIsNotSilent : Prop :=
  ∀ (s t u : State) (bs : List Byte), InputIs s bs → exec .encode s = .next t → t.err = .ok →
    u.params = s.params → u.rct = t.rct → InputIs u t.obuf.dropLast →
    ∃ v, exec .decode u = .next v ∧ (t.olen ≤ 2 → v.err = .malformedHeader) ∧
      (v.err ≠ .ok ∨ v.olen < bs.length)

/-- R176: CLR returns every register and table to its reset value and does not write IBUF. -/
def Obligations.ClrReturnsToReset : Prop :=
  ∀ s : State, exec .clr s = .next { State.resetWith s.params with
    ibuf := s.ibuf, pending := s.pending, replies := s.replies, draws := s.draws }

/-- R201: every command is defined in the reset state, with these results. -/
def Obligations.CommandsInTheResetState : Prop :=
  ∀ p : Params,
    exec .tally (State.resetWith p) = .next (State.resetWith p) ∧
    exec .subst (State.resetWith p) = .next (State.resetWith p) ∧
    exec .encode (State.resetWith p) = .next ((State.resetWith p).setObuf [0x08#8]) ∧
    exec .build (State.resetWith p) = .next ((State.resetWith p).endWith .emptyInput) ∧
    exec .gen (State.resetWith p) = .next (State.resetWith p) ∧
    exec .pack (State.resetWith p) = .next ((State.resetWith p).setObuf [0x08#8]) ∧
    exec .unpack (State.resetWith p) = .next ((State.resetWith p).endWith .malformedHeader) ∧
    exec .decode (State.resetWith p) = .next ((State.resetWith p).endWith .malformedHeader) ∧
    exec .pmatch (State.resetWith p) = .next (State.resetWith p) ∧
    exec .clr (State.resetWith p) = .next (State.resetWith p)

/-! ### All commands -/

/-- R188: no command ends with a code whose cell in the table is blank. -/
def Obligations.CommandsReportTheirCodes : Prop :=
  ∀ (i : Instr) (s t : State), exec i s = .next t → t.err ∈ mayReport i

/-- R191 items 1 to 3: a failing command leaves SEQ = IDLE and its destination empty. -/
def Obligations.FailureLeavesDestinationEmpty : Prop :=
  ∀ (i : Instr) (s t : State), exec i s = .next t → t.err ≠ .ok →
    t.busy = false ∧
    match i with
    | .tally => t.ft = Table.const 0
    | .build => t.nnodes = 0 ∧ t.nleaf = 0 ∧ t.root = 0 ∧ t.pq = []
    | .subst | .unpack => t.blen = 0
    | .pack | .pmatch | .encode | .decode => t.olen = 0
    | .gen | .clr => False

/-- R82, R25, R27: the frame of every command. No command writes IBUF; each writes the destinations of its row, ERR
and SEQ, and nothing else (CLR's row is R176's). -/
def Obligations.CommandFrames : Prop :=
  ∀ (i : Instr) (s t : State), exec i s = .next t →
    (∀ a, t.ibuf.read a = s.ibuf.read a) ∧
    match i with
    | .tally => t = (s.setFt t.ft).endWith t.err
    | .build => t = (s.setTree t.nodes t.nleaf t.root).endWith t.err
    | .gen => t = (s.setCodes t.ct t.rct).endWith t.err
    | .subst | .unpack => t = (s.setBs t.bs).endWith t.err
    | .pack | .pmatch => t = (s.setObuf t.obuf).endWith t.err
    | .encode => t = { s with
        seq := .idle, err := t.err, ft := t.ft, nodes := t.nodes, nleaf := t.nleaf, root := t.root, pq := t.pq,
        ct := t.ct, rct := t.rct, bs := t.bs, obuf := t.obuf }
    | .decode => t = ((s.setBs t.bs).setObuf t.obuf).endWith t.err
    | .clr => t.params = s.params ∧ t.ibuf = s.ibuf ∧ t.pending = s.pending ∧ t.replies = s.replies ∧
        t.draws = s.draws

/-- R82's reads column, R11, R209: a command's result depends on its sources alone, never on what its destination or
any other state held before. -/
def Obligations.CommandsReadTheirSources : Prop :=
  ∀ s u t : State,
    (SameInput s u → exec .tally s = .next t → exec .tally u = .next ((u.setFt t.ft).endWith t.err)) ∧
    (s.ft = u.ft → exec .build s = .next t →
      exec .build u = .next ((u.setTree t.nodes t.nleaf t.root).endWith t.err)) ∧
    (s.nodes = u.nodes → s.root = u.root → exec .gen s = .next t →
      exec .gen u = .next ((u.setCodes t.ct t.rct).endWith t.err)) ∧
    (SameInput s u → s.ct = u.ct → exec .subst s = .next t →
      exec .subst u = .next ((u.setBs t.bs).endWith t.err)) ∧
    (s.params = u.params → s.bs = u.bs → exec .pack s = .next t →
      exec .pack u = .next ((u.setObuf t.obuf).endWith t.err)) ∧
    (SameInput s u → exec .unpack s = .next t → exec .unpack u = .next ((u.setBs t.bs).endWith t.err)) ∧
    (s.params = u.params → s.bs = u.bs → s.rct = u.rct → exec .pmatch s = .next t →
      exec .pmatch u = .next ((u.setObuf t.obuf).endWith t.err)) ∧
    (SameInput s u → exec .encode s = .next t → t.err = .ok →
      exec .encode u = .next ((((((u.setFt t.ft).setTree t.nodes t.nleaf t.root).setCodes t.ct t.rct).setBs
        t.bs).setObuf t.obuf).endWith .ok)) ∧
    (SameInput s u → s.rct = u.rct → exec .decode s = .next t →
      exec .decode u = .next (((u.setBs t.bs).setObuf t.obuf).endWith t.err))

/-- R11, R28, R213: every command ends, with SEQ = IDLE, except that it faults on a byte of the input that was never
written, and GEN on a NODE memory that is no tree. No command is refused. -/
def Obligations.CommandsEndIdle : Prop :=
  ∀ (i : Instr) (s : State),
    (∃ t, exec i s = .next t ∧ t.seq = .idle) ∨
    (∃ a, exec i s = .fault (.unwrittenInput a) ∧ a < s.ilen ∧ s.ilen ≤ s.params.ibufcap ∧ s.ibuf.read a = none) ∨
    (i = .gen ∧ exec i s = .fault .brokenTree ∧ ¬ TreeInv s.nodes s.nleaf s.root)

/-! ### Invariants -/

/-- The machine's invariant holds at reset, for every instance that meets R8's constraints. -/
def Obligations.InvariantAtReset : Prop :=
  Params.default.wf = true ∧ ∀ p : Params, p.wf = true → Inv (State.resetWith p)

/-- R24, R25, R33, R34, R36, R37, R38, R119: every step keeps the invariant, from every state that meets it. -/
def Obligations.EveryStepKeepsTheInvariant : Prop :=
  ∀ s t : State, Inv s → step s = .next t → Inv t

/-- Rule R8, R44: no step changes the instance's capacities. -/
def Obligations.ConfigurationIsFixed : Prop :=
  ∀ s t : State, step s = .next t → t.params = s.params

/-- R36, R37: under the invariant the codes are prefix-free, at most 255 bits long, and RCT is CT's exact inverse. -/
def Obligations.InvariantTablesArePrefixFree : Prop :=
  ∀ s : State, Inv s →
    PrefixFree s.ct ∧ InverseTables s.ct s.rct ∧ ∀ b, (s.ct.look b).length ≤ maxCl

/-- R13, R32, R102, R118, R119: under the invariant every register and table entry fits its width. -/
def Obligations.InvariantFitsTheWidths : Prop :=
  ∀ s : State, Inv s →
    s.ilen < 2 ^ s.params.lenw ∧ s.olen < 2 ^ s.params.lenw ∧ s.blen < 2 ^ s.params.lenw ∧
    (∀ b, s.ft.look b < 2 ^ s.params.cntw) ∧ s.nnodes ≤ maxNode ∧ s.nleaf ≤ nsym ∧ s.root < maxNode ∧
    ∀ n ∈ s.nodes, n.freq < 2 ^ s.params.cntw ∧ n.left < maxNode ∧ n.right < maxNode
end

