-- ==== Sys2Proof/Laws/Memory.lean ====
section
/-! SUPPORT. The laws of IBUF's memory: a read after a write, the canonical form and the address range are kept,
and what reading a run of bytes answers. -/

namespace Sys2Proof.Machine

/-- A read after a write to the same address gives the byte written. -/
@[simp] theorem Mem.read_write_same (m : Mem) (a : Nat) (b : Byte) : (m.write a b).read a = some b := by
  induction m with
  | nil => simp [Mem.write, Mem.read]
  | cons c rest ih =>
    simp only [Mem.write]
    split
    · simp [Mem.read]
    · split
      · simp [Mem.read]
      · have : c.1 ≠ a := by omega
        simpa [Mem.read, this] using ih

/-- A write leaves every other address alone. -/
theorem Mem.read_write_other (m : Mem) {a c : Nat} (b : Byte) (h : c ≠ a) : (m.write a b).read c = m.read c := by
  induction m with
  | nil => simp [Mem.write, Mem.read, Ne.symm h]
  | cons d rest ih =>
    simp only [Mem.write]
    split
    · simp [Mem.read, Ne.symm h]
    · split
      · next h' => simp [Mem.read, Ne.symm h, ← h']
      · simp [Mem.read, ih]

/-- The cells of a written memory are the one written and cells that were there. -/
theorem Mem.mem_write {m : Mem} {a : Nat} {b : Byte} {c : Host.Cell} (h : c ∈ m.write a b) : c = (a, b) ∨ c ∈ m := by
  induction m with
  | nil => simpa [Mem.write] using h
  | cons d rest ih =>
    simp only [Mem.write] at h
    split at h
    · simpa using h
    · split at h
      · simp only [List.mem_cons] at h ⊢; tauto
      · simp only [List.mem_cons] at h ⊢
        rcases h with h | h
        · exact .inr (.inl h)
        · rcases ih h with h | h
          · exact .inl h
          · exact .inr (.inr h)

/-- A write keeps the canonical form. -/
theorem Mem.write_wf {m : Mem} (a : Nat) (b : Byte) (h : m.wf = true) : (m.write a b).wf = true := by
  induction m with
  | nil => simp [Mem.write, Mem.wf]
  | cons d rest ih =>
    simp only [Mem.wf, Bool.and_eq_true, List.all_eq_true, decide_eq_true_eq] at h
    obtain ⟨hd, hr⟩ := h
    simp only [Mem.write]
    split
    · next hlt =>
      simp only [Mem.wf, Bool.and_eq_true, List.all_eq_true, decide_eq_true_eq, List.mem_cons]
      exact ⟨by rintro c (rfl | hc); exacts [hlt, hlt.trans (hd c hc)], hd, hr⟩
    · split
      · next heq =>
        simp only [Mem.wf, Bool.and_eq_true, List.all_eq_true, decide_eq_true_eq]
        exact ⟨fun c hc => heq ▸ hd c hc, hr⟩
      · simp only [Mem.wf, Bool.and_eq_true, List.all_eq_true, decide_eq_true_eq]
        refine ⟨fun c hc => ?_, ih hr⟩
        rcases Mem.mem_write hc with rfl | hc
        · show d.1 < a
          omega
        · exact hd c hc

/-- A write keeps the address range. -/
theorem Mem.write_lt {m : Mem} {a n : Nat} (b : Byte) (ha : a < n) (h : ∀ c ∈ m, c.1 < n) :
    ∀ c ∈ m.write a b, c.1 < n := by
  intro c hc
  rcases Mem.mem_write hc with rfl | hc
  · exact ha
  · exact h c hc

/-- Reset's IBUF has the canonical form. -/
theorem reset_ibuf_wf (p : Params) : (State.resetWith p).ibuf.wf = true := rfl

/-- A byte that was written reads as its value; one that was not faults (rule R67). -/
theorem memRead_eq (m : Mem) (a : Nat) :
    memRead m a = match m.read a with | some b => .ok b | none => .error (.unwrittenInput a) := rfl

/-- Reading a run of bytes answers `bs` exactly when they are the bytes there (rule R63). -/
theorem readRun_ok_iff (m : Mem) (n a : Nat) (bs : List Byte) :
    readRun m a n = .ok bs ↔ bs.length = n ∧ ∀ i, i < n → m.read (a + i) = bs[i]? := by
  induction n generalizing a bs with
  | zero => cases bs <;> simp [readRun]
  | succ n ih =>
    simp only [readRun, memRead]
    cases hm : m.read a with
    | none =>
      simp only [reduceCtorEq, false_iff, not_and, not_forall]
      intro hl
      refine ⟨0, by omega, ?_⟩
      cases bs with
      | nil => simp at hl
      | cons x xs => simp [hm]
    | some b =>
      cases hr : readRun m (a + 1) n with
      | error f =>
        simp only [reduceCtorEq, false_iff, not_and, not_forall]
        intro hl
        cases bs with
        | nil => simp at hl
        | cons x xs =>
          by_contra hcon
          simp only [not_exists, not_not] at hcon
          have := (ih (a + 1) xs).2 ⟨by simpa using hl, fun i hi => by
            have := hcon (i + 1) (by omega)
            simpa [Nat.add_assoc, Nat.add_comm 1] using this⟩
          simp [hr] at this
      | ok ys =>
        obtain ⟨hlen, hread⟩ := (ih (a + 1) ys).1 hr
        constructor
        · intro h
          cases h
          refine ⟨by simp [hlen], fun i hi => ?_⟩
          cases i with
          | zero => simpa using hm
          | succ i => simpa [Nat.add_assoc, Nat.add_comm 1] using hread i (by omega)
        · rintro ⟨hl, h⟩
          have hys : readRun m (a + 1) n = .ok bs.tail := (ih (a + 1) bs.tail).2
            ⟨by simp [hl], fun i hi => by simpa [Nat.add_assoc, Nat.add_comm 1] using h (i + 1) (by omega)⟩
          have h0 := h 0 (by omega)
          rw [hr] at hys
          cases hys
          cases bs with
          | nil => simp at hl
          | cons x xs => simp [hm] at h0; simp [h0]

/-- Reading a run faults only on a byte of it that was never written (rule R67). -/
theorem readRun_error {m : Mem} {n a : Nat} {f : Fault} (h : readRun m a n = .error f) :
    ∃ i, i < n ∧ m.read (a + i) = none ∧ f = .unwrittenInput (a + i) := by
  induction n generalizing a with
  | zero => simp [readRun] at h
  | succ n ih =>
    simp only [readRun, memRead] at h
    cases hm : m.read a with
    | none =>
      simp only [hm] at h
      cases h
      exact ⟨0, by omega, by simpa using hm, rfl⟩
    | some b =>
      simp only [hm] at h
      cases hr : readRun m (a + 1) n with
      | error g =>
        simp only [hr] at h
        cases h
        obtain ⟨i, hi, hn, rfl⟩ := ih hr
        exact ⟨i + 1, by omega, by rw [← hn]; congr 1; omega, by congr 1; omega⟩
      | ok ys => simp [hr] at h

end Sys2Proof.Machine
end

