-- ==== Sys2Proof/Laws/State.lean ====
section
/-! SUPPORT. One lemma for each field under each named update of State: a field is what the update wrote, or is
unchanged. No later proof unfolds a record update. -/

namespace Sys2Proof.Machine

section
variable (s : State)

/-! ### setFt -/

@[simp] theorem State.setFt_params (f : Table Nat) : (s.setFt f).params = s.params := rfl
@[simp] theorem State.setFt_seq (f : Table Nat) : (s.setFt f).seq = s.seq := rfl
@[simp] theorem State.setFt_err (f : Table Nat) : (s.setFt f).err = s.err := rfl
@[simp] theorem State.setFt_ilen (f : Table Nat) : (s.setFt f).ilen = s.ilen := rfl
@[simp] theorem State.setFt_ibuf (f : Table Nat) : (s.setFt f).ibuf = s.ibuf := rfl
@[simp] theorem State.setFt_obuf (f : Table Nat) : (s.setFt f).obuf = s.obuf := rfl
@[simp] theorem State.setFt_ft (f : Table Nat) : (s.setFt f).ft = f := rfl
@[simp] theorem State.setFt_nodes (f : Table Nat) : (s.setFt f).nodes = s.nodes := rfl
@[simp] theorem State.setFt_nleaf (f : Table Nat) : (s.setFt f).nleaf = s.nleaf := rfl
@[simp] theorem State.setFt_root (f : Table Nat) : (s.setFt f).root = s.root := rfl
@[simp] theorem State.setFt_pq (f : Table Nat) : (s.setFt f).pq = s.pq := rfl
@[simp] theorem State.setFt_ct (f : Table Nat) : (s.setFt f).ct = s.ct := rfl
@[simp] theorem State.setFt_rct (f : Table Nat) : (s.setFt f).rct = s.rct := rfl
@[simp] theorem State.setFt_bs (f : Table Nat) : (s.setFt f).bs = s.bs := rfl
@[simp] theorem State.setFt_pending (f : Table Nat) : (s.setFt f).pending = s.pending := rfl
@[simp] theorem State.setFt_replies (f : Table Nat) : (s.setFt f).replies = s.replies := rfl
@[simp] theorem State.setFt_draws (f : Table Nat) : (s.setFt f).draws = s.draws := rfl

/-! ### setTree -/

@[simp] theorem State.setTree_params (ns : List Node) (nl r : Nat) : (s.setTree ns nl r).params = s.params := rfl
@[simp] theorem State.setTree_seq (ns : List Node) (nl r : Nat) : (s.setTree ns nl r).seq = s.seq := rfl
@[simp] theorem State.setTree_err (ns : List Node) (nl r : Nat) : (s.setTree ns nl r).err = s.err := rfl
@[simp] theorem State.setTree_ilen (ns : List Node) (nl r : Nat) : (s.setTree ns nl r).ilen = s.ilen := rfl
@[simp] theorem State.setTree_ibuf (ns : List Node) (nl r : Nat) : (s.setTree ns nl r).ibuf = s.ibuf := rfl
@[simp] theorem State.setTree_obuf (ns : List Node) (nl r : Nat) : (s.setTree ns nl r).obuf = s.obuf := rfl
@[simp] theorem State.setTree_ft (ns : List Node) (nl r : Nat) : (s.setTree ns nl r).ft = s.ft := rfl
@[simp] theorem State.setTree_nodes (ns : List Node) (nl r : Nat) : (s.setTree ns nl r).nodes = ns := rfl
@[simp] theorem State.setTree_nleaf (ns : List Node) (nl r : Nat) : (s.setTree ns nl r).nleaf = nl := rfl
@[simp] theorem State.setTree_root (ns : List Node) (nl r : Nat) : (s.setTree ns nl r).root = r := rfl
@[simp] theorem State.setTree_pq (ns : List Node) (nl r : Nat) : (s.setTree ns nl r).pq = [] := rfl
@[simp] theorem State.setTree_ct (ns : List Node) (nl r : Nat) : (s.setTree ns nl r).ct = s.ct := rfl
@[simp] theorem State.setTree_rct (ns : List Node) (nl r : Nat) : (s.setTree ns nl r).rct = s.rct := rfl
@[simp] theorem State.setTree_bs (ns : List Node) (nl r : Nat) : (s.setTree ns nl r).bs = s.bs := rfl
@[simp] theorem State.setTree_pending (ns : List Node) (nl r : Nat) : (s.setTree ns nl r).pending = s.pending := rfl
@[simp] theorem State.setTree_replies (ns : List Node) (nl r : Nat) : (s.setTree ns nl r).replies = s.replies := rfl
@[simp] theorem State.setTree_draws (ns : List Node) (nl r : Nat) : (s.setTree ns nl r).draws = s.draws := rfl

/-! ### setCodes -/

@[simp] theorem State.setCodes_params (c : Table Bits) (r : List (Bits × Byte)) : (s.setCodes c r).params = s.params := rfl
@[simp] theorem State.setCodes_seq (c : Table Bits) (r : List (Bits × Byte)) : (s.setCodes c r).seq = s.seq := rfl
@[simp] theorem State.setCodes_err (c : Table Bits) (r : List (Bits × Byte)) : (s.setCodes c r).err = s.err := rfl
@[simp] theorem State.setCodes_ilen (c : Table Bits) (r : List (Bits × Byte)) : (s.setCodes c r).ilen = s.ilen := rfl
@[simp] theorem State.setCodes_ibuf (c : Table Bits) (r : List (Bits × Byte)) : (s.setCodes c r).ibuf = s.ibuf := rfl
@[simp] theorem State.setCodes_obuf (c : Table Bits) (r : List (Bits × Byte)) : (s.setCodes c r).obuf = s.obuf := rfl
@[simp] theorem State.setCodes_ft (c : Table Bits) (r : List (Bits × Byte)) : (s.setCodes c r).ft = s.ft := rfl
@[simp] theorem State.setCodes_nodes (c : Table Bits) (r : List (Bits × Byte)) : (s.setCodes c r).nodes = s.nodes := rfl
@[simp] theorem State.setCodes_nleaf (c : Table Bits) (r : List (Bits × Byte)) : (s.setCodes c r).nleaf = s.nleaf := rfl
@[simp] theorem State.setCodes_root (c : Table Bits) (r : List (Bits × Byte)) : (s.setCodes c r).root = s.root := rfl
@[simp] theorem State.setCodes_pq (c : Table Bits) (r : List (Bits × Byte)) : (s.setCodes c r).pq = s.pq := rfl
@[simp] theorem State.setCodes_ct (c : Table Bits) (r : List (Bits × Byte)) : (s.setCodes c r).ct = c := rfl
@[simp] theorem State.setCodes_rct (c : Table Bits) (r : List (Bits × Byte)) : (s.setCodes c r).rct = r := rfl
@[simp] theorem State.setCodes_bs (c : Table Bits) (r : List (Bits × Byte)) : (s.setCodes c r).bs = s.bs := rfl
@[simp] theorem State.setCodes_pending (c : Table Bits) (r : List (Bits × Byte)) : (s.setCodes c r).pending = s.pending := rfl
@[simp] theorem State.setCodes_replies (c : Table Bits) (r : List (Bits × Byte)) : (s.setCodes c r).replies = s.replies := rfl
@[simp] theorem State.setCodes_draws (c : Table Bits) (r : List (Bits × Byte)) : (s.setCodes c r).draws = s.draws := rfl

/-! ### setBs -/

@[simp] theorem State.setBs_params (x : Bits) : (s.setBs x).params = s.params := rfl
@[simp] theorem State.setBs_seq (x : Bits) : (s.setBs x).seq = s.seq := rfl
@[simp] theorem State.setBs_err (x : Bits) : (s.setBs x).err = s.err := rfl
@[simp] theorem State.setBs_ilen (x : Bits) : (s.setBs x).ilen = s.ilen := rfl
@[simp] theorem State.setBs_ibuf (x : Bits) : (s.setBs x).ibuf = s.ibuf := rfl
@[simp] theorem State.setBs_obuf (x : Bits) : (s.setBs x).obuf = s.obuf := rfl
@[simp] theorem State.setBs_ft (x : Bits) : (s.setBs x).ft = s.ft := rfl
@[simp] theorem State.setBs_nodes (x : Bits) : (s.setBs x).nodes = s.nodes := rfl
@[simp] theorem State.setBs_nleaf (x : Bits) : (s.setBs x).nleaf = s.nleaf := rfl
@[simp] theorem State.setBs_root (x : Bits) : (s.setBs x).root = s.root := rfl
@[simp] theorem State.setBs_pq (x : Bits) : (s.setBs x).pq = s.pq := rfl
@[simp] theorem State.setBs_ct (x : Bits) : (s.setBs x).ct = s.ct := rfl
@[simp] theorem State.setBs_rct (x : Bits) : (s.setBs x).rct = s.rct := rfl
@[simp] theorem State.setBs_bs (x : Bits) : (s.setBs x).bs = x := rfl
@[simp] theorem State.setBs_pending (x : Bits) : (s.setBs x).pending = s.pending := rfl
@[simp] theorem State.setBs_replies (x : Bits) : (s.setBs x).replies = s.replies := rfl
@[simp] theorem State.setBs_draws (x : Bits) : (s.setBs x).draws = s.draws := rfl

/-! ### setObuf -/

@[simp] theorem State.setObuf_params (o : List Byte) : (s.setObuf o).params = s.params := rfl
@[simp] theorem State.setObuf_seq (o : List Byte) : (s.setObuf o).seq = s.seq := rfl
@[simp] theorem State.setObuf_err (o : List Byte) : (s.setObuf o).err = s.err := rfl
@[simp] theorem State.setObuf_ilen (o : List Byte) : (s.setObuf o).ilen = s.ilen := rfl
@[simp] theorem State.setObuf_ibuf (o : List Byte) : (s.setObuf o).ibuf = s.ibuf := rfl
@[simp] theorem State.setObuf_obuf (o : List Byte) : (s.setObuf o).obuf = o := rfl
@[simp] theorem State.setObuf_ft (o : List Byte) : (s.setObuf o).ft = s.ft := rfl
@[simp] theorem State.setObuf_nodes (o : List Byte) : (s.setObuf o).nodes = s.nodes := rfl
@[simp] theorem State.setObuf_nleaf (o : List Byte) : (s.setObuf o).nleaf = s.nleaf := rfl
@[simp] theorem State.setObuf_root (o : List Byte) : (s.setObuf o).root = s.root := rfl
@[simp] theorem State.setObuf_pq (o : List Byte) : (s.setObuf o).pq = s.pq := rfl
@[simp] theorem State.setObuf_ct (o : List Byte) : (s.setObuf o).ct = s.ct := rfl
@[simp] theorem State.setObuf_rct (o : List Byte) : (s.setObuf o).rct = s.rct := rfl
@[simp] theorem State.setObuf_bs (o : List Byte) : (s.setObuf o).bs = s.bs := rfl
@[simp] theorem State.setObuf_pending (o : List Byte) : (s.setObuf o).pending = s.pending := rfl
@[simp] theorem State.setObuf_replies (o : List Byte) : (s.setObuf o).replies = s.replies := rfl
@[simp] theorem State.setObuf_draws (o : List Byte) : (s.setObuf o).draws = s.draws := rfl

/-! ### setIlen -/

@[simp] theorem State.setIlen_params (n : Nat) : (s.setIlen n).params = s.params := rfl
@[simp] theorem State.setIlen_seq (n : Nat) : (s.setIlen n).seq = s.seq := rfl
@[simp] theorem State.setIlen_err (n : Nat) : (s.setIlen n).err = s.err := rfl
@[simp] theorem State.setIlen_ilen (n : Nat) : (s.setIlen n).ilen = n := rfl
@[simp] theorem State.setIlen_ibuf (n : Nat) : (s.setIlen n).ibuf = s.ibuf := rfl
@[simp] theorem State.setIlen_obuf (n : Nat) : (s.setIlen n).obuf = s.obuf := rfl
@[simp] theorem State.setIlen_ft (n : Nat) : (s.setIlen n).ft = s.ft := rfl
@[simp] theorem State.setIlen_nodes (n : Nat) : (s.setIlen n).nodes = s.nodes := rfl
@[simp] theorem State.setIlen_nleaf (n : Nat) : (s.setIlen n).nleaf = s.nleaf := rfl
@[simp] theorem State.setIlen_root (n : Nat) : (s.setIlen n).root = s.root := rfl
@[simp] theorem State.setIlen_pq (n : Nat) : (s.setIlen n).pq = s.pq := rfl
@[simp] theorem State.setIlen_ct (n : Nat) : (s.setIlen n).ct = s.ct := rfl
@[simp] theorem State.setIlen_rct (n : Nat) : (s.setIlen n).rct = s.rct := rfl
@[simp] theorem State.setIlen_bs (n : Nat) : (s.setIlen n).bs = s.bs := rfl
@[simp] theorem State.setIlen_pending (n : Nat) : (s.setIlen n).pending = s.pending := rfl
@[simp] theorem State.setIlen_replies (n : Nat) : (s.setIlen n).replies = s.replies := rfl
@[simp] theorem State.setIlen_draws (n : Nat) : (s.setIlen n).draws = s.draws := rfl

/-! ### setIbuf -/

@[simp] theorem State.setIbuf_params (m : Mem) : (s.setIbuf m).params = s.params := rfl
@[simp] theorem State.setIbuf_seq (m : Mem) : (s.setIbuf m).seq = s.seq := rfl
@[simp] theorem State.setIbuf_err (m : Mem) : (s.setIbuf m).err = s.err := rfl
@[simp] theorem State.setIbuf_ilen (m : Mem) : (s.setIbuf m).ilen = s.ilen := rfl
@[simp] theorem State.setIbuf_ibuf (m : Mem) : (s.setIbuf m).ibuf = m := rfl
@[simp] theorem State.setIbuf_obuf (m : Mem) : (s.setIbuf m).obuf = s.obuf := rfl
@[simp] theorem State.setIbuf_ft (m : Mem) : (s.setIbuf m).ft = s.ft := rfl
@[simp] theorem State.setIbuf_nodes (m : Mem) : (s.setIbuf m).nodes = s.nodes := rfl
@[simp] theorem State.setIbuf_nleaf (m : Mem) : (s.setIbuf m).nleaf = s.nleaf := rfl
@[simp] theorem State.setIbuf_root (m : Mem) : (s.setIbuf m).root = s.root := rfl
@[simp] theorem State.setIbuf_pq (m : Mem) : (s.setIbuf m).pq = s.pq := rfl
@[simp] theorem State.setIbuf_ct (m : Mem) : (s.setIbuf m).ct = s.ct := rfl
@[simp] theorem State.setIbuf_rct (m : Mem) : (s.setIbuf m).rct = s.rct := rfl
@[simp] theorem State.setIbuf_bs (m : Mem) : (s.setIbuf m).bs = s.bs := rfl
@[simp] theorem State.setIbuf_pending (m : Mem) : (s.setIbuf m).pending = s.pending := rfl
@[simp] theorem State.setIbuf_replies (m : Mem) : (s.setIbuf m).replies = s.replies := rfl
@[simp] theorem State.setIbuf_draws (m : Mem) : (s.setIbuf m).draws = s.draws := rfl

/-! ### latch -/

@[simp] theorem State.latch_params (op : Byte) : (s.latch op).params = s.params := rfl
@[simp] theorem State.latch_seq (op : Byte) : (s.latch op).seq = .run op := rfl
@[simp] theorem State.latch_err (op : Byte) : (s.latch op).err = s.err := rfl
@[simp] theorem State.latch_ilen (op : Byte) : (s.latch op).ilen = s.ilen := rfl
@[simp] theorem State.latch_ibuf (op : Byte) : (s.latch op).ibuf = s.ibuf := rfl
@[simp] theorem State.latch_obuf (op : Byte) : (s.latch op).obuf = s.obuf := rfl
@[simp] theorem State.latch_ft (op : Byte) : (s.latch op).ft = s.ft := rfl
@[simp] theorem State.latch_nodes (op : Byte) : (s.latch op).nodes = s.nodes := rfl
@[simp] theorem State.latch_nleaf (op : Byte) : (s.latch op).nleaf = s.nleaf := rfl
@[simp] theorem State.latch_root (op : Byte) : (s.latch op).root = s.root := rfl
@[simp] theorem State.latch_pq (op : Byte) : (s.latch op).pq = s.pq := rfl
@[simp] theorem State.latch_ct (op : Byte) : (s.latch op).ct = s.ct := rfl
@[simp] theorem State.latch_rct (op : Byte) : (s.latch op).rct = s.rct := rfl
@[simp] theorem State.latch_bs (op : Byte) : (s.latch op).bs = s.bs := rfl
@[simp] theorem State.latch_pending (op : Byte) : (s.latch op).pending = s.pending := rfl
@[simp] theorem State.latch_replies (op : Byte) : (s.latch op).replies = s.replies := rfl
@[simp] theorem State.latch_draws (op : Byte) : (s.latch op).draws = s.draws := rfl

/-! ### setPending -/

@[simp] theorem State.setPending_params (l : List Arrival) : (s.setPending l).params = s.params := rfl
@[simp] theorem State.setPending_seq (l : List Arrival) : (s.setPending l).seq = s.seq := rfl
@[simp] theorem State.setPending_err (l : List Arrival) : (s.setPending l).err = s.err := rfl
@[simp] theorem State.setPending_ilen (l : List Arrival) : (s.setPending l).ilen = s.ilen := rfl
@[simp] theorem State.setPending_ibuf (l : List Arrival) : (s.setPending l).ibuf = s.ibuf := rfl
@[simp] theorem State.setPending_obuf (l : List Arrival) : (s.setPending l).obuf = s.obuf := rfl
@[simp] theorem State.setPending_ft (l : List Arrival) : (s.setPending l).ft = s.ft := rfl
@[simp] theorem State.setPending_nodes (l : List Arrival) : (s.setPending l).nodes = s.nodes := rfl
@[simp] theorem State.setPending_nleaf (l : List Arrival) : (s.setPending l).nleaf = s.nleaf := rfl
@[simp] theorem State.setPending_root (l : List Arrival) : (s.setPending l).root = s.root := rfl
@[simp] theorem State.setPending_pq (l : List Arrival) : (s.setPending l).pq = s.pq := rfl
@[simp] theorem State.setPending_ct (l : List Arrival) : (s.setPending l).ct = s.ct := rfl
@[simp] theorem State.setPending_rct (l : List Arrival) : (s.setPending l).rct = s.rct := rfl
@[simp] theorem State.setPending_bs (l : List Arrival) : (s.setPending l).bs = s.bs := rfl
@[simp] theorem State.setPending_pending (l : List Arrival) : (s.setPending l).pending = l := rfl
@[simp] theorem State.setPending_replies (l : List Arrival) : (s.setPending l).replies = s.replies := rfl
@[simp] theorem State.setPending_draws (l : List Arrival) : (s.setPending l).draws = s.draws := rfl

/-! ### reply -/

@[simp] theorem State.reply_params (v : Nat) : (s.reply v).params = s.params := rfl
@[simp] theorem State.reply_seq (v : Nat) : (s.reply v).seq = s.seq := rfl
@[simp] theorem State.reply_err (v : Nat) : (s.reply v).err = s.err := rfl
@[simp] theorem State.reply_ilen (v : Nat) : (s.reply v).ilen = s.ilen := rfl
@[simp] theorem State.reply_ibuf (v : Nat) : (s.reply v).ibuf = s.ibuf := rfl
@[simp] theorem State.reply_obuf (v : Nat) : (s.reply v).obuf = s.obuf := rfl
@[simp] theorem State.reply_ft (v : Nat) : (s.reply v).ft = s.ft := rfl
@[simp] theorem State.reply_nodes (v : Nat) : (s.reply v).nodes = s.nodes := rfl
@[simp] theorem State.reply_nleaf (v : Nat) : (s.reply v).nleaf = s.nleaf := rfl
@[simp] theorem State.reply_root (v : Nat) : (s.reply v).root = s.root := rfl
@[simp] theorem State.reply_pq (v : Nat) : (s.reply v).pq = s.pq := rfl
@[simp] theorem State.reply_ct (v : Nat) : (s.reply v).ct = s.ct := rfl
@[simp] theorem State.reply_rct (v : Nat) : (s.reply v).rct = s.rct := rfl
@[simp] theorem State.reply_bs (v : Nat) : (s.reply v).bs = s.bs := rfl
@[simp] theorem State.reply_pending (v : Nat) : (s.reply v).pending = s.pending := rfl
@[simp] theorem State.reply_replies (v : Nat) : (s.reply v).replies = v :: s.replies := rfl
@[simp] theorem State.reply_draws (v : Nat) : (s.reply v).draws = s.draws := rfl

/-! ### drawn -/

@[simp] theorem State.drawn_params : (s.drawn).params = s.params := rfl
@[simp] theorem State.drawn_seq : (s.drawn).seq = s.seq := rfl
@[simp] theorem State.drawn_err : (s.drawn).err = s.err := rfl
@[simp] theorem State.drawn_ilen : (s.drawn).ilen = s.ilen := rfl
@[simp] theorem State.drawn_ibuf : (s.drawn).ibuf = s.ibuf := rfl
@[simp] theorem State.drawn_obuf : (s.drawn).obuf = s.obuf := rfl
@[simp] theorem State.drawn_ft : (s.drawn).ft = s.ft := rfl
@[simp] theorem State.drawn_nodes : (s.drawn).nodes = s.nodes := rfl
@[simp] theorem State.drawn_nleaf : (s.drawn).nleaf = s.nleaf := rfl
@[simp] theorem State.drawn_root : (s.drawn).root = s.root := rfl
@[simp] theorem State.drawn_pq : (s.drawn).pq = s.pq := rfl
@[simp] theorem State.drawn_ct : (s.drawn).ct = s.ct := rfl
@[simp] theorem State.drawn_rct : (s.drawn).rct = s.rct := rfl
@[simp] theorem State.drawn_bs : (s.drawn).bs = s.bs := rfl
@[simp] theorem State.drawn_pending : (s.drawn).pending = s.pending := rfl
@[simp] theorem State.drawn_replies : (s.drawn).replies = s.replies := rfl
@[simp] theorem State.drawn_draws : (s.drawn).draws = s.draws + 1 := rfl

/-! ### endWith -/

@[simp] theorem State.endWith_params (e : ErrCode) : (s.endWith e).params = s.params := rfl
@[simp] theorem State.endWith_seq (e : ErrCode) : (s.endWith e).seq = .idle := rfl
@[simp] theorem State.endWith_err (e : ErrCode) : (s.endWith e).err = e := rfl
@[simp] theorem State.endWith_ilen (e : ErrCode) : (s.endWith e).ilen = s.ilen := rfl
@[simp] theorem State.endWith_ibuf (e : ErrCode) : (s.endWith e).ibuf = s.ibuf := rfl
@[simp] theorem State.endWith_obuf (e : ErrCode) : (s.endWith e).obuf = s.obuf := rfl
@[simp] theorem State.endWith_ft (e : ErrCode) : (s.endWith e).ft = s.ft := rfl
@[simp] theorem State.endWith_nodes (e : ErrCode) : (s.endWith e).nodes = s.nodes := rfl
@[simp] theorem State.endWith_nleaf (e : ErrCode) : (s.endWith e).nleaf = s.nleaf := rfl
@[simp] theorem State.endWith_root (e : ErrCode) : (s.endWith e).root = s.root := rfl
@[simp] theorem State.endWith_pq (e : ErrCode) : (s.endWith e).pq = s.pq := rfl
@[simp] theorem State.endWith_ct (e : ErrCode) : (s.endWith e).ct = s.ct := rfl
@[simp] theorem State.endWith_rct (e : ErrCode) : (s.endWith e).rct = s.rct := rfl
@[simp] theorem State.endWith_bs (e : ErrCode) : (s.endWith e).bs = s.bs := rfl
@[simp] theorem State.endWith_pending (e : ErrCode) : (s.endWith e).pending = s.pending := rfl
@[simp] theorem State.endWith_replies (e : ErrCode) : (s.endWith e).replies = s.replies := rfl
@[simp] theorem State.endWith_draws (e : ErrCode) : (s.endWith e).draws = s.draws := rfl

/-! ### afterReset: the reset values of rule R43, and what is not the core's state -/

@[simp] theorem State.afterReset_params : s.afterReset.params = s.params := rfl
@[simp] theorem State.afterReset_seq : s.afterReset.seq = .idle := rfl
@[simp] theorem State.afterReset_err : s.afterReset.err = .ok := rfl
@[simp] theorem State.afterReset_ilen : s.afterReset.ilen = 0 := rfl
@[simp] theorem State.afterReset_ibuf : s.afterReset.ibuf = [] := rfl
@[simp] theorem State.afterReset_obuf : s.afterReset.obuf = [] := rfl
@[simp] theorem State.afterReset_ft : s.afterReset.ft = Table.const 0 := rfl
@[simp] theorem State.afterReset_nodes : s.afterReset.nodes = [] := rfl
@[simp] theorem State.afterReset_nleaf : s.afterReset.nleaf = 0 := rfl
@[simp] theorem State.afterReset_root : s.afterReset.root = 0 := rfl
@[simp] theorem State.afterReset_pq : s.afterReset.pq = [] := rfl
@[simp] theorem State.afterReset_ct : s.afterReset.ct = Table.const [] := rfl
@[simp] theorem State.afterReset_rct : s.afterReset.rct = [] := rfl
@[simp] theorem State.afterReset_bs : s.afterReset.bs = [] := rfl
@[simp] theorem State.afterReset_pending : s.afterReset.pending = s.pending := rfl
@[simp] theorem State.afterReset_replies : s.afterReset.replies = s.replies := rfl
@[simp] theorem State.afterReset_draws : s.afterReset.draws = s.draws := rfl

/-! ### The length registers and the flags -/

@[simp] theorem State.endWith_busy (e : ErrCode) : (s.endWith e).busy = false := rfl
@[simp] theorem State.latch_busy (op : Byte) : (s.latch op).busy = true := rfl
@[simp] theorem State.setObuf_olen (o : List Byte) : (s.setObuf o).olen = o.length := rfl
@[simp] theorem State.setBs_blen (x : Bits) : (s.setBs x).blen = x.length := rfl
@[simp] theorem State.setTree_nnodes (ns : List Node) (nl r : Nat) : (s.setTree ns nl r).nnodes = ns.length := rfl

/-- A later result code replaces an earlier one: ERR is not sticky (rule R22). -/
@[simp] theorem State.endWith_endWith (e e' : ErrCode) : (s.endWith e).endWith e' = s.endWith e' := rfl

end

end Sys2Proof.Machine
end

