-- ==== Sys2Proof/Laws/Table.lean ====
section
/-! SUPPORT. The laws of tables (rules R30, R35): an entry reads as it was last written, another is unchanged, two
tables with the same entries are equal. -/

namespace Sys2Proof.Machine

section
variable {α : Type}

/-- A symbol is its upper and lower four bits. -/
theorem eq_of_row_place {a b : Byte} (hr : rowOf a = rowOf b) (hp : placeOf a = placeOf b) : a = b := by
  simp only [rowOf, placeOf, Fin.ext_iff, BitVec.val_toFin, BitVec.extractLsb'_toNat, Nat.shiftRight_eq_div_pow] at hr hp
  apply BitVec.eq_of_toNat_eq
  have ha := a.isLt
  have hb := b.isLt
  omega

/-- Every place of every row belongs to a symbol. -/
theorem exists_symbol (r p : Fin 16) : ∃ b : Byte, rowOf b = r ∧ placeOf b = p := by
  refine ⟨BitVec.ofNat 8 (16 * r + p), ?_, ?_⟩ <;>
  · have hr := r.isLt
    have hp := p.isLt
    simp only [rowOf, placeOf, Fin.ext_iff, BitVec.val_toFin, BitVec.extractLsb'_toNat, BitVec.toNat_ofNat,
      Nat.shiftRight_eq_div_pow]
    omega

@[simp] theorem Table.look_const (x : α) (b : Byte) : (Table.const x).look b = x := by
  simp [Table.look, Table.const]

@[simp] theorem Table.look_put_same (t : Table α) (b : Byte) (x : α) : (t.put b x).look b = x := by
  simp [Table.look, Table.put]

theorem Table.look_put_other (t : Table α) {b c : Byte} (x : α) (h : c ≠ b) : (t.put b x).look c = t.look c := by
  simp only [Table.look, Table.put, Fin.getElem_fin]
  by_cases hr : rowOf b = rowOf c
  · have hp : (placeOf b : Nat) ≠ placeOf c := fun hp => h (eq_of_row_place hr.symm (Fin.ext hp).symm)
    simp [hr, hp]
  · have hr' : (rowOf b : Nat) ≠ rowOf c := fun e => hr (Fin.ext e)
    simp [hr']

theorem Table.look_put (t : Table α) (b c : Byte) (x : α) :
    (t.put b x).look c = if c = b then x else t.look c := by
  by_cases h : c = b
  · subst h; simp
  · simp [h, Table.look_put_other t x h]

/-- Two tables with the same entries are equal. -/
theorem Table.ext_look {t u : Table α} (h : ∀ b, t.look b = u.look b) : t = u := by
  apply Vector.ext
  intro i hi
  apply Vector.ext
  intro j hj
  obtain ⟨b, hr, hp⟩ := exists_symbol ⟨i, hi⟩ ⟨j, hj⟩
  simpa [Table.look, hr, hp] using h b

end

/-- Every symbol value is among `allSymbols`. -/
@[simp] theorem mem_allSymbols (b : Byte) : b ∈ allSymbols :=
  List.mem_map.2 ⟨b.toNat, List.mem_range.2 b.isLt, by simp⟩

/-- The FT emptiness test of rule R115: every count is 0. -/
theorem ftEmpty_iff (f : Table Nat) : ftEmpty f = true ↔ ∀ b, f.look b = 0 := by
  simp only [ftEmpty, List.all_eq_true, decide_eq_true_eq]
  constructor
  · intro h b
    refine h f[rowOf b] ?_ _ ?_
    · exact Vector.mem_toList_iff.2 (Vector.getElem_mem _)
    · exact Vector.mem_toList_iff.2 (Vector.getElem_mem _)
  · intro h row hrow n hn
    obtain ⟨i, hi, rfl⟩ := Vector.getElem_of_mem (Vector.mem_toList_iff.1 hrow)
    obtain ⟨j, hj, rfl⟩ := Vector.getElem_of_mem (Vector.mem_toList_iff.1 hn)
    obtain ⟨b, hr, hp⟩ := exists_symbol ⟨i, hi⟩ ⟨j, hj⟩
    simpa [Table.look, hr, hp] using h b

@[simp] theorem ftEmpty_const : ftEmpty (Table.const 0) = true := (ftEmpty_iff _).2 fun b => Table.look_const 0 b

end Sys2Proof.Machine
end

