-- ==== Sys2Proof/Laws/Ops.lean ====
section
/-! SUPPORT. What the shared operations can answer, said once: the end of a command, the chaining of micro steps,
the body of each micro command, the packed format's lengths, and the reverse table. -/

namespace Sys2Proof.Machine

/-! ### The end of a command (rules R15, R22, R191) -/

/-- A command that completes has ended with a result code and SEQ = IDLE. -/
theorem StepEnd.finish_next {m : StepEnd} {t : State} (h : m.finish = .next t) :
    (∃ s, m = .ok s ∧ t = s.endWith .ok) ∨ ∃ e s, m = .fail e s ∧ t = s.endWith e := by
  cases m with
  | ok s => cases h; exact .inl ⟨s, rfl, rfl⟩
  | fail e s => cases h; exact .inr ⟨e, s, rfl, rfl⟩
  | fault f => cases h

/-- A command is never refused. -/
theorem StepEnd.finish_not_refused (m : StepEnd) (r : Refusal) : m.finish ≠ .refused r := by
  cases m <;> simp [StepEnd.finish]

/-- A command faults exactly when its body does. -/
theorem StepEnd.finish_fault {m : StepEnd} {f : Fault} : m.finish = .fault f ↔ m = .fault f := by
  cases m <;> simp [StepEnd.finish]

/-- Where two micro steps end (rule R170): in the second, or in the first one's failure or fault. -/
theorem StepEnd.andThen_cases (m : StepEnd) (g : State → StepEnd) :
    (∃ s, m = .ok s ∧ m.andThen g = g s) ∨ (∃ e s, m = .fail e s ∧ m.andThen g = .fail e s) ∨
      ∃ f, m = .fault f ∧ m.andThen g = .fault f := by
  cases m with
  | ok s => exact .inl ⟨s, rfl, rfl⟩
  | fail e s => exact .inr (.inl ⟨e, s, rfl, rfl⟩)
  | fault f => exact .inr (.inr ⟨f, rfl, rfl⟩)

@[simp] theorem StepEnd.andThen_ok (s : State) (g : State → StepEnd) : (StepEnd.ok s).andThen g = g s := rfl
@[simp] theorem StepEnd.andThen_fail (e : ErrCode) (s : State) (g : State → StepEnd) :
    (StepEnd.fail e s).andThen g = .fail e s := rfl
@[simp] theorem StepEnd.andThen_fault (f : Fault) (g : State → StepEnd) : (StepEnd.fault f).andThen g = .fault f := rfl

/-! ### The bodies of the micro commands -/

/-- What TALLY's body can answer (rule R101). -/
theorem tallyBody_cases (s : State) :
    (s.params.ibufcap < s.ilen ∧ tallyBody s = .fail .capacityExceeded (s.setFt (Table.const 0))) ∨
    (s.ilen ≤ s.params.ibufcap ∧ ∃ bs, readRun s.ibuf 0 s.ilen = .ok bs ∧ tallyBody s = .ok (s.setFt (countAll bs))) ∨
    (s.ilen ≤ s.params.ibufcap ∧ ∃ f, readRun s.ibuf 0 s.ilen = .error f ∧ tallyBody s = .fault f) := by
  unfold tallyBody
  split
  · next h => exact .inl ⟨h, rfl⟩
  · next h =>
    split
    · next f hf => exact .inr (.inr ⟨by omega, f, hf, rfl⟩)
    · next bs hb => exact .inr (.inl ⟨by omega, bs, hb, rfl⟩)

/-- What BUILD's body can answer (rule R115). -/
theorem buildBody_cases (s : State) :
    (ftEmpty s.ft = true ∧ buildBody s = .fail .emptyInput (s.setTree [] 0 0)) ∨
    (ftEmpty s.ft = false ∧
      buildBody s = .ok (s.setTree (buildTree s.ft).1 (buildTree s.ft).2.1 (buildTree s.ft).2.2)) := by
  unfold buildBody
  cases h : ftEmpty s.ft <;> simp

/-- What GEN's body can answer (rule R131). -/
theorem genBody_cases (s : State) :
    (∃ l, treeCodes s.nodes s.root = some l ∧ genBody s = .ok (s.setCodes (codesOf l).ct (codesOf l).rct)) ∨
    (treeCodes s.nodes s.root = none ∧ genBody s = .fault .brokenTree) := by
  unfold genBody
  cases h : treeCodes s.nodes s.root <;> simp

/-- SUBST's loop only reads bytes, adds codes and stops at BSCAP; it fails with codes 4 and 5 (rules R142, R188). -/
theorem substLoop_cases (m : Mem) (ct : Table Bits) (cap n i : Nat) (x : Bits) (hx : x.length ≤ cap) :
    (∃ y, substLoop m ct cap n i x = .ok y ∧ y.length ≤ cap) ∨
    substLoop m ct cap n i x = .error (.err .unencodableSymbol) ∨
    substLoop m ct cap n i x = .error (.err .capacityExceeded) ∨
    ∃ a, i ≤ a ∧ a < i + n ∧ m.read a = none ∧ substLoop m ct cap n i x = .error (.fault (.unwrittenInput a)) := by
  induction n generalizing i x with
  | zero => exact .inl ⟨x, rfl, hx⟩
  | succ n ih =>
    simp only [substLoop, memRead]
    cases hm : m.read i with
    | none => exact .inr (.inr (.inr ⟨i, le_rfl, by omega, hm, rfl⟩))
    | some b =>
      dsimp only
      split
      · exact .inr (.inl rfl)
      · split
        · exact .inr (.inr (.inl rfl))
        · next hfit =>
          rcases ih (i + 1) (x ++ ct.look b) (by simp only [List.length_append]; omega) with h | h | h | ⟨a, h1, h2, h3, h4⟩
          · exact .inl h
          · exact .inr (.inl h)
          · exact .inr (.inr (.inl h))
          · exact .inr (.inr (.inr ⟨a, by omega, by omega, h3, h4⟩))

/-- What SUBST's body can answer (rules R141, R142). -/
theorem substBody_cases (s : State) :
    (∃ y, y.length ≤ s.params.bscap ∧ substBody s = .ok (s.setBs y)) ∨
    substBody s = .fail .unencodableSymbol (s.setBs []) ∨
    substBody s = .fail .capacityExceeded (s.setBs []) ∨
    ∃ a, a < s.ilen ∧ s.ilen ≤ s.params.ibufcap ∧ s.ibuf.read a = none ∧ substBody s = .fault (.unwrittenInput a) := by
  unfold substBody
  split
  · exact .inr (.inr (.inl rfl))
  · rcases substLoop_cases s.ibuf s.ct s.params.bscap s.ilen 0 [] (by simp) with ⟨y, h, hy⟩ | h | h | ⟨a, -, h2, h3, h4⟩
    · exact .inl ⟨y, hy, by simp [h]⟩
    · exact .inr (.inl (by simp [h]))
    · exact .inr (.inr (.inl (by simp [h])))
    · exact .inr (.inr (.inr ⟨a, by omega, by omega, h3, by simp [h4]⟩))

/-- What PACK's body can answer (rule R145). -/
theorem packBody_cases (s : State) :
    ((s.bs = [] ∨ 1 + payloadLen s.bs.length ≤ s.params.obufcap) ∧ packBody s = .ok (s.setObuf (packed s.bs))) ∨
    (s.bs ≠ [] ∧ s.params.obufcap < 1 + payloadLen s.bs.length ∧
      packBody s = .fail .capacityExceeded (s.setObuf [])) := by
  unfold packBody
  split
  · next h => exact .inl ⟨.inl h, rfl⟩
  · next h =>
    split
    · next h' => exact .inr ⟨h, h', rfl⟩
    · next h' => exact .inl ⟨.inr (by omega), rfl⟩

/-- What UNPACK's body can answer (rules R153, R157). -/
theorem unpackBody_cases (s : State) :
    (∃ y, y.length ≤ s.params.bscap ∧ unpackBody s = .ok (s.setBs y)) ∨
    unpackBody s = .fail .malformedHeader (s.setBs []) ∨
    unpackBody s = .fail .capacityExceeded (s.setBs []) ∨
    ∃ a, a < s.ilen ∧ s.ilen ≤ s.params.ibufcap ∧ s.ibuf.read a = none ∧ unpackBody s = .fault (.unwrittenInput a) := by
  unfold unpackBody
  split
  · exact .inr (.inr (.inl rfl))
  split
  · exact .inr (.inl rfl)
  next hcap h0 =>
  simp only [memRead]
  cases hm : s.ibuf.read 0 with
  | none => exact .inr (.inr (.inr ⟨0, by omega, by omega, hm, rfl⟩))
  | some h =>
    simp only [unpackHeader, unpackPayload, unpackedBits]
    split
    · exact .inr (.inl rfl)
    split
    · split
      · exact .inl ⟨[], by simp, rfl⟩
      · exact .inr (.inl rfl)
    next hh h1 =>
    split
    · exact .inr (.inr (.inl rfl))
    next hfit =>
    cases hr : readRun s.ibuf 1 ((8 * (s.ilen - 1) - h.toNat + 7) / 8) with
    | ok bytes => exact .inl ⟨_, by simp only [List.length_take]; omega, rfl⟩
    | error f =>
      obtain ⟨i, hi, hn, rfl⟩ := readRun_error hr
      exact .inr (.inr (.inr ⟨1 + i, by omega, by omega, hn, rfl⟩))

/-- MATCH's loop writes at most OBUFCAP symbols; it fails with codes 3 and 5 (rules R161, R188). -/
theorem matchLoop_cases (r : List (Bits × Byte)) (cap : Nat) (x acc : Bits) (out : List Byte) (ho : out.length ≤ cap) :
    (∃ y, matchLoop r cap x acc out = .ok y ∧ y.length ≤ cap) ∨
    matchLoop r cap x acc out = .error .truncatedStream ∨ matchLoop r cap x acc out = .error .capacityExceeded := by
  induction x generalizing acc out with
  | nil =>
    simp only [matchLoop]
    split
    · exact .inl ⟨out, rfl, ho⟩
    · exact .inr (.inl rfl)
  | cons b rest ih =>
    simp only [matchLoop]
    cases rctLook r (acc ++ [b]) with
    | none => exact ih _ _ ho
    | some y =>
      dsimp only
      split
      · exact .inr (.inr rfl)
      · exact ih _ _ (by simp only [List.length_append, List.length_singleton]; omega)

/-- What MATCH's body can answer (rules R161, R164, R165). -/
theorem matchBody_cases (s : State) :
    (∃ y, y.length ≤ s.params.obufcap ∧ matchBody s = .ok (s.setObuf y)) ∨
    matchBody s = .fail .truncatedStream (s.setObuf []) ∨ matchBody s = .fail .capacityExceeded (s.setObuf []) := by
  unfold matchBody
  rcases matchLoop_cases s.rct s.params.obufcap s.bs [] [] (by simp) with ⟨y, h, hy⟩ | h | h
  · exact .inl ⟨y, hy, by simp [h]⟩
  · exact .inr (.inl (by simp [h]))
  · exact .inr (.inr (by simp [h]))

/-! ### The packed format (rules R62, R87, R146, R150) -/

@[simp] theorem bitsOf_length (v : Byte) : (bitsOf v).length = 8 := by simp [bitsOf]

/-- The padding length is 1..8 (rule R146). -/
theorem padLen_bounds (n : Nat) : 1 ≤ padLen n ∧ padLen n ≤ 8 := by unfold padLen; omega

/-- Padding makes the length a multiple of 8 (rule R146). -/
theorem padLen_dvd (n : Nat) : (n + padLen n) % 8 = 0 := by unfold padLen; omega

/-- The number of payload bytes (rule R150). -/
theorem payloadLen_eq (n : Nat) : payloadLen n = 1 + n / 8 := by unfold payloadLen padLen; omega

/-- The packed length (rule R150). -/
theorem packed_length (x : Bits) : (packed x).length = packedLen x.length := by
  unfold packed packedLen
  by_cases h : x = []
  · simp [h]
  · have : x.length ≠ 0 := fun e => h (List.length_eq_zero_iff.1 e)
    simp [h, Nat.add_comm]

/-! ### The reverse table (rule R37) -/

@[simp] theorem rctLook_nil (c : Bits) : rctLook [] c = none := rfl

/-- A lookup answers an entry of the table. -/
theorem mem_of_rctLook {r : List (Bits × Byte)} {c : Bits} {b : Byte} (h : rctLook r c = some b) : (c, b) ∈ r := by
  induction r with
  | nil => cases h
  | cons e rest ih =>
    simp only [rctLook] at h
    split at h
    · next he => cases h; exact List.mem_cons.2 (.inl (by rw [← he]))
    · exact List.mem_cons_of_mem _ (ih h)

/-- A lookup in two tables, one after the other. -/
theorem rctLook_append (r q : List (Bits × Byte)) (c : Bits) :
    rctLook (r ++ q) c = (rctLook r c).or (rctLook q c) := by
  induction r with
  | nil => simp
  | cons e rest ih =>
    simp only [List.cons_append, rctLook]
    split <;> simp_all

/-- What a lookup answers after an assignment (rule R131's assign). -/
theorem rctLook_rctAssign (r : List (Bits × Byte)) (p c : Bits) (b : Byte) :
    rctLook (rctAssign r p b) c = if c = p then some b else rctLook r c := by
  have hf : ∀ q : List (Bits × Byte), rctLook (q.filter (fun e => decide (e.1 ≠ p))) c = if c = p then none else rctLook q c := by
    intro q
    induction q with
    | nil => simp
    | cons e rest ih =>
      by_cases he : e.1 = p
      · rw [List.filter_cons_of_neg (by simp [he]), ih]
        split
        · rfl
        · next hc => rw [rctLook, if_neg fun h => hc (h.symm.trans he)]
      · rw [List.filter_cons_of_pos (by simp [he]), rctLook, rctLook, ih]
        by_cases hec : e.1 = c
        · simp [hec, show ¬ c = p from fun h => he (hec.trans h)]
        · simp [hec]
  rw [rctAssign, rctLook_append, hf]
  by_cases hc : c = p
  · simp [hc, rctLook]
  · have hc' : ¬ p = c := fun h => hc h.symm
    cases rctLook r c <;> simp [hc, rctLook, hc']

end Sys2Proof.Machine
end

