-- ==== Sys2Proof/Laws/PerInstr.lean ====
section
/-! SUPPORT. Statements about each command as syntax, one lemma per constructor: its byte has the form of rule R80,
the decoder reads it back from its byte and from the opcode table's number for it (rule R81), and it is well formed
(rule R82). -/

namespace Sys2Proof.Laws.Encoding

/-- The encoding of the command `i` (rules R80 to R82). -/
def Statement (i : Instr) : Prop :=
  i.wf = true ∧ formatC (encodeInstr i) = true ∧ decodeByte (encodeInstr i) = .command i ∧
    decodeTableWord 8 (encodeInstr i).toNat = some i

theorem tally : Statement .tally := by unfold Statement; decide
theorem build : Statement .build := by unfold Statement; decide
theorem gen : Statement .gen := by unfold Statement; decide
theorem subst : Statement .subst := by unfold Statement; decide
theorem pack : Statement .pack := by unfold Statement; decide
theorem unpack : Statement .unpack := by unfold Statement; decide
theorem pmatch : Statement .pmatch := by unfold Statement; decide
theorem encode : Statement .encode := by unfold Statement; decide
theorem decode : Statement .decode := by unfold Statement; decide
theorem clr : Statement .clr := by unfold Statement; decide

end Sys2Proof.Laws.Encoding
end

