-- ==== Sys2Proof/Laws/Step.lean ====
section
/-! SUPPORT. What a step and a host access can answer, said once (rules R27, R28, R200, R207). -/

namespace Sys2Proof.Machine

/-- A step with SEQ = IDLE. -/
theorem step_of_idle {s : State} (h : s.seq = .idle) : step s = stepIdle s := by simp [step, h]

/-- A step with SEQ = RUN. -/
theorem step_of_run {s : State} {op : Byte} (h : s.seq = .run op) : step s = stepRunning op s := by simp [step, h]

/-- With no early access to come, a step with SEQ = RUN runs what is latched. -/
theorem stepRunning_of_noEarly {s : State} (op : Byte) (h : NoEarlyAccess s) : stepRunning op s = runLatched op s := by
  unfold stepRunning
  cases hp : s.pending with
  | nil => rfl
  | cons a rest => simp [h a rest hp]

/-- A step waits, makes a host access, or runs the latched value. -/
theorem step_cases (s : State) :
    (s.seq = .idle ∧ s.pending = [] ∧ step s = .next s) ∨
    (∃ a rest, s.seq = .idle ∧ s.pending = a :: rest ∧ step s = hostAccess a.access (s.setPending rest)) ∨
    (∃ op a rest, s.seq = .run op ∧ s.pending = a :: rest ∧ a.early = true ∧
      step s = hostAccessBusy a.access (s.setPending rest)) ∨
    (∃ op, s.seq = .run op ∧ step s = runLatched op s) := by
  cases hs : s.seq with
  | idle =>
    rw [step_of_idle hs, stepIdle]
    cases hp : s.pending with
    | nil => exact .inl ⟨rfl, rfl, rfl⟩
    | cons a rest => exact .inr (.inl ⟨a, rest, rfl, rfl, rfl⟩)
  | run op =>
    rw [step_of_run hs, stepRunning]
    cases hp : s.pending with
    | nil => exact .inr (.inr (.inr ⟨op, rfl, rfl⟩))
    | cons a rest =>
      cases he : a.early with
      | false => exact .inr (.inr (.inr ⟨op, rfl, by simp [he]⟩))
      | true => exact .inr (.inr (.inl ⟨op, a, rest, rfl, rfl, he, by simp [he]⟩))

/-- The input as TALLY reads it (rule R101). -/
theorem readRun_of_inputIs {s : State} {bs : List Byte} (h : InputIs s bs) : readRun s.ibuf 0 s.ilen = .ok bs :=
  (readRun_ok_iff _ _ _ _).2 ⟨h.1.symm, fun i hi => by simpa using h.2 i (h.1 ▸ hi)⟩

/-- After `dropWhile` on the early ones no access is early. -/
theorem noEarly_placeCommand (op : Byte) (s : State) : NoEarlyAccess (placeCommand op s) := by
  intro a rest h
  have h' : s.pending.dropWhile (·.early) = a :: rest := h
  have := List.head?_dropWhile_not (·.early) s.pending
  rw [h'] at this
  simpa using this

/-- A host read of a register changes nothing but what the host has read (rule R66). -/
theorem hostReadReg_cases (r : HostReg) (s : State) :
    ∃ v, hostReadReg r s = s.reply v ∨ hostReadReg r s = (s.reply v).drawn := by
  cases r <;> exact ⟨_, by first | exact .inl rfl | exact .inr rfl⟩

/-- A host read of OBUF changes nothing but what the host has read (rule R66). -/
theorem hostReadObuf_cases (a : Nat) (s : State) :
    ∃ v, hostReadObuf a s = s.reply v ∨ hostReadObuf a s = (s.reply v).drawn := by
  unfold hostReadObuf
  split
  · exact ⟨_, .inl rfl⟩
  · exact ⟨_, .inr rfl⟩

/-- An access while idle that completes: a read, a write of CMD, ILEN or IBUF, an ignored write, or reset. -/
theorem hostAccess_next {a : HostAccess} {s t : State} (h : hostAccess a s = .next t) :
    (∃ v, t = s.reply v ∨ t = (s.reply v).drawn) ∨ (∃ op, t = s.latch op) ∨
    (∃ n, n < 2 ^ s.params.lenw ∧ t = s.setIlen n) ∨
    (∃ c b, c < s.params.ibufcap ∧ t = s.setIbuf (s.ibuf.write c b)) ∨ t = s ∨ t = s.afterReset := by
  cases a with
  | readReg off =>
    simp only [hostAccess] at h
    split at h
    · cases h; exact .inl (hostReadReg_cases _ s)
    · cases h
  | writeReg off v =>
    simp only [hostAccess] at h
    split at h
    · next r _ =>
      cases r with
      | cmd =>
        simp only [hostWriteReg] at h
        split at h <;> cases h
        exact .inr (.inl ⟨_, rfl⟩)
      | ilen =>
        simp only [hostWriteReg] at h
        split at h
        · next hv => cases h; exact .inr (.inr (.inl ⟨v, hv, rfl⟩))
        · cases h
      | status => cases h; exact .inr (.inr (.inr (.inr (.inl rfl))))
      | olen => cases h; exact .inr (.inr (.inr (.inr (.inl rfl))))
      | reserved => cases h; exact .inr (.inr (.inr (.inr (.inl rfl))))
    · cases h
  | writeIbuf c b =>
    simp only [hostAccess, hostWriteIbuf] at h
    split at h
    · next hc => cases h; exact .inr (.inr (.inr (.inl ⟨c, b, hc, rfl⟩)))
    · cases h; exact .inr (.inr (.inr (.inr (.inl rfl))))
  | readIbuf c => cases h
  | readObuf c => cases h; exact .inl (hostReadObuf_cases c s)
  | writeObuf c b => cases h
  | reset => cases h; exact .inr (.inr (.inr (.inr (.inr rfl))))

/-- An access while busy that completes: a STATUS read, or reset (rules R200, R207). -/
theorem hostAccessBusy_next {a : HostAccess} {s t : State} (h : hostAccessBusy a s = .next t) :
    t = s.reply s.status.toNat ∨ (a = .reset ∧ t = s.afterReset) := by
  cases a with
  | readReg off =>
    simp only [hostAccessBusy] at h
    split at h <;> cases h
    exact .inl rfl
  | reset => cases h; exact .inr ⟨rfl, rfl⟩
  | writeReg off v => cases h
  | writeIbuf c b => cases h
  | readIbuf c => cases h
  | readObuf c => cases h
  | writeObuf c b => cases h

end Sys2Proof.Machine
end

