-- ==== Sys2Proof/Tests/Slice0.lean ====
section
/-! SUPPORT. Tests from the spec's own vectors (95_test_vectors.md) and, for every statement with hypotheses, a
concrete state and operands that meet them together. -/

namespace Sys2Proof.Tests

open Sys2Proof.Machine

/-! ### Helpers -/

/-- Small capacities: IBUFCAP 4, OBUFCAP 4, BSCAP 8, CNTW 3, LENW 4. -/
def smallCaps : Params := { ibufcap := 4, obufcap := 4, bscap := 8, cntw := 3, lenw := 4 }

/-- The reset state of the small instance with `bs` loaded (rule R91's LOAD). -/
def loaded (bs : List Byte) : State :=
  { State.resetWith smallCaps with ibuf := bs.zipIdx.map (fun p => (p.2, p.1)), ilen := bs.length }

/-- The reset state at the default capacities with `bs` loaded. -/
def loadedBig (bs : List Byte) : State :=
  { State.reset with ibuf := bs.zipIdx.map (fun p => (p.2, p.1)), ilen := bs.length }

/-- The text "abracadabra". -/
def abra : List Byte := [0x61, 0x62, 0x72, 0x61, 0x63, 0x61, 0x64, 0x61, 0x62, 0x72, 0x61]

/-- The state a command leaves; the state before where it stops. -/
def after (i : Instr) (s : State) : State :=
  match exec i s with
  | .next t => t
  | .fault _ => s
  | .refused _ => s

/-- The command completes. -/
def completes (i : Instr) (s : State) : Bool :=
  match exec i s with
  | .next _ => true
  | .fault _ => false
  | .refused _ => false

theorem exec_eq_after {i : Instr} {s : State} (h : completes i s = true) : exec i s = .next (after i s) := by
  unfold completes at h
  unfold after
  cases he : exec i s with
  | next t => rfl
  | fault f => simp [he] at h
  | refused r => simp [he] at h

/-- The tables of "ab" (V-G3): a = "0", b = "1". -/
def abCodes : Table Bits := ((Table.const []).put 0x61 [false]).put 0x62 [true]
/-- Their inverse. -/
def abRct : List (Bits × Byte) := [([false], 0x61), ([true], 0x62)]
/-- The tree of "ab" (V-B3). -/
def abTree : List Node := [leafNode 0x61 1, leafNode 0x62 1, innerNode 2 0 1]
/-- The small instance holding the tree and the tables of "ab", and the text `bs`. -/
def abState (bs : List Byte) : State := ((loaded bs).setTree abTree 2 2).setCodes abCodes abRct

theorem abCodes_look (b : Byte) :
    abCodes.look b = if b = 0x62 then [true] else if b = 0x61 then [false] else [] := by
  simp [abCodes, Table.look_put]

theorem abCodes_prefixFree : PrefixFree abCodes := by
  intro a b hab ha hb
  rw [abCodes_look] at ha hb ⊢
  rw [abCodes_look]
  split at ha
  · split at hb
    · simp_all
    · split at hb <;> simp_all
  · split at ha
    · split at hb <;> simp_all
    · simp_all

theorem abCodes_inverse : InverseTables abCodes abRct := by
  intro c b
  rw [abCodes_look]
  simp only [rctLook, abRct]
  by_cases h0 : c = [false]
  · subst h0
    by_cases hb : b = 0x61 <;> by_cases hb' : b = 0x62 <;> simp_all [eq_comm]
  · by_cases h1 : c = [true]
    · subst h1
      by_cases hb : b = 0x61 <;> by_cases hb' : b = 0x62 <;> simp_all [eq_comm]
    · have e0 : ¬ [false] = c := fun h => h0 h.symm
      have e1 : ¬ [true] = c := fun h => h1 h.symm
      simp only [e0, e1, if_false, reduceCtorEq, false_iff, not_and]
      intro hc
      split
      · exact e1
      · split
        · exact e0
        · exact fun h => hc h.symm

theorem ab_allCoded : AllCoded abCodes [0x61, 0x62] := by
  intro b hb
  rw [abCodes_look]
  simp only [List.mem_cons, List.not_mem_nil, or_false] at hb
  rcases hb with rfl | rfl <;> decide

/-- A text of at most four bytes loaded in the small instance is the input. -/
theorem loaded_inputIs_ab : InputIs (loaded [0x61, 0x62]) [0x61, 0x62] := by
  unfold InputIs
  decide

/-! ### WellFormed: each check refuses an ill-formed term -/

theorem test_params_default_wf : Params.default.wf = true := by decide
theorem test_params_ibufcap_zero : Params.wf { smallCaps with ibufcap := 0 } = false := by decide
theorem test_params_obufcap_zero : Params.wf { smallCaps with obufcap := 0 } = false := by decide
theorem test_params_bscap_zero : Params.wf { smallCaps with bscap := 0 } = false := by decide
theorem test_params_count_too_narrow : Params.countsFit { smallCaps with cntw := 2 } = false := by decide
theorem test_params_length_too_narrow : Params.lengthsFit { smallCaps with lenw := 3 } = false := by decide
theorem test_params_narrow_not_wf : Params.wf { smallCaps with cntw := 2 } = false ∧
    Params.wf { smallCaps with lenw := 3 } = false := by decide
/-- Rule R80: bits 7:4 must be 0 (the value 0x81). -/
theorem test_formatC_refuses_grp : formatC 0x81#8 = false := by decide

/-! ### Decoding: each word of rule R81, bit by bit (grp then op), and reserved neighbours (V-X1, V-X2) -/

theorem test_decode_words :
    decodeByte 0b00000001#8 = .command .tally ∧ decodeByte 0b00000010#8 = .command .build ∧
    decodeByte 0b00000011#8 = .command .gen ∧ decodeByte 0b00000100#8 = .command .subst ∧
    decodeByte 0b00000101#8 = .command .pack ∧ decodeByte 0b00000110#8 = .command .unpack ∧
    decodeByte 0b00000111#8 = .command .pmatch ∧ decodeByte 0b00001000#8 = .command .encode ∧
    decodeByte 0b00001001#8 = .command .decode ∧ decodeByte 0b00001111#8 = .command .clr := by decide

theorem test_decode_reserved : ∀ v ∈ [0x00#8, 0x0A#8, 0x0E#8, 0x10#8, 0x80#8, 0xFF#8, 0x3C#8],
    decodeByte v = .reserved v := by decide

/-! ### One step of each command, from 95_test_vectors.md -/

/-- V-T3: IBUF = 00 FF 00. -/
theorem test_tally_extremes : (after .tally (loaded [0x00, 0xFF, 0x00])).ft.look 0x00 = 2 ∧
    (after .tally (loaded [0x00, 0xFF, 0x00])).ft.look 0xFF = 1 := by decide +kernel
/-- V-T6: ILEN = IBUFCAP + 1 gives code 5 and the empty table. -/
theorem test_tally_capacity : (after .tally { loaded [] with ilen := 5, ft := Table.const 7 }).err = .capacityExceeded ∧
    ftEmpty (after .tally { loaded [] with ilen := 5, ft := Table.const 7 }).ft = true := by decide +kernel
/-- V-B6: "aabc": a tie between a leaf and an internal node. -/
theorem test_build_leaf_before_inner : buildTree (countAll [0x61, 0x61, 0x62, 0x63]) =
    ([leafNode 0x61 2, leafNode 0x62 1, leafNode 0x63 1, innerNode 2 1 2, innerNode 4 0 3], 3, 4) := by decide +kernel
/-- V-B12: "abracadabra". -/
theorem test_build_abra : buildTree (countAll abra) =
    ([leafNode 0x61 5, leafNode 0x62 2, leafNode 0x63 1, leafNode 0x64 1, leafNode 0x72 2,
      innerNode 2 2 3, innerNode 4 1 4, innerNode 6 5 6, innerNode 11 0 7], 5, 8) := by decide +kernel
/-- V-G2: the root-is-leaf special case. -/
theorem test_gen_lone_leaf : treeCodes [leafNode 0x61 4] 0 = some [(0x61, [false])] := by decide
/-- V-G5: "abc": a = "10", b = "11", c = "0". -/
theorem test_gen_abc :
    (treeCodes [leafNode 0x61 1, leafNode 0x62 1, leafNode 0x63 1, innerNode 2 0 1, innerNode 3 2 3] 4) =
      some [(0x63, [false]), (0x61, [true, false]), (0x62, [true, true])] := by decide
/-- V-U2: CT of V-G3, IBUF = "ba": BS = "10". -/
theorem test_subst_ba : (after .subst (abState [0x62, 0x61])).bs = [true, false] := by decide +kernel
/-- V-U6: CT of V-G3, IBUF = "abc": code 4, BLEN = 0. -/
theorem test_subst_unencodable : (after .subst (abState [0x61, 0x62, 0x63])).err = .unencodableSymbol ∧
    (after .subst (abState [0x61, 0x62, 0x63])).blen = 0 := by decide +kernel
/-- V-P4: L = 8: a whole byte of padding. -/
theorem test_pack_full_padding :
    packed [false, true, false, true, false, true, false, true] = [0x08, 0x55, 0x00] := by decide
/-- V-P11: "10110". -/
theorem test_pack_five_bits : packed [true, false, true, true, false] = [0x03, 0xB0] := by decide
/-- V-K11: 06 7F: the padding bits are not checked. -/
theorem test_unpack_padding_unchecked : (after .unpack (loaded [0x06, 0x7F])).bs = [false, true] := by decide +kernel
/-- V-K7: 88 00: no bit of the header byte is ignored. -/
theorem test_unpack_header_whole_byte : (after .unpack (loaded [0x88, 0x00])).err = .malformedHeader := by decide +kernel
/-- V-M11: the table a = "0" and the bits "0100": residual bits. -/
theorem test_match_residual : (after .pmatch { loaded [] with
    rct := [([false], 0x61)], bs := [false, true, false, false] }).err = .truncatedStream := by decide
/-- V-M15: OBUFCAP = 1 and the bits "01": the second emission finds OBUF full. -/
theorem test_match_full : (after .pmatch { abState [] with
    params := { smallCaps with obufcap := 1 }, bs := [false, true] }).err = .capacityExceeded := by decide +kernel
/-- V-E17: "abracadabra" encodes to 01 6E 8A DC. -/
theorem test_encode_abra : (after .encode (loadedBig abra)).obuf = [0x01, 0x6E, 0x8A, 0xDC] := by decide +kernel
/-- V-E0: the empty text encodes to 08. -/
theorem test_encode_empty : (after .encode State.reset).obuf = [0x08] := by decide
/-- V-D1 with V-E5: 06 40 decodes to "ab". -/
theorem test_decode_ab : (after .decode (abState [0x06, 0x40])).obuf = [0x61, 0x62] := by decide +kernel
/-- V-D5: no table after reset: 06 40 gives code 3 and no output. -/
theorem test_decode_no_table : (after .decode (loaded [0x06, 0x40])).err = .truncatedStream ∧
    (after .decode (loaded [0x06, 0x40])).olen = 0 := by decide +kernel
/-- V-C1: CLR: ILEN = 0, no codes, IBUF unchanged. -/
theorem test_clr : (after .clr (abState [0x61, 0x62])).ilen = 0 ∧
    (after .clr (abState [0x61, 0x62])).ct.look 0x61 = [] ∧
    (after .clr (abState [0x61, 0x62])).ibuf = [(0, 0x61), (1, 0x62)] := by decide +kernel
/-- V-X4: ERR = 4 and BUSY = 0 read as 08. -/
theorem test_status_word : ({ loaded [] with err := .unencodableSymbol } : State).status = 0x08 := by decide

/-! ### Witnesses: the hypotheses of each statement are met together -/

/-- A host access to come, on the "ab" state. -/
def waiting (a : HostAccess) : State := (abState [0x61, 0x62]).setPending [⟨false, a⟩]
/-- The same while a command runs, arriving before it ends. -/
def interrupted (a : HostAccess) : State := ((abState [0x61, 0x62]).latch 0x08).setPending [⟨true, a⟩]

theorem witness_ResetInEveryState :
    (waiting .reset).pending = [⟨false, .reset⟩] ∧ ((waiting .reset).busy = true → false = true) ∧
    (interrupted .reset).pending = [⟨true, .reset⟩] ∧ (interrupted .reset).busy = true := by decide
theorem witness_IdleSequencerWaits : State.reset.seq = .idle ∧ State.reset.pending = [] := by decide
theorem witness_OpcodeMapIsComplete :
    0x3C#8 ∉ [0x01#8, 0x02#8, 0x03#8, 0x04#8, 0x05#8, 0x06#8, 0x07#8, 0x08#8, 0x09#8, 0x0F#8] := by decide
theorem witness_StepRunsTheLatchedCommand :
    (abState []).latch 0x08 = { abState [] with seq := .run 0x08 } ∧ NoEarlyAccess ((abState []).latch 0x08) ∧
    decodeByte 0x08 = .command .encode :=
  ⟨rfl, fun a rest h => (nomatch (show ([] : List Arrival) = a :: rest from h)), by decide⟩
theorem witness_CmdWriteStartsTheCommand :
    (waiting (.writeReg 0x00 255)).seq = .idle ∧
    (waiting (.writeReg 0x00 255)).pending = ⟨false, .writeReg 0x00 255⟩ :: [] ∧ 255 < 256 := by decide
theorem witness_ReservedValueIsIllegalCommand :
    (waiting (.writeReg 0x00 0)).seq = .idle ∧
    (waiting (.writeReg 0x00 0)).pending = ⟨false, .writeReg 0x00 0⟩ :: [] ∧ 0 < 256 ∧
    (∀ i, BitVec.ofNat 8 0 ≠ encodeInstr i) ∧ NoEarlyAccess ((waiting (.writeReg 0x00 0)).setPending []) :=
  ⟨rfl, rfl, by decide, fun i => by cases i <;> decide,
    fun a rest h => nomatch (show ([] : List Arrival) = a :: rest from h)⟩
theorem witness_StatusReadGivesErrAndBusy :
    ((waiting (.readReg 0x04)).pending = ⟨false, .readReg 0x04⟩ :: [] ∧ (waiting (.readReg 0x04)).seq = .idle) ∧
    (interrupted (.readReg 0x04)).pending = ⟨true, .readReg 0x04⟩ :: [] ∧
    (interrupted (.readReg 0x04)).seq = .run 0x08 := by decide
theorem witness_HostAccessRights :
    (∀ a, (waiting a).seq = .idle ∧ (waiting a).pending = ⟨false, a⟩ :: []) ∧
    15 < 2 ^ (waiting (.writeReg 0x08 15)).params.lenw ∧
    3 < (waiting (.writeIbuf 3 0xFF)).params.ibufcap ∧
    ((waiting (.readObuf 0)).setObuf [0x08]).obuf[0]? = some 0x08 :=
  ⟨fun _ => ⟨rfl, rfl⟩, by decide, by decide, by decide⟩
theorem witness_UnspecifiedReadsAnswer :
    (∀ a, (waiting a).seq = .idle ∧ (waiting a).pending = ⟨false, a⟩ :: []) ∧ 0x10 ≤ 0x10 ∧
    (waiting (.readObuf 0)).olen ≤ 0 :=
  ⟨fun _ => ⟨rfl, rfl⟩, by decide, by decide⟩
theorem witness_AccessWhileBusyIsRefused :
    (interrupted (.readReg 0x0C)).seq = .run 0x08 ∧
    (interrupted (.readReg 0x0C)).pending = ⟨true, .readReg 0x0C⟩ :: [] ∧
    HostAccess.readReg 0x0C ≠ .readReg 0x04 ∧ HostAccess.readReg 0x0C ≠ .reset := by decide
theorem witness_LoadPlacesTheInput :
    ((abState []).setPending ((load [1, 2, 3, 4]).map (⟨false, ·⟩))).seq = .idle ∧
    [1, 2, 3, 4].length ≤ (abState []).params.ibufcap ∧ [1, 2, 3, 4].length < 2 ^ (abState []).params.lenw := by decide
theorem witness_BitOrderIsMsbFirst :
    [true, false, true, false, true, false, true, false].length = 8 ∧ 7 < 8 := by decide

theorem witness_TallyCountsSymbols :
    (({ loaded [] with ilen := 5 } : State).params.ibufcap < ({ loaded [] with ilen := 5 } : State).ilen) ∧
    (loaded [1, 2, 3, 4]).ilen ≤ (loaded [1, 2, 3, 4]).params.ibufcap ∧ InputIs (loaded [1, 2, 3, 4]) [1, 2, 3, 4] := by
  unfold InputIs
  decide
theorem witness_TallyIgnoresOrder :
    InputIs (loaded [0x61, 0x62]) [0x61, 0x62] ∧ InputIs (abState [0x62, 0x61]) [0x62, 0x61] ∧
    [0x61, 0x62].Perm [0x62, 0x61] ∧ (loaded [0x61, 0x62]).ilen ≤ (loaded [0x61, 0x62]).params.ibufcap ∧
    (abState [0x62, 0x61]).ilen ≤ (abState [0x62, 0x61]).params.ibufcap :=
  ⟨loaded_inputIs_ab, by unfold InputIs; decide, by decide, by decide, by decide⟩
/-- TALLY and ENCODE: ILEN = 2 over one written byte. -/
theorem witness_UnwrittenInputFaults :
    ({ loaded [0x61] with ilen := 2 } : State).ilen ≤ smallCaps.ibufcap ∧ 1 < 2 ∧
    ({ loaded [0x61] with ilen := 2 } : State).ibuf.read 1 = none ∧
    (∀ c, c < 1 → ({ loaded [0x61] with ilen := 2 } : State).ibuf.read c ≠ none) := by decide
/-- SUBST: a coded byte, whose code fits BSCAP, before the unwritten one. -/
theorem witness_UnwrittenInputFaults_subst :
    ({ abState [0x61] with ilen := 2 } : State).ibuf.read 1 = none ∧ [(0x61 : Byte)].length = 1 ∧
    (∀ i, i < 1 → ({ abState [0x61] with ilen := 2 } : State).ibuf.read i = [(0x61 : Byte)][i]?) ∧
    AllCoded abCodes [0x61] ∧ (coded abCodes [0x61]).length ≤ smallCaps.bscap :=
  ⟨by decide, rfl, by decide, fun b hb => ab_allCoded b (List.mem_of_mem_take (i := 1) hb), by decide +kernel⟩
/-- UNPACK and DECODE: no written byte; and the header 6 of a two-byte buffer, nb = 2, whose only payload byte is the
last one read. -/
theorem witness_UnwrittenInputFaults_unpack :
    (({ loaded [] with ilen := 2 } : State).ibuf.read 0 = none ∧ 0 < 2 ∧ 2 ≤ smallCaps.ibufcap) ∧
    ({ loaded [0x06] with ilen := 2 } : State).ibuf.read 0 = some 0x06 ∧
    ({ loaded [0x06] with ilen := 2 } : State).ibuf.read 1 = none ∧
    (∀ c, c < 1 → ({ loaded [0x06] with ilen := 2 } : State).ibuf.read c ≠ none) ∧
    8 * (2 - 1) - (0x06 : Byte).toNat ≤ smallCaps.bscap ∧ 1 ≤ (8 * (2 - 1) - (0x06 : Byte).toNat + 7) / 8 := by decide

theorem witness_BuildRejectsEmptyTable : ∀ b, State.reset.ft.look b = 0 := fun b => Table.look_const 0 b
theorem witness_BuildGivesTheTree : ∃ b, ((loaded []).setFt (countAll [0x61, 0x62])).ft.look b ≠ 0 :=
  ⟨0x61, by decide +kernel⟩
theorem witness_BuildCombinesTheTwoFirst :
    ∃ s t, exec .build s = .next t ∧ t.err = .ok ∧ t.nleaf ≤ 2 ∧ 2 < t.nnodes :=
  ⟨(loaded []).setFt (countAll [0x61, 0x62]), _, exec_eq_after (by decide +kernel), by decide +kernel,
    by decide +kernel, by decide +kernel⟩
theorem witness_QueueOrderIsStrictTotal :
    before abTree 0 1 = true ∧ before abTree 1 2 = true ∧ (0 : Nat) ≠ 1 := by decide
theorem witness_ExtractMinIsFirst : [1, 0] ≠ ([] : List Nat) ∧ [1, 0].Perm [0, 1] := by decide
theorem witness_BuildDependsOnFtAlone : (abState [0x61]).ft = (loaded []).ft ∧ abState [0x61] ≠ loaded [] :=
  ⟨rfl, fun h => absurd (congrArg State.ilen h) (by decide)⟩

theorem witness_GenOfEmptyTree : State.reset.nnodes = 0 := rfl
theorem witness_GenOfLoneLeaf :
    ((loaded []).setTree [leafNode 0x61 4] 1 0).nodes[0]? = some (leafNode 0x61 4) ∧
    (leafNode 0x61 4).leaf = true := by decide
theorem abTree_isTree : IsTree abTree 2 2 := by decide
theorem witness_GenCodesAreThePaths :
    TreeInv (abState []).nodes (abState []).nleaf (abState []).root ∧ 1 < (abState []).nnodes :=
  ⟨.inr abTree_isTree, by decide⟩
/-- The empty tree, the lone leaf and a tree with an internal root. -/
theorem witness_GenTablesArePrefixFree :
    TreeInv [] 0 0 ∧ TreeInv [leafNode 0x61 4] 1 0 ∧ TreeInv abTree 2 2 :=
  ⟨.inl ⟨rfl, rfl, rfl⟩, .inr (by decide), .inr abTree_isTree⟩

/-- BSCAP is exactly the length of the codes. -/
theorem witness_SubstConcatenatesCodes :
    (abState [0x61, 0x62]).ilen ≤ smallCaps.ibufcap ∧ InputIs (abState [0x61, 0x62]) [0x61, 0x62] ∧
    AllCoded (abState [0x61, 0x62]).ct [0x61, 0x62] ∧ (coded abCodes [0x61, 0x62]).length ≤ 2 :=
  ⟨by decide, loaded_inputIs_ab, ab_allCoded, by decide +kernel⟩
/-- V-U10, V-U6 and V-U9: too long an input, a symbol without a code, a code that does not fit. -/
theorem witness_SubstFailures :
    (({ abState [] with ilen := 5 } : State).params.ibufcap < ({ abState [] with ilen := 5 } : State).ilen) ∧
    (∀ i, i < [0x61, 0x62].length → (abState [0x61, 0x62, 0x63]).ibuf.read i = [0x61#8, 0x62#8][i]?) ∧
    [0x61, 0x62].length < (abState [0x61, 0x62, 0x63]).ilen ∧ (abState [0x61, 0x62, 0x63]).ibuf.read 2 = some 0x63 ∧
    AllCoded abCodes [0x61, 0x62] ∧ (coded abCodes [0x61, 0x62]).length ≤ smallCaps.bscap ∧
    abCodes.look 0x63 = [] ∧
    (∀ i, i < [0x61].length → (abState [0x61, 0x62]).ibuf.read i = [0x61#8][i]?) ∧
    (abState [0x61, 0x62]).ibuf.read 1 = some 0x62 ∧ (coded abCodes [0x61]).length ≤ 1 ∧
    abCodes.look 0x62 ≠ [] ∧ 1 < (coded abCodes [0x61]).length + (abCodes.look 0x62).length :=
  ⟨by decide, by decide, by decide, by decide, ab_allCoded, by decide +kernel, by decide +kernel, by decide, by decide,
    by decide +kernel, by decide +kernel, by decide +kernel⟩

theorem witness_PackOfEmptyString : State.reset.blen = 0 := rfl
/-- L = 8 with OBUFCAP = 3, exactly enough, and 2, one too few. -/
theorem witness_PackWritesHeaderAndPayload :
    ((loaded []).setBs (List.replicate 8 true)).blen ≠ 0 ∧
    2 + ((loaded []).setBs (List.replicate 8 true)).blen / 8 ≤ 3 ∧
    2 < 2 + ((loaded []).setBs (List.replicate 8 true)).blen / 8 := by decide
/-- V-K16 (08 55: nb = 0, no payload byte is read) and V-K12 (01 FF: nb = 7). -/
theorem witness_UnpackStripsThePadding :
    (2 ≤ (loaded [0x08, 0x55]).ilen ∧ (loaded [0x08, 0x55]).ilen ≤ smallCaps.ibufcap ∧
      (loaded [0x08, 0x55]).ibuf.read 0 = some 0x08 ∧ 8 * ((loaded [0x08, 0x55]).ilen - 1) - (0x08 : Byte).toNat = 0 ∧
      ([] : List Byte).length = (0 + 7) / 8) ∧
    (loaded [0x01, 0xFF]).ibuf.read 0 = some 0x01 ∧
    8 * ((loaded [0x01, 0xFF]).ilen - 1) - (0x01 : Byte).toNat ≤ smallCaps.bscap ∧
    [0xFF].length = (8 * ((loaded [0x01, 0xFF]).ilen - 1) - (0x01 : Byte).toNat + 7) / 8 ∧
    ∀ i, i < [0xFF].length → (loaded [0x01, 0xFF]).ibuf.read (1 + i) = [0xFF#8][i]? := by decide
/-- V-K2 (08), and lone headers 1 (V-K4) and 7. -/
theorem witness_UnpackHeaderOnlyBuffer :
    (loaded [0x08]).ilen = 1 ∧ 1 ≤ smallCaps.ibufcap ∧ (loaded [0x08]).ibuf.read 0 = some 0x08 ∧
    (loaded [0x01]).ibuf.read 0 = some 0x01 ∧ 1 ≤ (0x01 : Byte).toNat ∧
    (loaded [0x07]).ibuf.read 0 = some 0x07 ∧ (0x07 : Byte).toNat ≤ 7 := by decide
/-- V-K17, V-K1, V-K5 and V-K6, V-K3, and a payload of 9 bits for BSCAP = 8. -/
theorem witness_UnpackChecksInOrder :
    (({ loaded [] with ilen := 5 } : State).params.ibufcap < ({ loaded [] with ilen := 5 } : State).ilen) ∧
    (loaded []).ilen = 0 ∧
    ((loaded [0x00, 0xFF]).ibuf.read 0 = some 0x00 ∧ (0x00 : Byte).toNat < 1) ∧
    ((loaded [0x09, 0xFF]).ibuf.read 0 = some 0x09 ∧ 8 < (0x09 : Byte).toNat) ∧
    ((loaded [0x06]).ibuf.read 0 = some 0x06 ∧ (0x06 : Byte).toNat < 8 ∧ (loaded [0x06]).ilen = 1) ∧
    ((loaded [0x07, 0, 0]).ibuf.read 0 = some 0x07 ∧ 2 ≤ (loaded [0x07, 0, 0]).ilen ∧
      (loaded [0x07, 0, 0]).params.bscap < 8 * ((loaded [0x07, 0, 0]).ilen - 1) - (0x07 : Byte).toNat) ∧
    ∃ t, exec .unpack (loaded []) = .next t :=
  ⟨by decide, by decide, by decide, by decide, by decide, by decide, _, exec_eq_after (by decide)⟩
/-- BLEN = BSCAP, and an unpacking state that holds the packed buffer. -/
theorem witness_UnpackInvertsPack :
    ((loaded []).setBs (List.replicate 8 true)).blen ≤ smallCaps.bscap ∧
    2 + ((loaded []).setBs (List.replicate 8 true)).blen / 8 ≤ min smallCaps.obufcap smallCaps.ibufcap ∧
    (after .pack ((loaded []).setBs (List.replicate 8 true))).obuf = [0x08, 0xFF, 0x00] ∧
    (abState [0x08, 0xFF, 0x00]).params = smallCaps ∧ InputIs (abState [0x08, 0xFF, 0x00]) [0x08, 0xFF, 0x00] := by
  unfold InputIs
  decide +kernel

theorem witness_MatchIsUnambiguous :
    PrefixFree abCodes ∧ InverseTables abCodes abRct ∧ AllCoded abCodes [0x61, 0x62] ∧
    ((abState []).setBs [false, true]).bs = coded abCodes [0x61, 0x62] ∧ [0x61, 0x62].length ≤ smallCaps.obufcap :=
  ⟨abCodes_prefixFree, abCodes_inverse, ab_allCoded, by decide +kernel, by decide⟩
/-- The third clause: bits that have no decomposition, under the empty tables. -/
theorem witness_MatchIsUnambiguous_none :
    PrefixFree (Table.const []) ∧ InverseTables (Table.const []) [] ∧
    (∀ bs, AllCoded (Table.const []) bs → ((loaded []).setBs [true]).bs ≠ coded (Table.const []) bs) ∧
    ((loaded []).setBs [true]).blen ≤ smallCaps.obufcap := by
  refine ⟨fun a b _ h => by simp at h, fun c b => by simp [eq_comm], fun bs h => ?_, by decide⟩
  cases bs with
  | nil => simp [coded]
  | cons b rest => exact absurd (Table.look_const [] b) (h b (List.mem_cons_self ..))
/-- The table of one symbol, a = "0" (rule R132). -/
def loneCodes : Table Bits := (Table.const []).put 0x61 [false]
theorem loneCodes_look (b : Byte) : loneCodes.look b = if b = 0x61 then [false] else [] := by
  simp [loneCodes, Table.look_put]
theorem loneCodes_prefixFree : PrefixFree loneCodes := by
  intro a b hab ha hb
  rw [loneCodes_look] at ha hb
  split at ha <;> split at hb <;> simp_all
theorem loneCodes_inverse : InverseTables loneCodes [([false], 0x61)] := by
  intro c b
  rw [loneCodes_look]
  simp only [rctLook]
  by_cases hc : [false] = c
  · subst hc
    by_cases hb : b = 0x61 <;> simp_all [eq_comm]
  · by_cases hb : b = 0x61 <;> simp_all [eq_comm]
/-- The fourth clause: OBUFCAP = 4 symbols, then "1", with which no code begins; BLEN = 5 is above OBUFCAP. -/
theorem witness_MatchIsUnambiguous_residue :
    PrefixFree loneCodes ∧ InverseTables loneCodes [([false], 0x61)] ∧ AllCoded loneCodes (List.replicate 4 0x61) ∧
    List.replicate 4 false ++ [true] = coded loneCodes (List.replicate 4 0x61) ++ [true] ∧
    (∀ b, loneCodes.look b ≠ [] → ¬ loneCodes.look b <+: [true]) ∧
    (List.replicate 4 (0x61 : Byte)).length ≤ smallCaps.obufcap ∧ smallCaps.obufcap < 5 := by
  refine ⟨loneCodes_prefixFree, loneCodes_inverse, fun b hb => ?_, by decide +kernel, fun b h => ?_, by decide,
    by decide⟩
  · rw [List.eq_of_mem_replicate hb, loneCodes_look]; decide
  · rw [loneCodes_look] at h ⊢
    split at h <;> simp_all
/-- OBUFCAP = 1 and two codes (V-M15), and OBUFCAP = BLEN. -/
theorem witness_MatchCapacity :
    PrefixFree abCodes ∧ InverseTables abCodes abRct ∧ AllCoded abCodes [0x61, 0x62] ∧
    ((abState []).setBs [false, true]).bs = coded abCodes [0x61, 0x62] ++ [] ∧ [0x61, 0x62].length = 1 + 1 ∧
    ((abState []).setBs [false, true, false, true]).blen ≤ smallCaps.obufcap ∧
    ∃ t, exec .pmatch ((abState []).setBs [false, true, false, true]) = .next t :=
  ⟨abCodes_prefixFree, abCodes_inverse, ab_allCoded, by decide +kernel, by decide, by decide, _,
    exec_eq_after (by decide +kernel)⟩
/-- V-M8, V-M9, V-M10, V-M11. -/
theorem witness_MatchDegenerateInputs :
    State.reset.blen = 0 ∧ ((loaded []).setBs [false, true]).rct = [] ∧ ((loaded []).setBs [false, true]).blen ≠ 0 ∧
    ((loaded []).setCodes abCodes [([false], 0x61)]).rct = [([false], 0x61)] ∧
    ((loaded []).setBs [false, false, false, false]).bs = List.replicate 4 false ∧ 4 ≤ smallCaps.obufcap ∧
    ((loaded []).setBs [false, true, false, false]).bs = List.replicate 1 false ++ true :: [false, false] ∧
    ((loaded []).setBs [false, false, false, false, true]).bs = List.replicate 4 false ++ true :: [] ∧
    ∃ t, exec .pmatch State.reset = .next t :=
  ⟨rfl, rfl, by decide, rfl, rfl, by decide, rfl, rfl, _, exec_eq_after (by decide)⟩

theorem witness_EncodeOfEmptyInput : State.reset.ilen = 0 := rfl
theorem witness_EncodeCompletes :
    InputIs (loaded [0x61, 0x62]) [0x61, 0x62] ∧ (loaded [0x61, 0x62]).ilen ≤ smallCaps.ibufcap ∧
    1 ≤ smallCaps.obufcap := ⟨loaded_inputIs_ab, by decide, by decide⟩
/-- A chain that succeeds at every step, one whose SUBST fails (BSCAP = 1), and a TALLY that fails. -/
theorem witness_EncodeEqualsTheChain :
    (∃ s t1 t2 t3 t4, exec .tally s = .next t1 ∧ t1.err = .ok ∧ exec .build t1 = .next t2 ∧ exec .gen t2 = .next t3 ∧
      exec .subst t3 = .next t4 ∧ t4.err = .ok) ∧
    (∃ s t1 t2 t3 t4, exec .tally s = .next t1 ∧ t1.err = .ok ∧ exec .build t1 = .next t2 ∧ exec .gen t2 = .next t3 ∧
      exec .subst t3 = .next t4 ∧ t4.err ≠ .ok) ∧
    ∃ s t1, exec .tally s = .next t1 ∧ t1.err ≠ .ok := by
  refine ⟨⟨loaded [0x61, 0x62], _, _, _, _, exec_eq_after (by decide +kernel), by decide +kernel,
      exec_eq_after (by decide +kernel), exec_eq_after (by decide +kernel), exec_eq_after (by decide +kernel),
      by decide +kernel⟩,
    ⟨{ loaded [0x61, 0x62] with params := { smallCaps with bscap := 1 } }, _, _, _, _,
      exec_eq_after (by decide +kernel), by decide +kernel, exec_eq_after (by decide +kernel),
      exec_eq_after (by decide +kernel), exec_eq_after (by decide +kernel), by decide +kernel⟩,
    ⟨{ loaded [] with ilen := 5 }, _, exec_eq_after (by decide +kernel), by decide +kernel⟩⟩
theorem witness_DecodeEqualsTheChain :
    (∃ t, exec .unpack (abState [0x06, 0x40]) = .next t ∧ t.err = .ok) ∧
    ∃ t, exec .unpack (abState [0x06]) = .next t ∧ t.err ≠ .ok :=
  ⟨⟨_, exec_eq_after (by decide +kernel), by decide +kernel⟩, ⟨_, exec_eq_after (by decide +kernel), by decide +kernel⟩⟩
theorem witness_DecodeCompletes : InputWritten (loaded [0x06, 0x40]) := by
  unfold InputWritten
  decide
theorem witness_DecodeOfPackedCodes :
    PrefixFree abCodes ∧ InverseTables abCodes abRct ∧ AllCoded abCodes [0x61, 0x62] ∧
    InputIs (abState [0x06, 0x40]) (packed (coded abCodes [0x61, 0x62])) ∧
    (abState [0x06, 0x40]).ilen ≤ smallCaps.ibufcap ∧ (coded abCodes [0x61, 0x62]).length ≤ smallCaps.bscap ∧
    [0x61, 0x62].length ≤ smallCaps.obufcap := by
  refine ⟨abCodes_prefixFree, abCodes_inverse, ab_allCoded, ?_, by decide, by decide +kernel, by decide⟩
  unfold InputIs
  decide +kernel

/-- A state of the same instance that holds the reverse table of `t` and its output `o`, cut or not. -/
def receiver (t : State) (o : List Byte) : State :=
  { State.resetWith t.params with rct := t.rct, ibuf := o.zipIdx.map (fun p => (p.2, p.1)), ilen := o.length }

theorem receiver_rct (t : State) (o : List Byte) : (receiver t o).rct = t.rct := rfl

/-- Every capacity clause: IBUFCAP and OBUFCAP as they are, IBUFCAP = 1 for the one-byte text "a" (its output has two
bytes), and OBUFCAP = 2 for "aaa" (V-E2's like: 05 00). -/
theorem witness_DecodeInvertsEncode :
    (∃ s t u bs, InputIs s bs ∧ s.ilen ≤ s.params.ibufcap ∧ 1 ≤ s.params.obufcap ∧ exec .encode s = .next t ∧
      t.err = .ok ∧ u.params = s.params ∧ u.rct = t.rct ∧ InputIs u t.obuf ∧ t.olen ≤ s.params.ibufcap ∧
      bs.length ≤ s.params.obufcap) ∧
    (∃ s t u bs, InputIs s bs ∧ s.ilen ≤ s.params.ibufcap ∧ 1 ≤ s.params.obufcap ∧ exec .encode s = .next t ∧
      t.err = .ok ∧ u.params = s.params ∧ u.rct = t.rct ∧ InputIs u t.obuf ∧ s.params.ibufcap < t.olen) ∧
    ∃ s t u bs, InputIs s bs ∧ s.ilen ≤ s.params.ibufcap ∧ 1 ≤ s.params.obufcap ∧ exec .encode s = .next t ∧
      t.err = .ok ∧ u.params = s.params ∧ u.rct = t.rct ∧ InputIs u t.obuf ∧ t.olen ≤ s.params.ibufcap ∧
      s.params.obufcap < bs.length := by
  refine ⟨⟨loaded [0x61, 0x62], after .encode (loaded [0x61, 0x62]), receiver (after .encode (loaded [0x61, 0x62])) [0x06, 0x40], [0x61, 0x62],
      loaded_inputIs_ab, by decide, by decide, exec_eq_after (by decide +kernel), by decide +kernel,
      by decide +kernel, receiver_rct _ _, ?_, by decide +kernel, by decide⟩,
    ⟨{ loaded [0x61] with params := { smallCaps with ibufcap := 1 } },
      after .encode { loaded [0x61] with params := { smallCaps with ibufcap := 1 } },
      receiver (after .encode { loaded [0x61] with params := { smallCaps with ibufcap := 1 } }) [0x07, 0x00], [0x61],
      ?_, by decide, by decide, exec_eq_after (by decide +kernel), by decide +kernel, by decide +kernel, receiver_rct _ _, ?_,
      by decide +kernel⟩,
    ⟨{ loaded [0x61, 0x61, 0x61] with params := { smallCaps with obufcap := 2 } },
      after .encode { loaded [0x61, 0x61, 0x61] with params := { smallCaps with obufcap := 2 } },
      receiver (after .encode { loaded [0x61, 0x61, 0x61] with params := { smallCaps with obufcap := 2 } })
        [0x05, 0x00], [0x61, 0x61, 0x61],
      ?_, by decide, by decide, exec_eq_after (by decide +kernel), by decide +kernel, by decide +kernel, receiver_rct _ _, ?_,
      by decide +kernel, by decide⟩⟩ <;>
  · unfold InputIs
    decide +kernel
theorem witness_EncodeIsDeterministic :
    InputIs (loaded [0x61, 0x62]) [0x61, 0x62] ∧ InputIs (abState [0x61, 0x62]) [0x61, 0x62] ∧
    (abState [0x61, 0x62]).params = (loaded [0x61, 0x62]).params ∧
    (loaded [0x61, 0x62]).ilen ≤ smallCaps.ibufcap ∧
    (∃ t, exec .pack (loaded []) = .next t ∧ t.err = .ok) ∧
    ∃ t, exec .encode (loaded [0x61, 0x62]) = .next t ∧ t.err = .ok :=
  ⟨loaded_inputIs_ab, loaded_inputIs_ab, rfl, by decide, ⟨_, exec_eq_after (by decide +kernel), by decide +kernel⟩,
    ⟨_, exec_eq_after (by decide +kernel), by decide +kernel⟩⟩
/-- "ab" encodes to 06 40; without its last byte it is 06 (V-S4). -/
theorem witness_TruncationIsNotSilent :
    ∃ s t u bs, InputIs s bs ∧ exec .encode s = .next t ∧ t.err = .ok ∧ u.params = s.params ∧ u.rct = t.rct ∧
      InputIs u t.obuf.dropLast ∧ t.olen ≤ 2 := by
  refine ⟨loaded [0x61, 0x62], after .encode (loaded [0x61, 0x62]),
    receiver (after .encode (loaded [0x61, 0x62])) [0x06], [0x61, 0x62],
    loaded_inputIs_ab, exec_eq_after (by decide +kernel), by decide +kernel, by decide +kernel, receiver_rct _ _, ?_,
    by decide +kernel⟩
  unfold InputIs
  decide +kernel

theorem witness_CommandsReportTheirCodes : ∃ t, exec .gen State.reset = .next t := ⟨_, exec_eq_after (by decide)⟩
theorem witness_FailureLeavesDestinationEmpty : ∃ t, exec .build State.reset = .next t ∧ t.err ≠ .ok :=
  ⟨_, exec_eq_after (by decide), by decide⟩
theorem witness_CommandFrames : ∃ t, exec .subst (abState [0x61, 0x62]) = .next t := ⟨_, exec_eq_after (by decide +kernel)⟩
/-- Two states that differ, with the same input, and each clause's premise on the sources. -/
theorem witness_CommandsReadTheirSources :
    SameInput (abState [0x06, 0x40]) ((abState [0x06, 0x40]).setObuf [0x00]) ∧
    (abState [0x06, 0x40]).ct = ((abState [0x06, 0x40]).setObuf [0x00]).ct ∧
    (abState [0x06, 0x40]).rct = ((abState [0x06, 0x40]).setObuf [0x00]).rct ∧
    (abState [0x06, 0x40]).nodes = ((abState [0x06, 0x40]).setObuf [0x00]).nodes ∧
    (abState [0x06, 0x40]).bs = ((abState [0x06, 0x40]).setObuf [0x00]).bs ∧
    (abState [0x06, 0x40]).ft = ((abState [0x06, 0x40]).setObuf [0x00]).ft ∧
    (∃ t, exec .decode (abState [0x06, 0x40]) = .next t) ∧
    ∃ t, exec .encode (abState [0x06, 0x40]) = .next t ∧ t.err = .ok :=
  ⟨⟨rfl, rfl, fun _ _ => rfl⟩, rfl, rfl, rfl, rfl, rfl, ⟨_, exec_eq_after (by decide +kernel)⟩,
    ⟨_, exec_eq_after (by decide +kernel), by decide +kernel⟩⟩

theorem witness_InvariantAtReset : smallCaps.wf = true := by decide
/-- The small instance with "ab" loaded, a command running. -/
theorem loaded_inv : Inv ((loaded [0x61, 0x62]).latch 0x01) where
  params := by decide
  ilen := by decide
  ibufWf := by decide
  ibufIn := by decide
  obuf := by decide
  bs := by decide
  ft := by decide +kernel
  tree := .inl ⟨rfl, rfl, rfl⟩
  freqs := by decide
  pq := rfl
  codes := ⟨[], 0, 0, [], .inl ⟨rfl, rfl, rfl⟩, rfl, rfl, rfl⟩
theorem witness_EveryStepKeepsTheInvariant :
    Inv ((loaded [0x61, 0x62]).latch 0x01) ∧ ∃ t, step ((loaded [0x61, 0x62]).latch 0x01) = .next t :=
  ⟨loaded_inv, after .tally ((loaded [0x61, 0x62]).latch 0x01),
    Eq.trans (b := exec .tally ((loaded [0x61, 0x62]).latch 0x01)) rfl (exec_eq_after (by decide +kernel))⟩
theorem witness_ConfigurationIsFixed : ∃ t, step State.reset = .next t := ⟨State.reset, rfl⟩
theorem witness_InvariantTablesArePrefixFree : Inv ((loaded [0x61, 0x62]).latch 0x01) := loaded_inv
theorem witness_InvariantFitsTheWidths : Inv ((loaded [0x61, 0x62]).latch 0x01) := loaded_inv

end Sys2Proof.Tests
end

/-! Proofs for the family 00_scope: the machine's configuration, how its commands end, and its invariant at reset
and against the widths of rule R13. -/

namespace Sys2Proof.Machine

/-! ### The end of a micro step, in terms of the input it started from (rules R23, R25, R67) -/

theorem SameInput.refl (s : State) : SameInput s s := ⟨rfl, rfl, fun _ _ => rfl⟩

theorem SameInput.trans {s t u : State} (hst : SameInput s t) (htu : SameInput t u) : SameInput s u := by
  obtain ⟨hp, hi, hm⟩ := hst
  obtain ⟨hp', hi', hm'⟩ := htu
  exact ⟨hp.trans hp', hi.trans hi', fun a ha => (hm a ha).trans (hm' a (hi ▸ ha))⟩

/-- The fault `f` is the read of a byte of `s`'s input that the host never wrote (rule R67). -/
def UnwrittenByte (s : State) (f : Fault) : Prop :=
  ∃ a, f = .unwrittenInput a ∧ a < s.ilen ∧ s.ilen ≤ s.params.ibufcap ∧ s.ibuf.read a = none

theorem UnwrittenByte.of_sameInput {s t : State} {f : Fault} (h : SameInput s t) (hf : UnwrittenByte t f) :
    UnwrittenByte s f := by
  obtain ⟨hp, hi, hm⟩ := h
  obtain ⟨a, rfl, ha, hcap, hread⟩ := hf
  rw [← hi] at ha
  exact ⟨a, rfl, ha, by rwa [hp, hi], (hm a ha).trans hread⟩

/-- A micro step that starts from `s`'s input leaves that input as it is, and faults on an unwritten byte of it
only. -/
def StepEnd.InputSafe (s : State) : StepEnd → Prop
  | .ok t => SameInput s t
  | .fail _ t => SameInput s t
  | .fault f => UnwrittenByte s f

theorem StepEnd.InputSafe.of_sameInput {s t : State} {m : StepEnd} (h : SameInput s t) (hm : m.InputSafe t) :
    m.InputSafe s := by
  cases m with
  | ok u => exact h.trans hm
  | fail e u => exact h.trans hm
  | fault f => exact UnwrittenByte.of_sameInput h hm

/-- Chaining (rule R170) keeps `InputSafe`: the second step need only be safe from the state it is given. -/
theorem StepEnd.InputSafe.andThen {s : State} {m : StepEnd} {g : State → StepEnd} (hm : m.InputSafe s)
    (hg : ∀ t, m = .ok t → (g t).InputSafe t) : (m.andThen g).InputSafe s := by
  cases m with
  | ok t => exact .of_sameInput hm (hg t rfl)
  | fail e t => exact hm
  | fault f => exact hm

/-- Two chained steps are done when both are (rule R170). -/
theorem StepEnd.andThen_eq_ok {m : StepEnd} {g : State → StepEnd} {t : State} (h : m.andThen g = .ok t) :
    ∃ u, m = .ok u ∧ g u = .ok t := by
  cases m with
  | ok u => exact ⟨u, rfl, h⟩
  | fail e u => cases h
  | fault f => cases h

theorem tallyBody_inputSafe (s : State) : (tallyBody s).InputSafe s := by
  rcases tallyBody_cases s with ⟨-, h⟩ | ⟨-, bs, -, h⟩ | ⟨hcap, f, hf, h⟩
  · rw [h]; exact .refl s
  · rw [h]; exact .refl s
  · obtain ⟨i, hi, hread, rfl⟩ := readRun_error hf
    rw [h]
    exact ⟨0 + i, rfl, by omega, hcap, hread⟩

theorem buildBody_inputSafe (s : State) : (buildBody s).InputSafe s := by
  rcases buildBody_cases s with ⟨-, h⟩ | ⟨-, h⟩ <;> rw [h] <;> exact .refl s

theorem buildOrBypass_inputSafe (s : State) : (buildOrBypass s).InputSafe s := by
  unfold buildOrBypass
  split
  · exact .refl s
  · exact buildBody_inputSafe s

theorem genBody_of_none {s : State} (h : treeCodes s.nodes s.root = none) : genBody s = .fault .brokenTree := by
  simp [genBody, h]

theorem genBody_inputSafe {s : State} (h : treeCodes s.nodes s.root ≠ none) : (genBody s).InputSafe s := by
  rcases genBody_cases s with ⟨l, -, hl⟩ | ⟨hnone, -⟩
  · rw [hl]; exact .refl s
  · exact absurd hnone h

theorem substBody_inputSafe (s : State) : (substBody s).InputSafe s := by
  rcases substBody_cases s with ⟨y, -, h⟩ | h | h | ⟨a, ha, hcap, hread, h⟩ <;> rw [h]
  · exact .refl s
  · exact .refl s
  · exact .refl s
  · exact ⟨a, rfl, ha, hcap, hread⟩

theorem packBody_inputSafe (s : State) : (packBody s).InputSafe s := by
  rcases packBody_cases s with ⟨-, h⟩ | ⟨-, -, h⟩ <;> rw [h] <;> exact .refl s

theorem unpackBody_inputSafe (s : State) : (unpackBody s).InputSafe s := by
  rcases unpackBody_cases s with ⟨y, -, h⟩ | h | h | ⟨a, ha, hcap, hread, h⟩ <;> rw [h]
  · exact .refl s
  · exact .refl s
  · exact .refl s
  · exact ⟨a, rfl, ha, hcap, hread⟩

theorem matchBody_inputSafe (s : State) : (matchBody s).InputSafe s := by
  rcases matchBody_cases s with ⟨y, -, h⟩ | h | h <;> rw [h] <;> exact .refl s

theorem decodeBody_inputSafe (s : State) : (decodeBody s).InputSafe s :=
  .andThen (unpackBody_inputSafe (s.setObuf [])) fun t _ => matchBody_inputSafe t

/-! ### The trees on which GEN's walk ends (rules R111, R135) -/

/-- Every internal slot's children have smaller indices than the slot (rule R135). -/
def ChildrenBelow (ns : List Node) : Prop :=
  ∀ (k : Nat) (n : Node), ns[k]? = some n → n.leaf = false → n.left < k ∧ n.right < k

/-- A walk from a slot `k` ends when it may descend more than `k` levels: each level lowers the index. -/
theorem walk_ne_none {ns : List Node} (hns : ChildrenBelow ns) {fuel k : Nat} (p : Bits) (hfuel : k < fuel)
    (hk : k < ns.length) : walk ns fuel k p ≠ none := by
  induction fuel generalizing k p with
  | zero => omega
  | succ fuel ih =>
    simp only [walk, List.getElem?_eq_getElem hk]
    split
    · simp
    · next hleaf =>
      obtain ⟨hl, hr⟩ := hns k _ (List.getElem?_eq_getElem hk) (by simpa using hleaf)
      obtain ⟨l, hl⟩ := Option.ne_none_iff_exists'.1 (ih (p ++ [false]) (by omega) (by omega : ns[k].left < ns.length))
      obtain ⟨r, hr⟩ := Option.ne_none_iff_exists'.1 (ih (p ++ [true]) (by omega) (by omega : ns[k].right < ns.length))
      simp [hl, hr]

theorem treeCodes_ne_none {ns : List Node} {root : Nat} (hns : ChildrenBelow ns)
    (hroot : ns ≠ [] → root < ns.length) : treeCodes ns root ≠ none := by
  unfold treeCodes
  split
  · simp
  · next hne =>
    have hlt := hroot hne
    simp only [List.getElem?_eq_getElem hlt]
    split
    · simp
    · exact walk_ne_none hns [] hlt hlt

theorem nodeAt_of_getElem? {ns : List Node} {k : Nat} {n : Node} (h : ns[k]? = some n) : nodeAt ns k = n := by
  simp [nodeAt, h]

theorem IsTree.childrenBelow {ns : List Node} {nleaf root : Nat} (h : IsTree ns nleaf root) : ChildrenBelow ns := by
  obtain ⟨-, hleaf, -, hinner, -⟩ := h
  intro k n hk hn
  have hlt : k < ns.length := (List.getElem?_eq_some_iff.1 hk).1
  have hnode := nodeAt_of_getElem? hk
  have hge : nleaf ≤ k := by simpa [hnode, hn] using hleaf k hlt
  obtain ⟨hl, hr, -⟩ := hinner k hlt hge
  rw [hnode] at hl hr
  exact ⟨hl, hr⟩

theorem IsTree.root_lt {ns : List Node} {nleaf root : Nat} (h : IsTree ns nleaf root) : root < ns.length := by
  obtain ⟨⟨hpos, -, hlen⟩, -, -, -, ⟨hroot, -⟩, -⟩ := h
  omega

/-- GEN never fails on the empty tree or a tree of rule R33 (rule R131). -/
theorem TreeInv.treeCodes_ne_none {ns : List Node} {nleaf root : Nat} (h : TreeInv ns nleaf root) :
    treeCodes ns root ≠ none := by
  rcases h with ⟨rfl, -, -⟩ | h
  · simp [treeCodes]
  · exact Machine.treeCodes_ne_none (IsTree.childrenBelow h) fun _ => IsTree.root_lt h

/-! ### BUILD's tree is one on which GEN's walk ends -/

theorem pqLeast_mem (ns : List Node) (j : Nat) (q : List Nat) : pqLeast ns j q ∈ j :: q := by
  induction q generalizing j with
  | nil => simp [pqLeast]
  | cons k q ih =>
    simp only [pqLeast]
    split
    · exact List.mem_cons_of_mem _ (ih k)
    · have := ih j
      simp only [List.mem_cons] at this ⊢
      tauto

/-- `extract_min` takes an entry of the queue and leaves entries of the queue (rule R113). -/
theorem pqExtractMin_mem {ns : List Node} {q q' : List Nat} {j : Nat} (h : pqExtractMin ns q = some (j, q')) :
    j ∈ q ∧ q' ⊆ q := by
  cases q with
  | nil => cases h
  | cons i q =>
    cases h
    exact ⟨pqLeast_mem ns i q, List.erase_subset⟩

/-- What BUILD's loops keep: children have smaller indices, and the queue holds defined slots (rule R111). -/
structure Builder.Grounded (b : Builder) : Prop where
  children : ChildrenBelow b.nodes
  queue : ∀ j ∈ b.pq, j < b.nodes.length

theorem Builder.Grounded.addNode {b : Builder} {n : Node} (hb : b.Grounded)
    (hn : n.leaf = false → n.left < b.nodes.length ∧ n.right < b.nodes.length) : (addNode b n).Grounded where
  children := by
    intro k m hk hm
    rcases Nat.lt_trichotomy k b.nodes.length with hlt | rfl | hgt
    · exact hb.children k m (by simpa [Machine.addNode, List.getElem?_append_left hlt] using hk) hm
    · obtain rfl : n = m := by simpa [Machine.addNode] using hk
      exact hn hm
    · have : k < (b.nodes ++ [n]).length := (List.getElem?_eq_some_iff.1 hk).1
      simp only [List.length_append, List.length_singleton] at this
      omega
  queue := by
    intro j hj
    simp only [Machine.addNode, pqInsert, List.mem_append, List.mem_singleton, List.length_append,
      List.length_singleton] at hj ⊢
    rcases hj with hj | rfl
    · have := hb.queue j hj
      omega
    · omega

theorem leafPhase_grounded (f : Table Nat) : (leafPhase f).Grounded := by
  have keep : ∀ (l : List Byte) (b : Builder), b.Grounded → (l.foldl (addLeaf f) b).Grounded := by
    intro l
    induction l with
    | nil => exact fun b hb => hb
    | cons s l ih =>
      intro b hb
      refine ih _ ?_
      unfold addLeaf
      split
      · exact hb
      · exact hb.addNode (by simp [leafNode])
  exact keep _ _ ⟨by simp [ChildrenBelow], by simp⟩

theorem Builder.Grounded.combine {b b' : Builder} (hb : b.Grounded) (h : combine b = some b') : b'.Grounded := by
  unfold Machine.combine at h
  split at h
  · cases h
  next l q hl =>
  split at h
  · cases h
  next r q' hr =>
  cases h
  obtain ⟨hl, hq⟩ := pqExtractMin_mem hl
  obtain ⟨hr, hq'⟩ := pqExtractMin_mem hr
  have rest : Builder.Grounded ⟨b.nodes, q'⟩ := ⟨hb.children, fun j hj => hb.queue j (hq (hq' hj))⟩
  exact rest.addNode fun _ => ⟨hb.queue l hl, hb.queue r (hq hr)⟩

theorem Builder.Grounded.combineAll (n : Nat) {b : Builder} (hb : b.Grounded) : (combineAll n b).Grounded := by
  induction n generalizing b with
  | zero => exact hb
  | succ n ih =>
    unfold Machine.combineAll
    split
    · exact hb
    · next b' h => exact ih (hb.combine h)

theorem treeCodes_buildTree_ne_none (f : Table Nat) : treeCodes (buildTree f).1 (buildTree f).2.2 ≠ none := by
  have hb := (leafPhase_grounded f).combineAll (leafPhase f).pq.length
  refine treeCodes_ne_none hb.children fun hne => ?_
  simp only [buildTree] at hne ⊢
  cases hmin : pqExtractMin (combineAll (leafPhase f).pq.length (leafPhase f)).nodes
      (combineAll (leafPhase f).pq.length (leafPhase f)).pq with
  | none => exact List.length_pos_iff.2 hne
  | some e => exact hb.queue e.1 (pqExtractMin_mem hmin).1

/-! ### ENCODE never meets a broken tree -/

/-- GEN has codes to assign after ENCODE's second step, BUILD or the bypass (rules R171, R172). -/
theorem treeCodes_of_buildOrBypass {s t : State} (h : buildOrBypass s = .ok t) : treeCodes t.nodes t.root ≠ none := by
  unfold buildOrBypass at h
  split at h
  · cases h
    simp [treeCodes]
  · rcases buildBody_cases s with ⟨-, hb⟩ | ⟨-, hb⟩ <;> rw [hb] at h <;> cases h
    exact treeCodes_buildTree_ne_none s.ft

theorem encodeBody_inputSafe (s : State) : (encodeBody s).InputSafe s := by
  refine .andThen (.andThen (.andThen (.andThen ?tally ?build) ?gen) ?subst) ?pack
  case tally => exact .of_sameInput (.refl s) (tallyBody_inputSafe (s.setObuf []))
  case build => exact fun t _ => buildOrBypass_inputSafe t
  case gen =>
    intro t ht
    obtain ⟨u, -, hu⟩ := StepEnd.andThen_eq_ok ht
    exact genBody_inputSafe (treeCodes_of_buildOrBypass hu)
  case subst => exact fun t _ => substBody_inputSafe t
  case pack => exact fun t _ => packBody_inputSafe t

/-! ### How a command ends -/

/-- A command whose body is safe completes with SEQ = IDLE and the same capacities, or faults on an unwritten byte. -/
theorem StepEnd.InputSafe.finish_cases {s : State} {m : StepEnd} (h : m.InputSafe s) :
    (∃ t, m.finish = .next t ∧ t.seq = .idle ∧ t.params = s.params) ∨
    ∃ f, m.finish = .fault f ∧ UnwrittenByte s f := by
  cases m with
  | ok t => exact .inl ⟨_, rfl, rfl, h.1.symm⟩
  | fail e t => exact .inl ⟨_, rfl, rfl, h.1.symm⟩
  | fault f => exact .inr ⟨f, rfl, h⟩

/-- How every command ends (rules R11, R28, R44). -/
theorem exec_cases (i : Instr) (s : State) :
    (∃ t, exec i s = .next t ∧ t.seq = .idle ∧ t.params = s.params) ∨
    (∃ f, exec i s = .fault f ∧ UnwrittenByte s f) ∨
    (i = .gen ∧ exec i s = .fault .brokenTree ∧ treeCodes s.nodes s.root = none) := by
  cases i with
  | tally => exact (tallyBody_inputSafe s).finish_cases.imp_right .inl
  | build => exact (buildBody_inputSafe s).finish_cases.imp_right .inl
  | subst => exact (substBody_inputSafe s).finish_cases.imp_right .inl
  | pack => exact (packBody_inputSafe s).finish_cases.imp_right .inl
  | unpack => exact (unpackBody_inputSafe s).finish_cases.imp_right .inl
  | pmatch => exact (matchBody_inputSafe s).finish_cases.imp_right .inl
  | encode => exact (encodeBody_inputSafe s).finish_cases.imp_right .inl
  | decode => exact (decodeBody_inputSafe s).finish_cases.imp_right .inl
  | clr => exact .inl ⟨_, rfl, rfl, rfl⟩
  | gen =>
    by_cases hcodes : treeCodes s.nodes s.root = none
    · exact .inr (.inr ⟨rfl, StepEnd.finish_fault.2 (genBody_of_none hcodes), hcodes⟩)
    · exact (genBody_inputSafe hcodes).finish_cases.imp_right .inl

/-- Settles O55, by the ways a command can end; a memory on which GEN finds no codes is no tree. -/
theorem commandsEndIdle : Obligations.CommandsEndIdle := by
  unfold Obligations.CommandsEndIdle
  intro i s
  rcases exec_cases i s with ⟨t, ht, hidle, -⟩ | ⟨f, hf, a, rfl, ha⟩ | ⟨hgen, hf, hnone⟩
  · exact .inl ⟨t, ht, hidle⟩
  · exact .inr (.inl ⟨a, hf, ha⟩)
  · exact .inr (.inr ⟨hgen, hf, fun htree => htree.treeCodes_ne_none hnone⟩)

/-! ### The capacities (rules R8, R44) -/

theorem exec_params {i : Instr} {s t : State} (h : exec i s = .next t) : t.params = s.params := by
  rcases exec_cases i s with ⟨u, hu, -, hp⟩ | ⟨f, hf, -⟩ | ⟨-, hf, -⟩
  · rw [hu] at h
    cases h
    exact hp
  · rw [hf] at h; cases h
  · rw [hf] at h; cases h

theorem runLatched_params {op : Byte} {s t : State} (h : runLatched op s = .next t) : t.params = s.params := by
  unfold runLatched at h
  split at h
  · exact exec_params h
  · cases h; rfl

theorem hostAccess_params {a : HostAccess} {s t : State} (h : hostAccess a s = .next t) : t.params = s.params := by
  rcases hostAccess_next h with ⟨v, rfl | rfl⟩ | ⟨op, rfl⟩ | ⟨n, -, rfl⟩ | ⟨c, b, -, rfl⟩ | rfl | rfl <;> rfl

theorem hostAccessBusy_params {a : HostAccess} {s t : State} (h : hostAccessBusy a s = .next t) :
    t.params = s.params := by
  rcases hostAccessBusy_next h with rfl | ⟨-, rfl⟩ <;> rfl

/-- Settles O58, by what a step can do: wait, make a host access, or run the latched value. -/
theorem configurationIsFixed : Obligations.ConfigurationIsFixed := by
  unfold Obligations.ConfigurationIsFixed
  intro s t h
  rcases step_cases s with ⟨-, -, hs⟩ | ⟨a, rest, -, -, hs⟩ | ⟨op, a, rest, -, -, -, hs⟩ | ⟨op, -, hs⟩ <;>
    rw [hs] at h
  · cases h; rfl
  · exact (hostAccess_params h).trans (s.setPending_params rest)
  · exact (hostAccessBusy_params h).trans (s.setPending_params rest)
  · exact runLatched_params h

/-! ### The invariant at reset (rule R43) -/

theorem params_wf_iff (p : Params) :
    p.wf = true ↔ 1 ≤ p.ibufcap ∧ 1 ≤ p.obufcap ∧ 1 ≤ p.bscap ∧ p.ibufcap < 2 ^ p.cntw ∧
      p.ibufcap < 2 ^ p.lenw ∧ p.obufcap < 2 ^ p.lenw ∧ p.bscap < 2 ^ p.lenw := by
  simp [Params.wf, Params.countsFit, Params.lengthsFit, and_assoc]

/-- GEN's tables for the empty tree are the empty tables (rule R133). -/
theorem codesInv_const : CodesInv (Table.const []) [] :=
  ⟨[], 0, 0, [], .inl ⟨rfl, rfl, rfl⟩, rfl, rfl, rfl⟩

theorem sum_look_const_zero : (allSymbols.map (Table.const 0).look).sum = 0 :=
  List.sum_eq_zero fun _ hn => by
    obtain ⟨b, -, rfl⟩ := List.mem_map.1 hn
    exact Table.look_const 0 b

theorem inv_resetWith {p : Params} (h : p.wf = true) : Inv (State.resetWith p) where
  params := h
  ilen := Nat.two_pow_pos _
  ibufWf := reset_ibuf_wf p
  ibufIn := by simp [State.resetWith]
  obuf := Nat.zero_le _
  bs := Nat.zero_le _
  ft := sum_look_const_zero.trans_le (Nat.zero_le _)
  tree := .inl ⟨rfl, rfl, rfl⟩
  freqs := by simp [State.resetWith]
  pq := rfl
  codes := codesInv_const

/-- Settles O56: the defaults are checked by evaluation, the reset state field by field. -/
theorem invariantAtReset : Obligations.InvariantAtReset := by
  unfold Obligations.InvariantAtReset
  exact ⟨by decide, fun _ h => inv_resetWith h⟩

/-! ### The invariant and the widths (rules R13, R32, R102, R118, R119) -/

/-- A count is at most the sum of all counts. -/
theorem look_le_sum (f : Table Nat) (b : Byte) : f.look b ≤ (allSymbols.map f.look).sum :=
  List.le_sum_of_mem (List.mem_map_of_mem (mem_allSymbols b))

/-- The size of a tree: at most NSYM leaves, MAXNODE slots, and ROOT among MAXNODE slots (rules R32, R118). -/
theorem TreeInv.bounds {ns : List Node} {nleaf root : Nat} (h : TreeInv ns nleaf root) :
    ns.length ≤ maxNode ∧ nleaf ≤ nsym ∧ root < maxNode := by
  rcases h with ⟨rfl, rfl, rfl⟩ | ⟨⟨h1, hn, hlen⟩, -, -, -, ⟨hroot, -⟩, -⟩
  · simp
  · simp only [maxNode, nsym] at *
    omega

/-- A leaf's children are 0 and an internal slot's lie below it, so both index one of MAXNODE slots (rule R31). -/
theorem TreeInv.child_lt {ns : List Node} {nleaf root : Nat} (h : TreeInv ns nleaf root) {n : Node} (hn : n ∈ ns) :
    n.left < maxNode ∧ n.right < maxNode := by
  have hlen := h.bounds.1
  rcases h with ⟨rfl, -, -⟩ | htree
  · cases hn
  · obtain ⟨k, hk⟩ := List.mem_iff_getElem?.1 hn
    have hlt : k < ns.length := (List.getElem?_eq_some_iff.1 hk).1
    have hbelow := IsTree.childrenBelow htree
    obtain ⟨-, hleaf, -, -, -, -, hunused⟩ := htree
    cases hl : n.leaf with
    | false =>
      have := hbelow k n hk hl
      omega
    | true =>
      have hklt : k < nleaf := by simpa [nodeAt_of_getElem? hk, hl] using hleaf k hlt
      have hzero := hunused k hlt
      rw [if_pos hklt, nodeAt_of_getElem? hk] at hzero
      simp [hzero]

/-- Settles O60: the invariant bounds every number by a capacity, and rule R8 bounds the capacities by the widths. -/
theorem invariantFitsTheWidths : Obligations.InvariantFitsTheWidths := by
  unfold Obligations.InvariantFitsTheWidths
  intro s hs
  obtain ⟨-, -, -, hcnt, -, hobuf, hbs⟩ := (params_wf_iff s.params).1 hs.params
  obtain ⟨hnodes, hnleaf, hroot⟩ := hs.tree.bounds
  exact ⟨hs.ilen, hs.obuf.trans_lt hobuf, hs.bs.trans_lt hbs,
    fun b => ((look_le_sum s.ft b).trans hs.ft).trans_lt hcnt, hnodes, hnleaf, hroot,
    fun n hn => ⟨(hs.freqs n hn).trans_lt hcnt, hs.tree.child_lt hn⟩⟩

end Sys2Proof.Machine

/-! Proofs for the family 10_state: reset, the sequencer and the host port, the invariant kept by every step, and
the code tables it admits. -/

namespace Sys2Proof.Machine

/-! ### STATUS (rule R22) and reset (rule R43) -/

/-- STATUS as a number: ERR from bit 1 on, BUSY in bit 0 (rule R22). -/
theorem status_toNat (s : State) : s.status.toNat = 2 * s.err.code.toNat + s.busy.toNat := by
  unfold State.status
  cases s.err <;> cases s.busy <;> rfl

theorem busy_of_idle {s : State} (h : s.seq = .idle) : s.busy = false := by simp [State.busy, h]

theorem busy_of_run {s : State} {op : Byte} (h : s.seq = .run op) : s.busy = true := by simp [State.busy, h]

theorem resetWith_status (p : Params) : (State.resetWith p).status = 0#8 := BitVec.eq_of_toNat_eq (status_toNat _)

/-- Settles O1, field by field: an empty buffer or table answers nothing, and STATUS is that of an idle core. -/
theorem resetLeavesNothingSeen : Obligations.ResetLeavesNothingSeen := by
  unfold Obligations.ResetLeavesNothingSeen
  exact ⟨rfl, fun p => ⟨rfl, resetWith_status p, rfl, rfl, rfl, rfl, fun _ => rfl, fun _ => rfl, Table.look_const 0,
    rfl, rfl, rfl, rfl, Table.look_const [], rctLook_nil⟩⟩

/-! ### What a step does (rules R28, R44) -/

theorem step_of_idle_nil {s : State} (hidle : s.seq = .idle) (hp : s.pending = []) : step s = .next s := by
  rw [step_of_idle hidle, stepIdle, hp]

theorem step_of_idle_cons {s : State} (hidle : s.seq = .idle) {e : Bool} {a : HostAccess} {rest : List Arrival}
    (hp : s.pending = ⟨e, a⟩ :: rest) : step s = hostAccess a (s.setPending rest) := by
  rw [step_of_idle hidle, stepIdle, hp]

theorem step_of_run_early {s : State} {op : Byte} (hrun : s.seq = .run op) {a : HostAccess} {rest : List Arrival}
    (hp : s.pending = ⟨true, a⟩ :: rest) : step s = hostAccessBusy a (s.setPending rest) := by
  rw [step_of_run hrun, stepRunning, hp]
  rfl

theorem step_of_command {s : State} {op : Byte} {i : Instr} (hrun : s.seq = .run op) (hearly : NoEarlyAccess s)
    (hop : decodeByte op = .command i) : step s = exec i s := by
  rw [step_of_run hrun, stepRunning_of_noEarly op hearly, runLatched, hop]

/-- Settles O3. -/
theorem idleSequencerWaits : Obligations.IdleSequencerWaits := by
  unfold Obligations.IdleSequencerWaits
  exact fun _ => step_of_idle_nil

theorem decodeByte_encodeInstr (i : Instr) : decodeByte (encodeInstr i) = .command i := by
  cases i <;> decide

/-- Settles O6; `withFetchWord` latches the command's byte and drops the early accesses. -/
theorem stepRunsTheLatchedCommand : Obligations.StepRunsTheLatchedCommand := by
  unfold Obligations.StepRunsTheLatchedCommand
  refine ⟨fun s op i => step_of_command, fun s i => ?_⟩
  rw [State.withFetchWord, BitVec.ofNat_toNat, BitVec.setWidth_eq]
  exact step_of_command rfl (noEarly_placeCommand _ s) (decodeByte_encodeInstr i)

/-! ### The registers (rules R21 to R24, R66, R86) -/

/-- Settles O7. -/
theorem cmdWriteStartsTheCommand : Obligations.CmdWriteStartsTheCommand := by
  unfold Obligations.CmdWriteStartsTheCommand
  intro s e v rest hidle hp hv
  refine ⟨?_, State.latch_busy _ _⟩
  rw [step_of_idle_cons hidle hp]
  exact if_pos hv

/-- Settles O10, for both states of SEQ. -/
theorem statusReadGivesErrAndBusy : Obligations.StatusReadGivesErrAndBusy := by
  unfold Obligations.StatusReadGivesErrAndBusy
  intro s e rest hp
  constructor
  · intro hidle
    have hstatus : (s.setPending rest).status.toNat = 2 * s.err.code.toNat := by
      rw [status_toNat, busy_of_idle (s := s.setPending rest) hidle]
      rfl
    rw [step_of_idle_cons hidle hp, ← hstatus]
    rfl
  · rintro op hrun rfl
    have hstatus : (s.setPending rest).status.toNat = 2 * s.err.code.toNat + 1 := by
      rw [status_toNat, busy_of_run (s := s.setPending rest) hrun]
      rfl
    rw [step_of_run_early hrun hp, ← hstatus]
    rfl

/-! ### The accesses of an idle core (rules R22 to R27, R86) -/

theorem hostAccess_writeIlen {s : State} {v : Nat} (hv : v < 2 ^ s.params.lenw) :
    hostAccess (.writeReg 0x08 v) s = .next (s.setIlen v) := if_pos hv

theorem hostAccess_writeIbuf {s : State} {a : Nat} (b : Byte) (ha : a < s.params.ibufcap) :
    hostAccess (.writeIbuf a b) s = .next (s.setIbuf (s.ibuf.write a b)) := by
  rw [hostAccess, hostWriteIbuf, if_pos ha]

theorem hostAccess_readObuf {s : State} {a : Nat} {b : Byte} (hb : s.obuf[a]? = some b) :
    hostAccess (.readObuf a) s = .next (s.reply b.toNat) := by
  rw [hostAccess, hostReadObuf, hb]

theorem hostAccess_readObuf_free {s : State} {a : Nat} (ha : s.olen ≤ a) :
    hostAccess (.readObuf a) s = .next s.replyFreeByte := by
  rw [hostAccess, hostReadObuf, List.getElem?_eq_none ha]

/-- The reserved offsets (rule R86). -/
theorem regAt_reserved {off : Nat} (h : 0x10 ≤ off) : regAt off = some .reserved := by
  unfold regAt
  rw [if_neg (by omega), if_neg (by omega), if_neg (by omega), if_neg (by omega), if_pos h]

/-- Settles O11, access by access. -/
theorem hostAccessRights : Obligations.HostAccessRights := by
  unfold Obligations.HostAccessRights
  intro s e a rest hidle hp
  rw [step_of_idle_cons hidle hp]
  refine ⟨?ignored, ?writeIlen, ?readIlen, ?readOlen, ?writeIbuf, ?readObuf, ?readIbuf, ?writeObuf⟩
  case ignored => rintro v (rfl | rfl) <;> rfl
  case writeIlen =>
    rintro v hv rfl
    exact hostAccess_writeIlen hv
  case readIlen => rintro rfl; rfl
  case readOlen => rintro rfl; rfl
  case writeIbuf =>
    rintro c b hc rfl
    exact ⟨s.ibuf.write c b, hostAccess_writeIbuf b hc, Mem.read_write_same s.ibuf c b,
      fun d hd => Mem.read_write_other s.ibuf b hd⟩
  case readObuf =>
    rintro c b hb rfl
    exact hostAccess_readObuf hb
  case readIbuf => rintro c rfl; rfl
  case writeObuf => rintro c b rfl; rfl

/-- Settles O12: each such read answers the free value drawn, whatever it is. -/
theorem unspecifiedReadsAnswer : Obligations.UnspecifiedReadsAnswer := by
  unfold Obligations.UnspecifiedReadsAnswer
  intro s e a rest hidle hp
  rw [step_of_idle_cons hidle hp]
  refine ⟨?readCmd, ?readReserved, ?readObuf, ?writeReserved⟩
  case readCmd =>
    rintro rfl
    exact ⟨_, (Config.freeByte s.draws).isLt, rfl⟩
  case readReserved =>
    rintro off hoff rfl
    exact ⟨Config.freeWord s.draws, by rw [hostAccess, regAt_reserved hoff]; rfl⟩
  case readObuf =>
    rintro c hc rfl
    exact ⟨_, (Config.freeByte s.draws).isLt, hostAccess_readObuf_free hc⟩
  case writeReserved =>
    rintro off v hoff rfl
    rw [hostAccess, regAt_reserved hoff]
    rfl

/-! ### TALLY's counts sum to the number of bytes read (rules R101, R102) -/

theorem allSymbols_pairwise_lt : allSymbols.Pairwise (· < ·) := by
  rw [allSymbols, List.pairwise_map]
  refine List.pairwise_lt_range.imp_of_mem fun {i j} hi hj hij => ?_
  rw [List.mem_range] at hi hj
  rwa [BitVec.lt_def, BitVec.toNat_ofNat, BitVec.toNat_ofNat, Nat.mod_eq_of_lt hi, Nat.mod_eq_of_lt hj]

theorem allSymbols_nodup : allSymbols.Nodup := allSymbols_pairwise_lt.imp BitVec.ne_of_lt

theorem sum_look_countOne (f : Table Nat) (b : Byte) :
    (allSymbols.map (countOne f b).look).sum = (allSymbols.map f.look).sum + 1 := by
  have hperm := List.perm_cons_erase (mem_allSymbols b)
  have hrest : (allSymbols.erase b).map (countOne f b).look = (allSymbols.erase b).map f.look :=
    List.map_congr_left fun c hc => Table.look_put_other _ _ (allSymbols_nodup.mem_erase_iff.1 hc).1
  have hb : (countOne f b).look b = f.look b + 1 := Table.look_put_same _ _ _
  rw [(hperm.map _).sum_eq, (hperm.map f.look).sum_eq, List.map_cons, List.map_cons, List.sum_cons, List.sum_cons,
    hrest, hb]
  omega

theorem sum_look_foldl_countOne (bs : List Byte) (f : Table Nat) :
    (allSymbols.map (bs.foldl countOne f).look).sum = (allSymbols.map f.look).sum + bs.length := by
  induction bs generalizing f with
  | nil => rw [List.foldl_nil, List.length_nil, Nat.add_zero]
  | cons b bs ih =>
    rw [List.foldl_cons, ih, sum_look_countOne, List.length_cons]
    omega

theorem sum_look_countAll (bs : List Byte) : (allSymbols.map (countAll bs).look).sum = bs.length := by
  rw [countAll, sum_look_foldl_countOne, sum_look_const_zero, Nat.zero_add]

/-! ### Slots of a growing NODE memory (rules R31, R33) -/

theorem nodeAt_append_left {ns : List Node} (n : Node) {k : Nat} (hk : k < ns.length) :
    nodeAt (ns ++ [n]) k = nodeAt ns k := by
  simp [nodeAt, List.getElem?_append_left hk]

@[simp] theorem nodeAt_append_length (ns : List Node) (n : Node) : nodeAt (ns ++ [n]) ns.length = n := by
  simp [nodeAt]

theorem freqAt_eq_nodeAt (ns : List Node) (k : Nat) : freqAt ns k = (nodeAt ns k).freq := by
  unfold freqAt nodeAt
  cases ns[k]? <;> rfl

theorem freqAt_append_left {ns : List Node} (n : Node) {k : Nat} (hk : k < ns.length) :
    freqAt (ns ++ [n]) k = freqAt ns k := by
  rw [freqAt_eq_nodeAt, freqAt_eq_nodeAt, nodeAt_append_left n hk]

@[simp] theorem freqAt_append_length (ns : List Node) (n : Node) : freqAt (ns ++ [n]) ns.length = n.freq := by
  rw [freqAt_eq_nodeAt, nodeAt_append_length]

/-- The items of rule R33 that speak of slot `k` alone, of the slots before it and of its children. -/
structure SlotWf (ns : List Node) (nleaf k : Nat) : Prop where
  leaf : (nodeAt ns k).leaf = decide (k < nleaf)
  sym : k < nleaf → ∀ j, j < k → (nodeAt ns j).sym < (nodeAt ns k).sym
  inner : nleaf ≤ k →
    (nodeAt ns k).left < k ∧ (nodeAt ns k).right < k ∧ (nodeAt ns k).left ≠ (nodeAt ns k).right ∧
    (nodeAt ns k).freq = (nodeAt ns (nodeAt ns k).left).freq + (nodeAt ns (nodeAt ns k).right).freq
  freq : 1 ≤ (nodeAt ns k).freq
  unused : if k < nleaf then (nodeAt ns k).left = 0 ∧ (nodeAt ns k).right = 0 else (nodeAt ns k).sym = 0#8

/-- A new slot leaves the older ones as they are: they refer to slots before themselves only. -/
theorem SlotWf.append {ns : List Node} {nleaf k : Nat} (h : SlotWf ns nleaf k) (n : Node) (hk : k < ns.length) :
    SlotWf (ns ++ [n]) nleaf k := by
  have hnode := nodeAt_append_left n hk
  refine ⟨hnode ▸ h.leaf, fun hlt j hj => ?_, fun hge => ?_, hnode ▸ h.freq, hnode ▸ h.unused⟩
  · rw [hnode, nodeAt_append_left n (hj.trans hk)]
    exact h.sym hlt j hj
  · obtain ⟨hl, hr, hne, hsum⟩ := h.inner hge
    rw [hnode, nodeAt_append_left n (hl.trans hk), nodeAt_append_left n (hr.trans hk)]
    exact ⟨hl, hr, hne, hsum⟩

/-- Slot `k` is one of node `n`'s children. -/
def Node.hasChild (n : Node) (k : Nat) : Bool := !n.leaf && (decide (n.left = k) || decide (n.right = k))

theorem Node.hasChild_iff (n : Node) (k : Nat) :
    n.hasChild k = true ↔ n.leaf = false ∧ (n.left = k ∨ n.right = k) := by
  simp [Node.hasChild]

/-- The slots that have slot `k` as a child. -/
def parentsOf (ns : List Node) (k : Nat) : List Nat :=
  (List.range ns.length).filter fun j => (nodeAt ns j).hasChild k

theorem parentCount_eq (ns : List Node) (k : Nat) : parentCount ns k = (parentsOf ns k).length := rfl

theorem mem_parentsOf {ns : List Node} {j k : Nat} :
    j ∈ parentsOf ns k ↔ j < ns.length ∧ (nodeAt ns j).hasChild k = true := by
  simp [parentsOf]

/-- A new slot is one more parent of its children. -/
theorem parentsOf_append (ns : List Node) (n : Node) (k : Nat) :
    parentsOf (ns ++ [n]) k = parentsOf ns k ++ if n.hasChild k then [ns.length] else [] := by
  have hold : (List.range ns.length).filter (fun j => (nodeAt (ns ++ [n]) j).hasChild k) = parentsOf ns k :=
    List.filter_congr fun j hj => by rw [nodeAt_append_left n (List.mem_range.1 hj)]
  rw [parentsOf, List.length_append, List.length_singleton, List.range_succ, List.filter_append, hold]
  cases h : n.hasChild k <;> simp [h]

theorem parentCount_append (ns : List Node) (n : Node) (k : Nat) :
    parentCount (ns ++ [n]) k = parentCount ns k + (if n.hasChild k then 1 else 0) := by
  rw [parentCount_eq, parentCount_eq, parentsOf_append, List.length_append]
  cases n.hasChild k <;> rfl

theorem parentCount_of_leaves {ns : List Node} (h : ∀ k, k < ns.length → (nodeAt ns k).leaf = true) (k : Nat) :
    parentCount ns k = 0 := by
  rw [parentCount_eq, List.length_eq_zero_iff, List.eq_nil_iff_forall_not_mem]
  intro j hj
  obtain ⟨hlt, hchild⟩ := mem_parentsOf.1 hj
  simpa [((Node.hasChild_iff _ _).1 hchild).1] using h j hlt

/-! ### The leaf phase (rule R116) -/

/-- The present symbols, ascending. -/
def present (f : Table Nat) : List Byte := allSymbols.filter fun b => decide (f.look b ≠ 0)

/-- The leaves of the present symbols, ascending. -/
def leavesOf (f : Table Nat) : List Node := (present f).map fun b => leafNode b (f.look b)

@[simp] theorem leavesOf_length (f : Table Nat) : (leavesOf f).length = (present f).length := List.length_map _

theorem mem_present {f : Table Nat} {b : Byte} : b ∈ present f ↔ f.look b ≠ 0 := by simp [present]

theorem present_pairwise_lt (f : Table Nat) : (present f).Pairwise (· < ·) := allSymbols_pairwise_lt.filter _

theorem present_length_le (f : Table Nat) : (present f).length ≤ nsym :=
  (List.length_filter_le _ _).trans (by simp [allSymbols])

theorem sum_present (f : Table Nat) : ((present f).map f.look).sum = (allSymbols.map f.look).sum := by
  unfold present
  induction allSymbols with
  | nil => rfl
  | cons b l ih => by_cases hb : f.look b = 0 <;> simp_all

theorem foldl_addLeaf (f : Table Nat) (l : List Byte) (b : Builder) :
    l.foldl (addLeaf f) b =
      { nodes := b.nodes ++ (l.filter fun s => decide (f.look s ≠ 0)).map fun s => leafNode s (f.look s)
        pq := b.pq ++ List.range' b.nodes.length (l.filter fun s => decide (f.look s ≠ 0)).length } := by
  induction l generalizing b with
  | nil => simp
  | cons s l ih =>
    rw [List.foldl_cons, ih]
    by_cases hs : f.look s = 0
    · simp [addLeaf, hs]
    · simp [addLeaf, addNode, pqInsert, hs, List.range'_succ]

/-- What the leaf phase makes (rule R116): the present symbols' leaves in order, all of them queued. -/
theorem leafPhase_eq (f : Table Nat) :
    leafPhase f = { nodes := leavesOf f, pq := List.range (present f).length } := by
  simp [leafPhase, foldl_addLeaf, leavesOf, present, List.range_eq_range']

theorem nodeAt_leavesOf {f : Table Nat} {k : Nat} (hk : k < (present f).length) :
    nodeAt (leavesOf f) k = leafNode (present f)[k] (f.look (present f)[k]) := by
  simp [nodeAt, leavesOf, hk]

theorem slotWf_leavesOf {f : Table Nat} {k : Nat} (hk : k < (present f).length) :
    SlotWf (leavesOf f) (present f).length k := by
  have hnode := nodeAt_leavesOf hk
  refine ⟨by simp [hnode, leafNode, hk], fun _ j hj => ?_, by omega, ?_, by simp [hnode, leafNode, hk]⟩
  · rw [hnode, nodeAt_leavesOf (hj.trans hk)]
    exact List.pairwise_iff_getElem.1 (present_pairwise_lt f) j k _ hk hj
  · rw [hnode]
    exact Nat.one_le_iff_ne_zero.2 (mem_present.1 (List.getElem_mem hk))

/-! ### The queue's extraction and one combine step (rules R113, R117) -/

/-- `extract_min` takes out one entry (rule R113). -/
theorem pqExtractMin_perm {ns : List Node} {q q' : List Nat} {j : Nat} (h : pqExtractMin ns q = some (j, q')) :
    q.Perm (j :: q') := by
  cases q with
  | nil => cases h
  | cons i q =>
    cases h
    exact List.perm_cons_erase (pqLeast_mem ns i q)

/-- A combine step (rule R117) takes two entries from the queue and adds their parent; with fewer it does nothing. -/
theorem combine_cases (b : Builder) :
    (∃ l r q, b.pq.Perm (l :: r :: q) ∧
      combine b = some (addNode ⟨b.nodes, q⟩ (innerNode (freqAt b.nodes l + freqAt b.nodes r) l r))) ∨
    (b.pq.length ≤ 1 ∧ combine b = none) := by
  unfold combine
  cases hl : pqExtractMin b.nodes b.pq with
  | none => exact .inr ⟨by cases h : b.pq <;> simp_all [pqExtractMin], rfl⟩
  | some e =>
    obtain ⟨l, q⟩ := e
    have hlq := pqExtractMin_perm hl
    cases hr : pqExtractMin b.nodes q with
    | none =>
      refine .inr ⟨?_, by simp [hr]⟩
      cases q with
      | nil => simp [hlq.length_eq]
      | cons i q => cases hr
    | some e =>
      obtain ⟨r, q'⟩ := e
      exact .inl ⟨l, r, q', hlq.trans ((pqExtractMin_perm hr).cons l), by simp [hr]⟩

/-! ### What BUILD's loop keeps (rules R33, R117 to R119) -/

/-- The forest BUILD holds between two combine steps: `nleaf` leaves come first, the queue holds exactly the slots
without a parent, the newest slot among them, and their frequencies sum to the sum `total` of the counts. -/
structure Builder.Forest (nleaf total : Nat) (b : Builder) : Prop where
  slots : ∀ k, k < b.nodes.length → SlotWf b.nodes nleaf k
  parents : ∀ k, parentCount b.nodes k = if k < b.nodes.length ∧ k ∉ b.pq then 1 else 0
  leaves : nleaf ≤ b.nodes.length
  size : b.nodes.length + b.pq.length = 2 * nleaf
  nodup : b.pq.Nodup
  queued : ∀ j ∈ b.pq, j < b.nodes.length
  newest : b.nodes.length - 1 ∈ b.pq
  weight : (b.pq.map (freqAt b.nodes)).sum = total
  freqs : ∀ n ∈ b.nodes, n.freq ≤ total

theorem leafPhase_forest {f : Table Nat} (h : 1 ≤ (present f).length) :
    (leafPhase f).Forest (present f).length (allSymbols.map f.look).sum := by
  have hweight : (List.range (present f).length).map (freqAt (leavesOf f)) = (present f).map f.look :=
    List.ext_getElem (by simp) fun k hk _ => by
      rw [List.length_map, List.length_range] at hk
      simp [freqAt_eq_nodeAt, nodeAt_leavesOf hk, leafNode]
  rw [leafPhase_eq]
  refine ⟨fun k hk => slotWf_leavesOf (by simpa using hk), fun k => ?_, by simp, by simp; omega, List.nodup_range,
    by simp, by simp; omega, by rw [hweight, sum_present], fun n hn => ?_⟩
  · rw [parentCount_of_leaves fun k hk => ?_]
    · simp
    · rw [leavesOf_length] at hk
      rw [nodeAt_leavesOf hk, leafNode]
  · obtain ⟨b, -, rfl⟩ := List.mem_map.1 hn
    exact look_le_sum f b

theorem innerNode_hasChild (x l r k : Nat) : (innerNode x l r).hasChild k = true ↔ k = l ∨ k = r := by
  have hiff : (innerNode x l r).hasChild k = true ↔ l = k ∨ r = k := by
    rw [Node.hasChild_iff]
    exact and_iff_right rfl
  rw [hiff, @eq_comm _ l, @eq_comm _ r]

/-- The slot a combine step adds is well formed. -/
theorem slotWf_innerNode {ns : List Node} {nleaf l r : Nat} (hleaves : nleaf ≤ ns.length) (hl : l < ns.length)
    (hr : r < ns.length) (hlr : l ≠ r) (hfreq : 1 ≤ (nodeAt ns l).freq) :
    SlotWf (ns ++ [innerNode (freqAt ns l + freqAt ns r) l r]) nleaf ns.length where
  leaf := by simp [innerNode, hleaves]
  sym := by omega
  inner _ := by simp [innerNode, nodeAt_append_left, freqAt_eq_nodeAt, hl, hr, hlr]
  freq := by
    rw [nodeAt_append_length, innerNode, freqAt_eq_nodeAt]
    exact Nat.le_add_right_of_le hfreq
  unused := by simp [innerNode, Nat.not_lt.2 hleaves]

/-- Taking two entries from the queue for a new slot keeps the queue the set of the slots without a parent. -/
theorem parentCount_append_innerNode {ns : List Node} {pq q : List Nat} {l r : Nat} (x : Nat)
    (hperm : pq.Perm (l :: r :: q)) (hnodup : pq.Nodup) (hqueued : ∀ j ∈ pq, j < ns.length)
    (hparents : ∀ k, parentCount ns k = if k < ns.length ∧ k ∉ pq then 1 else 0) (k : Nat) :
    parentCount (ns ++ [innerNode x l r]) k = if k < ns.length + 1 ∧ k ∉ q ++ [ns.length] then 1 else 0 := by
  have hmem : k ∈ pq ↔ k = l ∨ k = r ∨ k ∈ q := by simp [hperm.mem_iff]
  obtain ⟨⟨-, hlq⟩, hrq, -⟩ : (l ≠ r ∧ l ∉ q) ∧ r ∉ q ∧ q.Nodup := by
    simpa [not_or] using hperm.nodup_iff.1 hnodup
  simp only [parentCount_append, hparents, innerNode_hasChild, List.mem_append, List.mem_singleton]
  by_cases hchild : k = l ∨ k = r
  · have hpq : k ∈ pq := hmem.2 (hchild.imp_right .inl)
    have hq : k ∉ q := by rcases hchild with rfl | rfl <;> assumption
    have hlt := hqueued k hpq
    simp [hchild, hpq, hq, hlt.ne, hlt.le]
  · have hpq : k ∈ pq ↔ k ∈ q := by rw [hmem, ← or_assoc, or_iff_right hchild]
    have hiff : k < ns.length + 1 ∧ ¬(k ∈ q ∨ k = ns.length) ↔ k < ns.length ∧ k ∉ q := by
      rw [not_or, and_left_comm, and_comm]
      exact and_congr_left fun _ => by omega
    simp only [hchild, hpq, hiff, if_false, Nat.add_zero]

/-- A combine step keeps the forest (rules R117, R118). -/
theorem Builder.Forest.combine {nleaf total : Nat} {b b' : Builder} (hb : b.Forest nleaf total)
    (h : combine b = some b') : b'.Forest nleaf total := by
  rcases combine_cases b with ⟨l, r, q, hperm, hc⟩ | ⟨-, hc⟩ <;> rw [hc] at h <;> cases h
  obtain ⟨hslots, hparents, hleaves, hsize, hnodup, hqueued, -, hweight, hfreqs⟩ := hb
  have hl : l < b.nodes.length := hqueued l (hperm.mem_iff.2 (by simp))
  have hr : r < b.nodes.length := hqueued r (hperm.mem_iff.2 (by simp))
  have hq : ∀ j ∈ q, j < b.nodes.length := fun j hj => hqueued j (hperm.mem_iff.2 (by simp [hj]))
  obtain ⟨⟨hlr, -⟩, -, hqnodup⟩ : (l ≠ r ∧ l ∉ q) ∧ r ∉ q ∧ q.Nodup := by
    simpa [not_or] using hperm.nodup_iff.1 hnodup
  have hsum : freqAt b.nodes l + (freqAt b.nodes r + (q.map (freqAt b.nodes)).sum) = total := by
    rw [← hweight, (hperm.map (freqAt b.nodes)).sum_eq]
    rfl
  have hlen := hperm.length_eq
  refine ⟨?slots, ?parents, ?leaves, ?size, ?nodup, ?queued, ?newest, ?weight, ?freqs⟩ <;>
    simp only [Machine.addNode, pqInsert, List.length_append, List.length_cons, List.length_nil] at hlen ⊢
  case slots =>
    intro k hk
    rcases Nat.lt_succ_iff_lt_or_eq.1 hk with hlt | rfl
    · exact (hslots k hlt).append _ hlt
    · exact slotWf_innerNode hleaves hl hr hlr (hslots l hl).freq
  case parents => exact parentCount_append_innerNode _ hperm hnodup hqueued hparents
  case leaves => omega
  case size => omega
  case nodup => exact hqnodup.append (List.nodup_singleton _) (by simpa using fun h => (hq _ h).false)
  case queued =>
    intro j hj
    rcases List.mem_append.1 hj with hj | hj
    · exact (hq j hj).trans (Nat.lt_succ_self _)
    · simp [List.mem_singleton.1 hj]
  case newest => simp
  case weight =>
    rw [List.map_append, List.map_congr_left fun j hj => freqAt_append_left _ (hq j hj), List.sum_append,
      List.map_singleton, List.sum_singleton, freqAt_append_length, ← hsum]
    exact (Nat.add_comm _ _).trans (Nat.add_assoc _ _ _)
  case freqs =>
    intro n hn
    rcases List.mem_append.1 hn with hn | hn
    · exact hfreqs n hn
    · rw [List.mem_singleton.1 hn, innerNode, ← hsum]
      exact Nat.add_le_add_left (Nat.le_add_right _ _) _

/-- The loop of rule R115 keeps the forest and, given a round for each entry, ends with one entry queued. -/
theorem Builder.Forest.combineAll {nleaf total : Nat} (n : Nat) {b : Builder} (hb : b.Forest nleaf total)
    (hn : b.pq.length ≤ n) : (combineAll n b).Forest nleaf total ∧ (combineAll n b).pq.length ≤ 1 := by
  induction n generalizing b with
  | zero => exact ⟨hb, hn.trans (Nat.zero_le 1)⟩
  | succ n ih =>
    unfold Machine.combineAll
    rcases combine_cases b with ⟨l, r, q, hperm, hc⟩ | ⟨hle, hc⟩
    · have hlen := hperm.length_eq
      have := ih (hb.combine hc) (by simp [addNode, pqInsert] at hlen ⊢; omega)
      simpa only [hc] using this
    · simpa only [hc] using ⟨hb, hle⟩

/-- A forest with one entry queued is a tree of rule R33; its root, the newest slot, weighs the sum of the counts. -/
theorem Builder.Forest.isTree {nleaf total : Nat} {b : Builder} (hb : b.Forest nleaf total) (hle : b.pq.length ≤ 1)
    (hpos : 1 ≤ nleaf) (hmax : nleaf ≤ nsym) :
    b.pq = [b.nodes.length - 1] ∧ IsTree b.nodes nleaf (b.nodes.length - 1) ∧
      (nodeAt b.nodes (b.nodes.length - 1)).freq = total := by
  obtain ⟨hslots, hparents, hleaves, hsize, -, hqueued, hnewest, hweight, -⟩ := hb
  have hpq : b.pq = [b.nodes.length - 1] := by
    match hp : b.pq with
    | [] => simp [hp] at hnewest
    | [j] => simpa [hp, eq_comm] using hnewest
    | _ :: _ :: _ => simp [hp] at hle
  rw [hpq] at hsize hparents hweight
  refine ⟨hpq, ⟨⟨hpos, hmax, ?_⟩, fun k hk => (hslots k hk).leaf,
    fun k hk => (hslots k (hk.trans_le hleaves)).sym hk, fun k hk => (hslots k hk).inner,
    ⟨rfl, fun k hk => ?_⟩, fun k hk => (hslots k hk).freq, fun k hk => (hslots k hk).unused⟩, ?_⟩
  · rw [List.length_singleton] at hsize
    omega
  · rw [hparents k]
    by_cases hroot : k = b.nodes.length - 1 <;> simp [hk, hroot]
  · simpa [freqAt_eq_nodeAt] using hweight

theorem present_length_pos {f : Table Nat} (h : ∃ b, f.look b ≠ 0) : 1 ≤ (present f).length := by
  obtain ⟨b, hb⟩ := h
  exact List.length_pos_of_mem (mem_present.2 hb)

/-- BUILD makes a tree of rule R33 from every table with a present symbol; no slot of it weighs more than the counts
together, and the root weighs as much (rules R115, R119). -/
theorem buildTree_isTree {f : Table Nat} (h : ∃ b, f.look b ≠ 0) :
    IsTree (buildTree f).1 (buildTree f).2.1 (buildTree f).2.2 ∧
      (buildTree f).2.1 = (present f).length ∧
      (nodeAt (buildTree f).1 (buildTree f).2.2).freq = (allSymbols.map f.look).sum ∧
      ∀ n ∈ (buildTree f).1, n.freq ≤ (allSymbols.map f.look).sum := by
  have hpos := present_length_pos h
  obtain ⟨hforest, hle⟩ := (leafPhase_forest hpos).combineAll (leafPhase f).pq.length le_rfl
  obtain ⟨hpq, htree, hroot⟩ := hforest.isTree hle hpos (present_length_le f)
  have hleaves : (leafPhase f).nodes.length = (present f).length := by simp [leafPhase_eq]
  simp only [buildTree, hpq, hleaves]
  exact ⟨htree, trivial, hroot, hforest.freqs⟩

/-! ### The updates that keep the invariant -/

section
variable {s : State}

theorem Inv.setFt (h : Inv s) {f : Table Nat} (hf : (allSymbols.map f.look).sum ≤ s.params.ibufcap) :
    Inv (s.setFt f) := { h with ft := hf }

theorem Inv.setTree (h : Inv s) {ns : List Node} {nleaf root : Nat} (htree : TreeInv ns nleaf root)
    (hfreqs : ∀ n ∈ ns, n.freq ≤ s.params.ibufcap) : Inv (s.setTree ns nleaf root) :=
  { h with tree := htree, freqs := hfreqs, pq := rfl }

theorem Inv.setTree_nil (h : Inv s) : Inv (s.setTree [] 0 0) := h.setTree (.inl ⟨rfl, rfl, rfl⟩) (by simp)

theorem Inv.setCodes (h : Inv s) {c : Table Bits} {r : List (Bits × Byte)} (hcodes : CodesInv c r) :
    Inv (s.setCodes c r) := { h with codes := hcodes }

theorem Inv.setBs (h : Inv s) {x : Bits} (hx : x.length ≤ s.params.bscap) : Inv (s.setBs x) := { h with bs := hx }

theorem Inv.setBs_nil (h : Inv s) : Inv (s.setBs []) := h.setBs (Nat.zero_le _)

theorem Inv.setObuf (h : Inv s) {o : List Byte} (ho : o.length ≤ s.params.obufcap) : Inv (s.setObuf o) :=
  { h with obuf := ho }

theorem Inv.setObuf_nil (h : Inv s) : Inv (s.setObuf []) := h.setObuf (Nat.zero_le _)

theorem Inv.setIlen (h : Inv s) {n : Nat} (hn : n < 2 ^ s.params.lenw) : Inv (s.setIlen n) := { h with ilen := hn }

theorem Inv.writeIbuf (h : Inv s) {a : Nat} (b : Byte) (ha : a < s.params.ibufcap) :
    Inv (s.setIbuf (s.ibuf.write a b)) :=
  { h with ibufWf := Mem.write_wf a b h.ibufWf, ibufIn := Mem.write_lt b ha h.ibufIn }

/-! The invariant does not speak of SEQ, ERR and the host's side. -/

theorem Inv.latch (h : Inv s) (op : Byte) : Inv (s.latch op) := { h with }
theorem Inv.setPending (h : Inv s) (l : List Arrival) : Inv (s.setPending l) := { h with }
theorem Inv.reply (h : Inv s) (v : Nat) : Inv (s.reply v) := { h with }
theorem Inv.drawn (h : Inv s) : Inv s.drawn := { h with }
theorem Inv.endWith (h : Inv s) (e : ErrCode) : Inv (s.endWith e) := { h with }
theorem Inv.afterReset (h : Inv s) : Inv s.afterReset := { inv_resetWith h.params with }

/-! ### The micro steps keep the invariant -/

/-- A micro step's end, unless it is a fault, leaves a state that meets the invariant. -/
def StepEnd.MeetsInv : StepEnd → Prop
  | .ok t => Inv t
  | .fail _ t => Inv t
  | .fault _ => True

theorem StepEnd.MeetsInv.andThen {m : StepEnd} {g : State → StepEnd} (hm : m.MeetsInv)
    (hg : ∀ t, Inv t → (g t).MeetsInv) : (m.andThen g).MeetsInv := by
  cases m with
  | ok t => exact hg t hm
  | fail e t => exact hm
  | fault f => trivial

theorem StepEnd.MeetsInv.finish {m : StepEnd} (hm : m.MeetsInv) {t : State} (h : m.finish = .next t) : Inv t := by
  rcases StepEnd.finish_next h with ⟨u, rfl, rfl⟩ | ⟨e, u, rfl, rfl⟩
  · exact Inv.endWith hm .ok
  · exact Inv.endWith hm e

theorem Inv.tallyBody (h : Inv s) : (tallyBody s).MeetsInv := by
  rcases tallyBody_cases s with ⟨-, hb⟩ | ⟨hcap, bs, hread, hb⟩ | ⟨-, f, -, hb⟩ <;> rw [hb]
  · exact h.setFt (sum_look_const_zero.trans_le (Nat.zero_le _))
  · have hlen : bs.length = s.ilen := ((readRun_ok_iff _ _ _ _).1 hread).1
    exact h.setFt (by rwa [sum_look_countAll, hlen])
  · trivial

theorem Inv.buildBody (h : Inv s) : (buildBody s).MeetsInv := by
  rcases buildBody_cases s with ⟨-, hb⟩ | ⟨hft, hb⟩ <;> rw [hb]
  · exact h.setTree_nil
  · have hpresent : ∃ b, s.ft.look b ≠ 0 := by
      simpa [hft] using (ftEmpty_iff s.ft).not
    obtain ⟨htree, -, -, hfreqs⟩ := buildTree_isTree hpresent
    exact h.setTree (.inr htree) fun n hn => (hfreqs n hn).trans h.ft

theorem Inv.buildOrBypass (h : Inv s) : (buildOrBypass s).MeetsInv := by
  unfold Machine.buildOrBypass
  split
  · exact h.setTree_nil
  · exact h.buildBody

/-- GEN's tables are by definition the tables of a tree that meets rule R33. -/
theorem Inv.genBody (h : Inv s) : (genBody s).MeetsInv := by
  rcases genBody_cases s with ⟨l, hl, hb⟩ | ⟨-, hb⟩ <;> rw [hb]
  · exact h.setCodes ⟨s.nodes, s.nleaf, s.root, l, h.tree, hl, rfl, rfl⟩
  · trivial

theorem Inv.substBody (h : Inv s) : (substBody s).MeetsInv := by
  rcases substBody_cases s with ⟨y, hy, hb⟩ | hb | hb | ⟨a, -, -, -, hb⟩ <;> rw [hb]
  · exact h.setBs hy
  · exact h.setBs_nil
  · exact h.setBs_nil
  · trivial

/-- PACK's output fits OBUF: by its own check, or as the one header byte of the empty bit string (rule R145). -/
theorem Inv.packBody (h : Inv s) : (packBody s).MeetsInv := by
  obtain ⟨-, hobufcap, -⟩ := (params_wf_iff s.params).1 h.params
  rcases packBody_cases s with ⟨hfit, hb⟩ | ⟨-, -, hb⟩ <;> rw [hb]
  · refine h.setObuf ?_
    rw [packed_length, packedLen]
    split
    · exact hobufcap
    · next hne => exact hfit.resolve_left fun hnil => hne (by simp [hnil])
  · exact h.setObuf_nil

theorem Inv.unpackBody (h : Inv s) : (unpackBody s).MeetsInv := by
  rcases unpackBody_cases s with ⟨y, hy, hb⟩ | hb | hb | ⟨a, -, -, -, hb⟩ <;> rw [hb]
  · exact h.setBs hy
  · exact h.setBs_nil
  · exact h.setBs_nil
  · trivial

theorem Inv.matchBody (h : Inv s) : (matchBody s).MeetsInv := by
  rcases matchBody_cases s with ⟨y, hy, hb⟩ | hb | hb <;> rw [hb]
  · exact h.setObuf hy
  · exact h.setObuf_nil
  · exact h.setObuf_nil

theorem Inv.encodeBody (h : Inv s) : (encodeBody s).MeetsInv :=
  (((h.setObuf_nil.tallyBody.andThen fun _ => buildOrBypass).andThen fun _ => genBody).andThen fun _ =>
    substBody).andThen fun _ => packBody

theorem Inv.decodeBody (h : Inv s) : (decodeBody s).MeetsInv :=
  h.setObuf_nil.unpackBody.andThen fun _ => matchBody

theorem Inv.cleared (h : Inv s) : Inv s.cleared :=
  (((((h.setIlen (Nat.two_pow_pos _)).setObuf_nil).setBs_nil).setFt
    (sum_look_const_zero.trans_le (Nat.zero_le _))).setCodes codesInv_const).setTree_nil

/-! ### Every step keeps the invariant -/

variable {t : State}

theorem Inv.exec (h : Inv s) {i : Instr} (hexec : exec i s = .next t) : Inv t := by
  cases i with
  | tally => exact h.tallyBody.finish hexec
  | build => exact h.buildBody.finish hexec
  | gen => exact h.genBody.finish hexec
  | subst => exact h.substBody.finish hexec
  | pack => exact h.packBody.finish hexec
  | unpack => exact h.unpackBody.finish hexec
  | pmatch => exact h.matchBody.finish hexec
  | encode => exact h.encodeBody.finish hexec
  | decode => exact h.decodeBody.finish hexec
  | clr => exact StepEnd.MeetsInv.finish (m := .ok s.cleared) h.cleared hexec

theorem Inv.runLatched (h : Inv s) {op : Byte} (hrun : runLatched op s = .next t) : Inv t := by
  unfold Machine.runLatched at hrun
  split at hrun
  · exact h.exec hrun
  · cases hrun
    exact h.endWith _

theorem Inv.hostAccess (h : Inv s) {a : HostAccess} (hacc : hostAccess a s = .next t) : Inv t := by
  rcases hostAccess_next hacc with ⟨v, rfl | rfl⟩ | ⟨op, rfl⟩ | ⟨n, hn, rfl⟩ | ⟨c, b, hc, rfl⟩ | rfl | rfl
  · exact h.reply v
  · exact (h.reply v).drawn
  · exact h.latch op
  · exact h.setIlen hn
  · exact h.writeIbuf b hc
  · exact h
  · exact h.afterReset

theorem Inv.hostAccessBusy (h : Inv s) {a : HostAccess} (hacc : hostAccessBusy a s = .next t) : Inv t := by
  rcases hostAccessBusy_next hacc with rfl | ⟨-, rfl⟩
  · exact h.reply _
  · exact h.afterReset

end

/-- Settles O57, by what a step can do: wait, make a host access, or run the latched value. -/
theorem everyStepKeepsTheInvariant : Obligations.EveryStepKeepsTheInvariant := by
  unfold Obligations.EveryStepKeepsTheInvariant
  intro s t hinv hstep
  rcases step_cases s with ⟨-, -, hs⟩ | ⟨a, rest, -, -, hs⟩ | ⟨op, a, rest, -, -, -, hs⟩ | ⟨op, -, hs⟩ <;>
    rw [hs] at hstep
  · cases hstep
    exact hinv
  · exact (hinv.setPending rest).hostAccess hstep
  · exact (hinv.setPending rest).hostAccessBusy hstep
  · exact hinv.runLatched hstep

/-! ### The tables of a list of assignments (rules R36, R37, R131) -/

theorem codesOf_concat (l : List (Byte × Bits)) (e : Byte × Bits) : codesOf (l ++ [e]) = assign (codesOf l) e := by
  simp [codesOf]

@[simp] theorem assign_ct_look (c : Codes) (e : Byte × Bits) (b : Byte) :
    (assign c e).ct.look b = if b = e.1 then e.2 else c.ct.look b := Table.look_put ..

@[simp] theorem rctLook_assign (c : Codes) (e : Byte × Bits) (p : Bits) :
    rctLook (assign c e).rct p = if p = e.2 then some e.1 else rctLook c.rct p := rctLook_rctAssign ..

/-- A code in CT is one of the assignments. -/
theorem mem_of_codesOf_look {l : List (Byte × Bits)} {b : Byte} (h : (codesOf l).ct.look b ≠ []) :
    (b, (codesOf l).ct.look b) ∈ l := by
  induction l using List.reverseRecOn with
  | nil => exact absurd (Table.look_const [] b) h
  | append_singleton l e ih =>
    rw [codesOf_concat, assign_ct_look] at h ⊢
    split at h
    · next hb => simp [hb]
    · next hb => simpa [hb] using .inl (ih h)

/-- An entry of RCT is one of the assignments. -/
theorem mem_of_rctLook_codesOf {l : List (Byte × Bits)} {c : Bits} {b : Byte}
    (h : rctLook (codesOf l).rct c = some b) : (b, c) ∈ l := by
  induction l using List.reverseRecOn with
  | nil => cases h
  | append_singleton l e ih =>
    rw [codesOf_concat, rctLook_assign] at h
    rw [List.mem_append, List.mem_singleton]
    split at h
    · next hc => exact .inr (by cases h; rw [hc])
    · exact .inl (ih h)

/-- Assignments that make a code: no empty code, no symbol twice, no code that begins another entry's. -/
structure IsCode (l : List (Byte × Bits)) : Prop where
  nonempty : ∀ e ∈ l, e.2 ≠ []
  symbol : ∀ e ∈ l, ∀ e' ∈ l, e.1 = e'.1 → e = e'
  separate : ∀ e ∈ l, ∀ e' ∈ l, e.2 <+: e'.2 → e = e'

theorem IsCode.mono {l l' : List (Byte × Bits)} (h : IsCode l') (hsub : l ⊆ l') : IsCode l where
  nonempty e he := h.nonempty e (hsub he)
  symbol e he e' he' := h.symbol e (hsub he) e' (hsub he')
  separate e he e' he' := h.separate e (hsub he) e' (hsub he')

theorem IsCode.nil : IsCode [] := ⟨by simp, by simp, by simp⟩

theorem IsCode.singleton {b : Byte} {c : Bits} (hc : c ≠ []) : IsCode [(b, c)] := by
  refine ⟨?_, ?_, ?_⟩ <;> simp [hc]

/-- CT and RCT hold every assignment of a code: none replaces another. -/
theorem IsCode.look {l : List (Byte × Bits)} (h : IsCode l) {e : Byte × Bits} (he : e ∈ l) :
    (codesOf l).ct.look e.1 = e.2 ∧ rctLook (codesOf l).rct e.2 = some e.1 := by
  induction l using List.reverseRecOn with
  | nil => cases he
  | append_singleton l a ih =>
    have ha : a ∈ l ++ [a] := by simp
    rw [codesOf_concat, assign_ct_look, rctLook_assign]
    by_cases hea : e = a
    · simp [hea]
    · have hsym : e.1 ≠ a.1 := fun hs => hea (h.symbol e he a ha hs)
      have hcode : e.2 ≠ a.2 := fun hc => hea (h.separate e he a ha (hc ▸ List.prefix_rfl))
      rw [if_neg hsym, if_neg hcode]
      exact ih (h.mono (List.subset_append_left l [a])) (by simpa [hea] using he)

theorem IsCode.inverseTables {l : List (Byte × Bits)} (h : IsCode l) :
    InverseTables (codesOf l).ct (codesOf l).rct := by
  intro c b
  constructor
  · intro hc
    have hmem := mem_of_rctLook_codesOf hc
    exact ⟨h.nonempty _ hmem, (h.look hmem).1⟩
  · rintro ⟨hne, rfl⟩
    exact (h.look (mem_of_codesOf_look hne)).2

theorem IsCode.prefixFree {l : List (Byte × Bits)} (h : IsCode l) : PrefixFree (codesOf l).ct := by
  intro a b hab ha hb hpre
  exact hab (congrArg Prod.fst (h.separate _ (mem_of_codesOf_look ha) _ (mem_of_codesOf_look hb) hpre))

/-! ### Paths in NODE (rule R90) -/

/-- The child of an internal slot along an edge label: 0 left, 1 right. -/
def Node.child (n : Node) (b : Bool) : Nat := if b then n.right else n.left

theorem getElem?_eq_nodeAt {ns : List Node} {k : Nat} (hk : k < ns.length) : ns[k]? = some (nodeAt ns k) := by
  simp [nodeAt, hk]

theorem followPath_nil {ns : List Node} {k j : Nat} : followPath ns k [] = some j ↔ k < ns.length ∧ k = j := by
  simp [followPath]

theorem followPath_cons {ns : List Node} {k j : Nat} {b : Bool} {p : Bits} :
    followPath ns k (b :: p) = some j ↔
      k < ns.length ∧ (nodeAt ns k).leaf = false ∧ followPath ns ((nodeAt ns k).child b) p = some j := by
  by_cases hk : k < ns.length
  · rw [followPath, getElem?_eq_nodeAt hk]
    cases h : (nodeAt ns k).leaf <;> simp [h, hk, Node.child]
  · simp [followPath, hk]

/-- The slot a path leads to is a defined one. -/
theorem followPath_lt {ns : List Node} {k j : Nat} {p : Bits} (h : followPath ns k p = some j) : j < ns.length := by
  induction p generalizing k with
  | nil =>
    obtain ⟨hk, rfl⟩ := followPath_nil.1 h
    exact hk
  | cons b p ih => exact ih (followPath_cons.1 h).2.2

/-- A path in two parts leads to where its second part leads from the end of the first. -/
theorem followPath_append {ns : List Node} {k j : Nat} {p q : Bits} :
    followPath ns k (p ++ q) = some j ↔ ∃ m, followPath ns k p = some m ∧ followPath ns m q = some j := by
  induction p generalizing k with
  | nil =>
    refine ⟨fun h => ⟨k, followPath_nil.2 ⟨?_, rfl⟩, h⟩, fun ⟨m, hm, h⟩ => (followPath_nil.1 hm).2 ▸ h⟩
    cases q with
    | nil => exact (followPath_nil.1 h).1
    | cons b q => exact (followPath_cons.1 h).1
  | cons b p ih =>
    simp only [List.cons_append, followPath_cons, ih]
    constructor
    · rintro ⟨hk, hleaf, m, hm, h⟩
      exact ⟨m, ⟨hk, hleaf, hm⟩, h⟩
    · rintro ⟨m, ⟨hk, hleaf, hm⟩, h⟩
      exact ⟨hk, hleaf, m, hm, h⟩

/-- The last edge of a path. -/
theorem followPath_concat {ns : List Node} {k j : Nat} {p : Bits} {b : Bool}
    (h : followPath ns k (p ++ [b]) = some j) :
    ∃ m, followPath ns k p = some m ∧ m < ns.length ∧ (nodeAt ns m).leaf = false ∧ (nodeAt ns m).child b = j := by
  obtain ⟨m, hm, hlast⟩ := followPath_append.1 h
  obtain ⟨hlt, hleaf, hchild⟩ := followPath_cons.1 hlast
  exact ⟨m, hm, hlt, hleaf, (followPath_nil.1 hchild).2⟩

/-- No path goes on below a leaf. -/
theorem followPath_of_leaf {ns : List Node} {k j : Nat} {p : Bits} (hleaf : (nodeAt ns k).leaf = true)
    (h : followPath ns k p = some j) : p = [] ∧ j = k := by
  cases p with
  | nil => exact ⟨rfl, (followPath_nil.1 h).2.symm⟩
  | cons b p => simp [(followPath_cons.1 h).2.1] at hleaf

/-- GEN's walk lists exactly the paths to the leaves below slot `k`, each with its leaf's symbol (rule R131). -/
theorem mem_walk_iff {ns : List Node} {fuel k : Nat} {p : Bits} {l : List (Byte × Bits)}
    (h : walk ns fuel k p = some l) (e : Byte × Bits) :
    e ∈ l ↔ ∃ q j, followPath ns k q = some j ∧ (nodeAt ns j).leaf = true ∧ e = ((nodeAt ns j).sym, p ++ q) := by
  induction fuel generalizing k p l with
  | zero => cases h
  | succ fuel ih =>
    unfold walk at h
    split at h
    · cases h
    next n hn =>
    have hk : k < ns.length := (List.getElem?_eq_some_iff.1 hn).1
    obtain rfl := nodeAt_of_getElem? hn
    split at h
    case isTrue hleaf =>
      cases h
      rw [List.mem_singleton]
      constructor
      · rintro rfl
        exact ⟨[], k, followPath_nil.2 ⟨hk, rfl⟩, hleaf, by simp⟩
      · rintro ⟨q, j, hq, -, rfl⟩
        obtain ⟨rfl, rfl⟩ := followPath_of_leaf hleaf hq
        simp
    case isFalse hleaf =>
      rw [Bool.not_eq_true] at hleaf
      split at h
      · cases h
      next left hleft =>
      split at h
      · cases h
      next right hright =>
      cases h
      rw [List.mem_append, ih hleft, ih hright]
      constructor
      · rintro (⟨q, j, hq, hj, rfl⟩ | ⟨q, j, hq, hj, rfl⟩)
        · exact ⟨false :: q, j, followPath_cons.2 ⟨hk, hleaf, hq⟩, hj, by simp⟩
        · exact ⟨true :: q, j, followPath_cons.2 ⟨hk, hleaf, hq⟩, hj, by simp⟩
      · rintro ⟨q, j, hq, hj, rfl⟩
        cases q with
        | nil =>
          obtain ⟨-, rfl⟩ := followPath_nil.1 hq
          simp [hj] at hleaf
        | cons b q =>
          have hrest := (followPath_cons.1 hq).2.2
          cases b with
          | false => exact .inl ⟨q, j, hrest, hj, by simp⟩
          | true => exact .inr ⟨q, j, hrest, hj, by simp⟩

/-! ### In a tree of rule R33 each slot has one path, and paths are short (rules R33, R135) -/

theorem Node.hasChild_child {n : Node} (h : n.leaf = false) (b : Bool) : n.hasChild (n.child b) = true := by
  rw [Node.hasChild_iff]
  cases b <;> simp [h, Node.child]

/-- A slot with at most one parent has no two. -/
theorem parent_unique {ns : List Node} {k i j : Nat} (h : parentCount ns k ≤ 1) (hi : i < ns.length)
    (hj : j < ns.length) (hik : (nodeAt ns i).hasChild k = true) (hjk : (nodeAt ns j).hasChild k = true) : i = j := by
  rw [parentCount_eq] at h
  have hi := mem_parentsOf.2 ⟨hi, hik⟩
  have hj := mem_parentsOf.2 ⟨hj, hjk⟩
  obtain ⟨a, ha⟩ := List.length_eq_one_iff.1 (Nat.le_antisymm h (List.length_pos_of_mem hi))
  rw [ha, List.mem_singleton] at hi hj
  rw [hi, hj]

theorem parentCount_pos {ns : List Node} {k j : Nat} (hj : j < ns.length) (hjk : (nodeAt ns j).hasChild k = true) :
    0 < parentCount ns k :=
  List.length_pos_of_mem (mem_parentsOf.2 ⟨hj, hjk⟩)

section
variable {ns : List Node} {nleaf root : Nat}

theorem IsTree.leaf_iff (h : IsTree ns nleaf root) {k : Nat} (hk : k < ns.length) :
    (nodeAt ns k).leaf = true ↔ k < nleaf := by
  obtain ⟨-, hleaf, -⟩ := h
  rw [hleaf k hk, decide_eq_true_eq]

theorem IsTree.child_lt (h : IsTree ns nleaf root) {k : Nat} (hk : k < ns.length)
    (hleaf : (nodeAt ns k).leaf = false) (b : Bool) : (nodeAt ns k).child b < k := by
  obtain ⟨hl, hr⟩ := IsTree.childrenBelow h k _ (getElem?_eq_nodeAt hk) hleaf
  cases b
  · exact hl
  · exact hr

theorem IsTree.child_injective (h : IsTree ns nleaf root) {k : Nat} (hk : k < ns.length)
    (hleaf : (nodeAt ns k).leaf = false) {b c : Bool} (hbc : (nodeAt ns k).child b = (nodeAt ns k).child c) :
    b = c := by
  have hge : nleaf ≤ k := by
    rw [← Nat.not_lt, ← IsTree.leaf_iff h hk, hleaf]
    exact Bool.false_ne_true
  obtain ⟨-, -, -, hinner, -⟩ := h
  obtain ⟨-, -, hne, -⟩ := hinner k hk hge
  cases b <;> cases c
  · rfl
  · exact absurd hbc hne
  · exact absurd hbc.symm hne
  · rfl

/-- The root is no slot's child, so only the empty path leads to it. -/
theorem IsTree.path_to_root (h : IsTree ns nleaf root) {p : Bits} (hp : followPath ns root p = some root) : p = [] := by
  rcases List.eq_nil_or_concat' p with rfl | ⟨q, b, rfl⟩
  · rfl
  · obtain ⟨m, -, hm, hleaf, hchild⟩ := followPath_concat hp
    have hpos := parentCount_pos hm (Node.hasChild_child hleaf b)
    have hroot := IsTree.root_lt h
    obtain ⟨-, -, -, -, ⟨-, hparents⟩, -⟩ := h
    rw [hchild, hparents root hroot, if_pos rfl] at hpos
    exact absurd hpos (Nat.lt_irrefl 0)

/-- Two paths from the root to the same slot are equal, by induction on the last edge: the slot has one parent. -/
theorem IsTree.path_unique (h : IsTree ns nleaf root) {p q : Bits} {k : Nat} (hp : followPath ns root p = some k)
    (hq : followPath ns root q = some k) : p = q := by
  induction p using List.reverseRecOn generalizing q k with
  | nil =>
    obtain ⟨-, rfl⟩ := followPath_nil.1 hp
    exact (IsTree.path_to_root h hq).symm
  | append_singleton p b ih =>
    rcases List.eq_nil_or_concat' q with rfl | ⟨q, c, rfl⟩
    · obtain ⟨-, rfl⟩ := followPath_nil.1 hq
      exact IsTree.path_to_root h hp
    · have hk := followPath_lt hp
      obtain ⟨i, hpi, hi, hileaf, hichild⟩ := followPath_concat hp
      obtain ⟨j, hqj, hj, hjleaf, hjchild⟩ := followPath_concat hq
      have hone : parentCount ns k ≤ 1 := by
        obtain ⟨-, -, -, -, ⟨-, hparents⟩, -⟩ := h
        rw [hparents k hk]
        split <;> omega
      obtain rfl := parent_unique hone hi hj (hichild ▸ Node.hasChild_child hileaf b)
        (hjchild ▸ Node.hasChild_child hjleaf c)
      rw [ih hpi hqj, IsTree.child_injective h hi hileaf (hichild.trans hjchild.symm)]

/-- A path from slot `k` has at most one edge for each internal slot up to `k` (rule R135). -/
theorem IsTree.path_length (h : IsTree ns nleaf root) {p : Bits} {k j : Nat} (hp : followPath ns k p = some j) :
    p.length ≤ k + 1 - nleaf := by
  induction p generalizing k with
  | nil => exact Nat.zero_le _
  | cons b p ih =>
    obtain ⟨hk, hleaf, hrest⟩ := followPath_cons.1 hp
    have hchild := IsTree.child_lt h hk hleaf b
    have hge : ¬ k < nleaf := by simp [← IsTree.leaf_iff h hk, hleaf]
    have := ih hrest
    rw [List.length_cons]
    omega

/-- Two leaves with the same symbol are the same slot. -/
theorem IsTree.leaf_symbol_injective (h : IsTree ns nleaf root) {i j : Nat} (hi : i < nleaf) (hj : j < nleaf)
    (hsym : (nodeAt ns i).sym = (nodeAt ns j).sym) : i = j := by
  obtain ⟨-, -, hsyms, -⟩ := h
  rcases Nat.lt_trichotomy i j with hij | hij | hij
  · exact absurd hsym (BitVec.ne_of_lt (hsyms j hj i hij))
  · exact hij
  · exact absurd hsym.symm (BitVec.ne_of_lt (hsyms i hi j hij))

/-! ### The codes of a tree (rules R36, R131 to R135) -/

/-- GEN's assignments on a tree: the lone leaf's "0", or the paths from the root to the leaves. -/
theorem IsTree.treeCodes_cases (h : IsTree ns nleaf root) {l : List (Byte × Bits)} (hl : treeCodes ns root = some l) :
    ((nodeAt ns root).leaf = true ∧ l = [((nodeAt ns root).sym, [false])]) ∨
    ((nodeAt ns root).leaf = false ∧ ∀ e, e ∈ l ↔
      ∃ j, followPath ns root e.2 = some j ∧ (nodeAt ns j).leaf = true ∧ e.1 = (nodeAt ns j).sym) := by
  have hroot := IsTree.root_lt h
  have hne : ns ≠ [] := List.length_pos_iff.1 (Nat.zero_lt_of_lt hroot)
  rw [treeCodes, if_neg hne, getElem?_eq_nodeAt hroot] at hl
  cases hleaf : (nodeAt ns root).leaf with
  | true => exact .inl ⟨rfl, by simpa [hleaf, eq_comm] using hl⟩
  | false =>
    refine .inr ⟨rfl, fun e => ?_⟩
    have hwalk : walk ns ns.length root [] = some l := by simpa [hleaf] using hl
    rw [mem_walk_iff hwalk]
    constructor
    · rintro ⟨q, j, hq, hj, rfl⟩
      exact ⟨j, hq, hj, rfl⟩
    · rintro ⟨j, hq, hj, he⟩
      exact ⟨e.2, j, hq, hj, Prod.ext he rfl⟩

/-- GEN's assignments on a tree make a code: paths to leaves end there, and leaves have different symbols. -/
theorem IsTree.treeCodes_isCode (h : IsTree ns nleaf root) {l : List (Byte × Bits)}
    (hl : treeCodes ns root = some l) : IsCode l := by
  rcases IsTree.treeCodes_cases h hl with ⟨-, rfl⟩ | ⟨hroot, hmem⟩
  · exact .singleton (by simp)
  refine ⟨fun e he hnil => ?_, fun e he e' he' hsym => ?_, fun e he e' he' hpre => ?_⟩
  · obtain ⟨j, hj, hleaf, -⟩ := (hmem e).1 he
    rw [hnil] at hj
    obtain ⟨-, rfl⟩ := followPath_nil.1 hj
    simp [hroot] at hleaf
  · obtain ⟨j, hj, hleaf, hs⟩ := (hmem e).1 he
    obtain ⟨j', hj', hleaf', hs'⟩ := (hmem e').1 he'
    rw [IsTree.leaf_iff h (followPath_lt hj)] at hleaf
    rw [IsTree.leaf_iff h (followPath_lt hj')] at hleaf'
    obtain rfl := IsTree.leaf_symbol_injective h hleaf hleaf' (hs.symm.trans (hsym.trans hs'))
    exact Prod.ext hsym (IsTree.path_unique h hj hj')
  · obtain ⟨r, hr⟩ := hpre
    obtain ⟨j, hj, hleaf, hs⟩ := (hmem e).1 he
    obtain ⟨j', hj', -, hs'⟩ := (hmem e').1 he'
    rw [← hr] at hj'
    obtain ⟨m, hm, hrest⟩ := followPath_append.1 hj'
    obtain rfl : j = m := Option.some.inj (hj.symm.trans hm)
    obtain ⟨rfl, rfl⟩ := followPath_of_leaf hleaf hrest
    exact Prod.ext (hs.trans hs'.symm) (by simpa using hr)

theorem TreeInv.treeCodes_isCode (h : TreeInv ns nleaf root) {l : List (Byte × Bits)}
    (hl : treeCodes ns root = some l) : IsCode l := by
  rcases h with ⟨rfl, -, -⟩ | h
  · cases hl
    exact .nil
  · exact IsTree.treeCodes_isCode h hl

/-- A code has at most NLEAF - 1 bits, the lone leaf's one bit (rule R135). -/
theorem TreeInv.treeCodes_length (h : TreeInv ns nleaf root) {l : List (Byte × Bits)}
    (hl : treeCodes ns root = some l) : ∀ e ∈ l, e.2.length ≤ max 1 (nleaf - 1) := by
  intro e he
  rcases h with ⟨rfl, -, -⟩ | h
  · cases hl
    cases he
  rcases IsTree.treeCodes_cases h hl with ⟨-, rfl⟩ | ⟨-, hmem⟩
  · simp [List.mem_singleton.1 he]
  · obtain ⟨j, hj, -⟩ := (hmem e).1 he
    have hlen := IsTree.path_length h hj
    obtain ⟨⟨hpos, -, hsize⟩, -, -, -, ⟨hroot, -⟩, -⟩ := h
    omega

theorem TreeInv.look_length (h : TreeInv ns nleaf root) {l : List (Byte × Bits)} (hl : treeCodes ns root = some l)
    (b : Byte) : ((codesOf l).ct.look b).length ≤ max 1 (nleaf - 1) := by
  by_cases hnil : (codesOf l).ct.look b = []
  · simp [hnil]
  · exact h.treeCodes_length hl _ (mem_of_codesOf_look hnil)

end

/-- Settles O59: the tables are GEN's on some tree, whose assignments make a code of at most NLEAF - 1 bits each. -/
theorem invariantTablesArePrefixFree : Obligations.InvariantTablesArePrefixFree := by
  unfold Obligations.InvariantTablesArePrefixFree
  intro s hs
  obtain ⟨ns, nleaf, root, l, htree, hl, hct, hrct⟩ := hs.codes
  rw [hct, hrct]
  have hcode := htree.treeCodes_isCode hl
  refine ⟨hcode.prefixFree, hcode.inverseTables, fun b => (htree.look_length hl b).trans ?_⟩
  obtain ⟨-, hnleaf, -⟩ := htree.bounds
  simp only [nsym, maxCl] at *
  omega

end Sys2Proof.Machine

/-! Proofs for the family 20_memory: the bit order inside a byte, and the reading of input the host never wrote. -/

namespace Sys2Proof.Machine

/-! ### The bit order inside a byte (rule R62) -/

/-- The number whose `n` binary digits are `f 0`, `f 1`, ..., the most significant one first. -/
def msbFirst (n : Nat) (f : Nat → Bool) : Nat := ((List.range n).map fun p => if f p then 2 ^ (n - 1 - p) else 0).sum

theorem byteOf_eq_msbFirst (x : Bits) : byteOf x = BitVec.ofNat 8 (msbFirst 8 (x.getD · false)) := rfl

theorem msbFirst_succ (n : Nat) (f : Nat → Bool) :
    msbFirst (n + 1) f = (if f 0 then 2 ^ n else 0) + msbFirst n fun p => f (p + 1) := by
  simp [msbFirst, List.range_succ_eq_map, Function.comp_def, Nat.sub_add_eq, Nat.sub_right_comm]

theorem msbFirst_lt (n : Nat) (f : Nat → Bool) : msbFirst n f < 2 ^ n := by
  induction n generalizing f with
  | zero => simp [msbFirst]
  | succ n ih =>
    have hrest := ih fun p => f (p + 1)
    rw [msbFirst_succ, Nat.pow_succ]
    split <;> omega

/-- Digit `p` stands at bit `n - 1 - p`: the leading digit does not touch the bits below it. -/
theorem testBit_msbFirst {n p : Nat} (f : Nat → Bool) (hp : p < n) : (msbFirst n f).testBit (n - 1 - p) = f p := by
  induction n generalizing f p with
  | zero => omega
  | succ n ih =>
    rw [msbFirst_succ]
    cases p with
    | zero =>
      have htop : (msbFirst n fun p => f (p + 1)).testBit n = false := Nat.testBit_lt_two_pow (msbFirst_lt n _)
      cases hf : f 0 <;> simp [htop, Nat.testBit_two_pow_add_eq]
    | succ p =>
      have hrest := ih (fun p => f (p + 1)) (by omega : p < n)
      rw [show n + 1 - 1 - (p + 1) = n - 1 - p by omega]
      cases hf : f 0
      · simpa using hrest
      · simpa [Nat.testBit_two_pow_add_gt (show n - 1 - p < n by omega)] using hrest

theorem byteOf_toNat (x : Bits) : (byteOf x).toNat = msbFirst 8 (x.getD · false) := by
  rw [byteOf_eq_msbFirst, BitVec.toNat_ofNat, Nat.mod_eq_of_lt (msbFirst_lt 8 _)]

theorem byteOf_getLsbD (x : Bits) {p : Nat} (hp : p < 8) : (byteOf x).getLsbD (7 - p) = x.getD p false := by
  rw [← BitVec.testBit_toNat, byteOf_toNat, testBit_msbFirst _ hp]

theorem getElem?_bitsOf (v : Byte) {p : Nat} (hp : p < 8) :
    (bitsOf v)[p]? = some (decide (v.toNat / 2 ^ (7 - p) % 2 = 1)) := by
  simp [bitsOf, hp]

theorem getElem?_bitsOf_getLsbD (v : Byte) {p : Nat} (hp : p < 8) : (bitsOf v)[p]? = some (v.getLsbD (7 - p)) := by
  rw [getElem?_bitsOf v hp, ← BitVec.testBit_toNat, Nat.testBit_eq_decide_div_mod_eq]

@[simp] theorem byteOf_bitsOf (v : Byte) : byteOf (bitsOf v) = v := by
  refine BitVec.eq_of_getLsbD_eq fun i hi => ?_
  have hbit := byteOf_getLsbD (bitsOf v) (p := 7 - i) (by omega)
  rw [List.getD_eq_getElem?_getD, getElem?_bitsOf_getLsbD v (by omega), show 7 - (7 - i) = i by omega] at hbit
  exact hbit

/-- A byte holds the first eight bits of any bit string, the missing ones as 0 (rule R145's padding). -/
theorem bitsOf_byteOf (x : Bits) : bitsOf (byteOf x) = (List.range 8).map (x.getD · false) := by
  refine List.ext_getElem? fun p => ?_
  by_cases hp : p < 8
  · rw [getElem?_bitsOf_getLsbD _ hp, byteOf_getLsbD x hp]
    simp [hp]
  · simp [bitsOf, hp]

theorem bitsOf_byteOf_of_length {x : Bits} (hx : x.length = 8) : bitsOf (byteOf x) = x := by
  rw [bitsOf_byteOf]
  refine List.ext_getElem (by simp [hx]) fun p _ hp => ?_
  simp [hp]

/-- Settles O15: each direction in terms of the byte's bits, from which the two inverses follow bit by bit. -/
theorem bitOrderIsMsbFirst : Obligations.BitOrderIsMsbFirst := by
  unfold Obligations.BitOrderIsMsbFirst
  exact ⟨fun v _ hp => getElem?_bitsOf v hp, fun x _ => byteOf_toNat x, byteOf_bitsOf,
    fun _ hx => bitsOf_byteOf_of_length hx, fun v _ hp => getElem?_bitsOf_getLsbD v hp⟩

/-! ### Reading bytes the host has and has not written (rules R15, R67) -/

theorem memRead_of_some {m : Mem} {a : Nat} {b : Byte} (h : m.read a = some b) : memRead m a = .ok b := by
  simp [memRead, h]

theorem memRead_of_none {m : Mem} {a : Nat} (h : m.read a = none) : memRead m a = .error (.unwrittenInput a) := by
  simp [memRead, h]

/-- Address `a` is the first one of IBUF that the host has not written. -/
def FirstUnwritten (m : Mem) (a : Nat) : Prop := m.read a = none ∧ ∀ c, c < a → m.read c ≠ none

/-- A run is read in ascending order, so it faults on the first unwritten byte it meets (rule R63). -/
theorem readRun_of_firstUnwritten {m : Mem} {a : Nat} (h : FirstUnwritten m a) {i n : Nat} (hi : i ≤ a)
    (hn : a < i + n) : readRun m i n = .error (.unwrittenInput a) := by
  induction n generalizing i with
  | zero => omega
  | succ n ih =>
    rcases hi.eq_or_lt with rfl | hlt
    · simp [readRun, memRead_of_none h.1]
    · obtain ⟨b, hb⟩ := Option.ne_none_iff_exists'.1 (h.2 i hlt)
      simp [readRun, memRead_of_some hb, ih hlt (by omega)]

/-- SUBST's loop passes over coded bytes whose codes fit, appending their codes (rule R141). -/
theorem substLoop_append {m : Mem} {ct : Table Bits} {cap : Nat} {pre : List Byte} (n : Nat) {i : Nat} {x : Bits}
    (hread : ∀ j, j < pre.length → m.read (i + j) = pre[j]?) (hcoded : AllCoded ct pre)
    (hfit : x.length + (coded ct pre).length ≤ cap) :
    substLoop m ct cap (pre.length + n) i x = substLoop m ct cap n (i + pre.length) (x ++ coded ct pre) := by
  induction pre generalizing i x with
  | nil => simp [coded]
  | cons b pre ih =>
    obtain ⟨hb, hpre⟩ := List.forall_mem_cons.1 hcoded
    have hcons : coded ct (b :: pre) = ct.look b ++ coded ct pre := List.flatMap_cons
    have hhead : m.read i = some b := hread 0 (by simp)
    have htail : ∀ j, j < pre.length → m.read (i + 1 + j) = pre[j]? := fun j hj => by
      simpa [Nat.add_assoc, Nat.add_comm 1] using hread (j + 1) (by simpa using hj)
    rw [hcons, List.length_append] at hfit
    have hstep := ih htail hpre (x := x ++ ct.look b) (by rw [List.length_append]; omega)
    rw [List.length_cons, Nat.add_right_comm, substLoop, memRead_of_some hhead]
    simp only [if_neg hb, if_neg (show ¬ cap < x.length + (ct.look b).length by omega), hstep, hcons, List.append_assoc,
      Nat.add_right_comm i 1, Nat.add_assoc i]

/-! ### The bodies of the reading commands on input with an unwritten byte (rules R67, R208, U1) -/

section
variable {s : State} {a : Nat} (hcap : s.ilen ≤ s.params.ibufcap) (h : FirstUnwritten s.ibuf a)
include hcap h

theorem tallyBody_of_firstUnwritten (ha : a < s.ilen) : tallyBody s = .fault (.unwrittenInput a) := by
  have hrun := readRun_of_firstUnwritten h (n := s.ilen) (Nat.zero_le a) (by omega)
  simp [tallyBody, hrun, hcap.not_gt]

theorem encodeBody_of_firstUnwritten (ha : a < s.ilen) : encodeBody s = .fault (.unwrittenInput a) := by
  have htally : tallyBody (s.setObuf []) = .fault (.unwrittenInput a) := tallyBody_of_firstUnwritten hcap h ha
  simp [encodeBody, htally]

theorem substBody_of_firstUnwritten (ha : a < s.ilen) {pre : List Byte} (hlen : pre.length = a)
    (hread : ∀ i, i < a → s.ibuf.read i = pre[i]?) (hcoded : AllCoded s.ct pre)
    (hfit : (coded s.ct pre).length ≤ s.params.bscap) : substBody s = .fault (.unwrittenInput a) := by
  subst hlen
  obtain ⟨n, hn⟩ : ∃ n, s.ilen = pre.length + (n + 1) := ⟨s.ilen - pre.length - 1, by omega⟩
  have hloop : substLoop s.ibuf s.ct s.params.bscap s.ilen 0 [] = .error (.fault (.unwrittenInput pre.length)) := by
    rw [hn, substLoop_append (n + 1) (by simpa using hread) hcoded (by simpa using hfit), Nat.zero_add, substLoop,
      memRead_of_none h.1]
  simp [substBody, hloop, hcap.not_gt]

/-- With a header that passes the checks of rule R157, UNPACK reads the bytes that hold the payload bits. -/
theorem unpackBody_of_unwritten_payload {hd : Byte} (hhd : s.ibuf.read 0 = some hd) (hlo : 1 ≤ hd.toNat)
    (hhi : hd.toNat ≤ 8) (htwo : 2 ≤ s.ilen) (hfit : 8 * (s.ilen - 1) - hd.toNat ≤ s.params.bscap) (hpos : 1 ≤ a)
    (hle : a ≤ (8 * (s.ilen - 1) - hd.toNat + 7) / 8) : unpackBody s = .fault (.unwrittenInput a) := by
  have hrun := readRun_of_firstUnwritten h (n := (8 * (s.ilen - 1) - hd.toNat + 7) / 8) hpos (by omega)
  have hpayload : unpackPayload s hd.toNat = .fault (.unwrittenInput a) := by
    simp [unpackPayload, unpackedBits, hrun, hfit.not_gt]
  have hheader : unpackHeader s hd.toNat = unpackPayload s hd.toNat := by
    rw [unpackHeader, if_neg (by omega), if_neg (by omega)]
  rw [unpackBody, if_neg hcap.not_gt, if_neg (by omega), memRead_of_some hhd]
  exact hheader.trans hpayload

end

/-- The header is the first byte UNPACK reads (rule R153). -/
theorem unpackBody_of_unwritten_header {s : State} (hcap : s.ilen ≤ s.params.ibufcap) (hpos : 0 < s.ilen)
    (h : s.ibuf.read 0 = none) : unpackBody s = .fault (.unwrittenInput 0) := by
  simp [unpackBody, memRead_of_none h, hcap.not_gt, hpos.ne']

/-- DECODE's first step is UNPACK, from the state with OLEN = 0 (rule R173). -/
theorem decodeBody_of_unpack_fault {s : State} {f : Fault} (h : unpackBody (s.setObuf []) = .fault f) :
    decodeBody s = .fault f := by
  simp [decodeBody, h]

/-- Settles O18: the bytes of a run are read in ascending order, and nothing a command does before its first read of
the unwritten byte can end it. OLEN <- 0, the macros' start, touches neither IBUF nor ILEN. -/
theorem unwrittenInputFaults : Obligations.UnwrittenInputFaults := by
  unfold Obligations.UnwrittenInputFaults
  intro s a hcap ha hnone hbelow
  have hfirst : FirstUnwritten s.ibuf a := ⟨hnone, hbelow⟩
  refine ⟨?tally, ?encode, ?subst, ?header, ?payload⟩
  case tally => exact StepEnd.finish_fault.2 (tallyBody_of_firstUnwritten hcap hfirst ha)
  case encode => exact StepEnd.finish_fault.2 (encodeBody_of_firstUnwritten hcap hfirst ha)
  case subst =>
    intro pre hlen hread hcoded hfit
    exact StepEnd.finish_fault.2 (substBody_of_firstUnwritten hcap hfirst ha hlen hread hcoded hfit)
  case header =>
    rintro rfl
    exact ⟨StepEnd.finish_fault.2 (unpackBody_of_unwritten_header hcap ha hnone),
      StepEnd.finish_fault.2 (decodeBody_of_unpack_fault
        (unpackBody_of_unwritten_header (s := s.setObuf []) hcap ha hnone))⟩
  case payload =>
    intro hd hhd hlo hhi htwo hfit hpos hle
    exact ⟨StepEnd.finish_fault.2
        (unpackBody_of_unwritten_payload hcap hfirst hhd hlo hhi htwo hfit hpos hle),
      StepEnd.finish_fault.2 (decodeBody_of_unpack_fault
        (unpackBody_of_unwritten_payload (s := s.setObuf []) hcap hfirst hhd hlo hhi htwo hfit hpos hle))⟩

end Sys2Proof.Machine

/-! Proofs for the family 30_encoding: the opcode map, reserved values, LOAD, and what each command reads and
writes. -/

namespace Sys2Proof.Machine

/-! ### The opcode map (rules R80 to R85) -/

theorem mem_instr_all (i : Instr) : i ∈ Instr.all := by cases i <;> decide

/-- The field op of a command determines its byte, grp being 0 (rule R81). -/
theorem encodeInstr_of_decodeOp {op : BitVec 4} {i : Instr} (h : decodeOp op = some i) : encodeInstr i = 0#4 ++ op := by
  unfold decodeOp at h
  split at h <;> cases h <;> rfl

/-- A byte is its two fields, grp before op (rule R80). -/
theorem byte_eq_fields (v : Byte) : v = v.extractLsb' 4 4 ++ v.extractLsb' 0 4 := by
  rw [BitVec.extractLsb'_append_extractLsb'_eq_extractLsb' (show 4 = 0 + 4 from rfl), BitVec.extractLsb'_eq_self]

/-- What the decoder answers: the command whose op field the byte holds under grp = 0, or the byte itself as
reserved. -/
theorem decodeByte_cases (v : Byte) :
    (∃ i, v.extractLsb' 4 4 = 0#4 ∧ decodeOp (v.extractLsb' 0 4) = some i ∧ decodeByte v = .command i) ∨
    decodeByte v = .reserved v := by
  unfold decodeByte
  split
  · next hgrp =>
    cases hop : decodeOp (v.extractLsb' 0 4) with
    | some i => exact .inl ⟨i, by simpa [formatC] using hgrp, rfl, rfl⟩
    | none => exact .inr rfl
  · exact .inr rfl

/-- Settles O5: the decoder checks grp = 0, and op then gives the byte back. -/
theorem decodeAndEncodeAgree : Obligations.DecodeAndEncodeAgree := by
  unfold Obligations.DecodeAndEncodeAgree
  refine fun i v => ⟨fun h => ?_, fun h => h ▸ decodeByte_encodeInstr i⟩
  rcases decodeByte_cases v with ⟨j, hgrp, hop, hj⟩ | hres
  · obtain rfl : j = i := Decoded.command.inj (hj.symm.trans h)
    rw [encodeInstr_of_decodeOp hop, ← hgrp]
    exact byte_eq_fields v
  · cases hres.symm.trans h

/-- A byte that is no command's encoding is reserved (rule R83). -/
theorem decodeByte_of_ne_encodeInstr {v : Byte} (h : ∀ i, v ≠ encodeInstr i) : decodeByte v = .reserved v := by
  rcases decodeByte_cases v with ⟨i, -, -, hi⟩ | hres
  · exact absurd ((decodeAndEncodeAgree i v).1 hi) (h i)
  · exact hres

/-- Settles O4: the ten words are the encodings of the ten commands. -/
theorem opcodeMapIsComplete : Obligations.OpcodeMapIsComplete := by
  unfold Obligations.OpcodeMapIsComplete
  refine ⟨⟨decodeByte_encodeInstr .tally, decodeByte_encodeInstr .build, decodeByte_encodeInstr .gen,
    decodeByte_encodeInstr .subst, decodeByte_encodeInstr .pack, decodeByte_encodeInstr .unpack,
    decodeByte_encodeInstr .pmatch, decodeByte_encodeInstr .encode, decodeByte_encodeInstr .decode,
    decodeByte_encodeInstr .clr⟩, fun v hv => decodeByte_of_ne_encodeInstr fun i hi => hv ?_⟩
  have hmem : encodeInstr i ∈ Instr.all.map encodeInstr := List.mem_map_of_mem (mem_instr_all i)
  exact hi ▸ hmem

/-! ### Reserved values (rules R83, R187) -/

theorem step_of_reserved {s : State} {op : Byte} (hrun : s.seq = .run op) (hearly : NoEarlyAccess s)
    (hop : decodeByte op = .reserved op) : step s = .next (s.endWith .illegalCommand) := by
  rw [step_of_run hrun, stepRunning_of_noEarly op hearly, runLatched, hop]

/-- Settles O8: the write latches the value (O7), and the next step ends it. -/
theorem reservedValueIsIllegalCommand : Obligations.ReservedValueIsIllegalCommand := by
  unfold Obligations.ReservedValueIsIllegalCommand
  refine ⟨rfl, fun s e v rest hidle hp hv hres hearly => ?_⟩
  exact ⟨_, (cmdWriteStartsTheCommand s e v rest hidle hp hv).1,
    step_of_reserved rfl hearly (decodeByte_of_ne_encodeInstr hres)⟩

/-! ### LOAD (rule R91) -/

/-- IBUF after the bytes are written to it from address `i` on, in order. -/
def writeRun (m : Mem) (i : Nat) : List Byte → Mem
  | [] => m
  | b :: bs => writeRun (m.write i b) (i + 1) bs

theorem read_writeRun_below {m : Mem} {i a : Nat} (bs : List Byte) (h : a < i) :
    (writeRun m i bs).read a = m.read a := by
  induction bs generalizing m i with
  | nil => rfl
  | cons b bs ih =>
    rw [writeRun, ih (by omega)]
    exact Mem.read_write_other m b (by omega)

theorem read_writeRun_above {m : Mem} {i a : Nat} {bs : List Byte} (h : i + bs.length ≤ a) :
    (writeRun m i bs).read a = m.read a := by
  induction bs generalizing m i with
  | nil => rfl
  | cons b bs ih =>
    rw [List.length_cons] at h
    rw [writeRun, ih (by omega)]
    exact Mem.read_write_other m b (by omega)

theorem read_writeRun {m : Mem} {i j : Nat} {bs : List Byte} (h : j < bs.length) :
    (writeRun m i bs).read (i + j) = bs[j]? := by
  induction bs generalizing m i j with
  | nil => simp at h
  | cons b bs ih =>
    cases j with
    | zero =>
      rw [writeRun, read_writeRun_below bs (by omega)]
      exact Mem.read_write_same m i b
    | succ j =>
      rw [writeRun, ← Nat.add_assoc, Nat.add_right_comm]
      exact ih (by simpa using h)

theorem run_succ_of_step {M : Host.Core} {k : Nat} {s t : M.State} (h : M.step s = .next t) :
    M.run (k + 1) s = M.run k t := by
  rw [Host.Core.run, h]

/-- The accesses of LOAD from address `i` on, one step each (rule R91). -/
theorem run_loadFrom {s : State} {i : Nat} {bs : List Byte} (hidle : s.seq = .idle)
    (hp : s.pending = (loadFrom i bs).map (⟨false, ·⟩)) (hcap : i + bs.length ≤ s.params.ibufcap)
    (hlen : i + bs.length < 2 ^ s.params.lenw) :
    Sys2Proof.core.run (bs.length + 1) s =
      .next (((s.setPending []).setIbuf (writeRun s.ibuf i bs)).setIlen (i + bs.length)) := by
  induction bs generalizing s i with
  | nil => exact run_succ_of_step ((step_of_idle_cons hidle hp).trans (hostAccess_writeIlen hlen))
  | cons b bs ih =>
    have hcount : i + (b :: bs).length = i + 1 + bs.length := by rw [List.length_cons]; omega
    rw [hcount] at hcap hlen ⊢
    have hin : i < s.params.ibufcap := by omega
    have hstep := (step_of_idle_cons hidle hp).trans (hostAccess_writeIbuf b hin)
    exact (run_succ_of_step hstep).trans (ih
      (s := (s.setPending ((loadFrom (i + 1) bs).map (⟨false, ·⟩))).setIbuf (s.ibuf.write i b)) hidle rfl hcap hlen)

/-- Settles O14, as LOAD from address 0. -/
theorem loadPlacesTheInput : Obligations.LoadPlacesTheInput := by
  unfold Obligations.LoadPlacesTheInput
  intro s bs hidle hp hcap hlen
  refine ⟨writeRun s.ibuf 0 bs, ?run, ?inside, ?above⟩
  case run => simpa using run_loadFrom hidle hp (by simpa using hcap) (by simpa using hlen)
  case inside => exact fun j hj => by simpa using read_writeRun (m := s.ibuf) (i := 0) hj
  case above => exact fun a ha => read_writeRun_above (by simpa using ha)

/-! ### What a micro step's end depends on (rules R82, R209) -/

/-- The same end with each state it ends in replaced. -/
def StepEnd.mapState (g : State → State) : StepEnd → StepEnd
  | .ok t => .ok (g t)
  | .fail e t => .fail e (g t)
  | .fault f => .fault f

@[simp] theorem StepEnd.mapState_ok (g : State → State) (t : State) : (StepEnd.ok t).mapState g = .ok (g t) := rfl
@[simp] theorem StepEnd.mapState_fail (g : State → State) (e : ErrCode) (t : State) :
    (StepEnd.fail e t).mapState g = .fail e (g t) := rfl
@[simp] theorem StepEnd.mapState_fault (g : State → State) (f : Fault) : (StepEnd.fault f).mapState g = .fault f := rfl

theorem StepEnd.ok_of_mapState {m n : StepEnd} {g : State → State} {t : State} (h : m = .ok t)
    (hmap : n = m.mapState g) : n = .ok (g t) := by
  rw [hmap, h, mapState_ok]

/-- A step that is its own image ends in a state that is its own image. -/
theorem StepEnd.eq_of_mapState_self {m : StepEnd} {g : State → State} {t : State} (h : m = .ok t)
    (hmap : m = m.mapState g) : t = g t :=
  StepEnd.ok.inj (h.symm.trans (ok_of_mapState h hmap))

/-- Bodies whose ends are images make commands whose ends are, when `g` does not look at ERR and SEQ. -/
theorem StepEnd.finish_of_mapState {m n : StepEnd} {g : State → State} {t : State} (hmap : n = m.mapState g)
    (hg : ∀ v e, g (State.endWith v e) = g v) (h : m.finish = .next t) : n.finish = .next ((g t).endWith t.err) := by
  subst hmap
  rcases StepEnd.finish_next h with ⟨v, rfl, rfl⟩ | ⟨e, v, rfl, rfl⟩ <;> rw [hg] <;> rfl

theorem StepEnd.andThen_eq_ok_of {m : StepEnd} {g : State → StepEnd} {t v : State} (hm : m = .ok t)
    (hg : g t = .ok v) : m.andThen g = .ok v := by
  rw [hm, andThen_ok, hg]

/-- A run of bytes depends on those bytes alone. -/
theorem readRun_congr {m m' : Mem} {a n : Nat} (h : ∀ c, a ≤ c → c < a + n → m.read c = m'.read c) :
    readRun m a n = readRun m' a n := by
  induction n generalizing a with
  | zero => rfl
  | succ n ih =>
    rw [readRun, readRun, memRead_eq, memRead_eq, h a le_rfl (by omega), ih fun c hc hn => h c (by omega) (by omega)]

theorem substLoop_congr {m m' : Mem} (ct : Table Bits) (cap : Nat) {n i : Nat} (x : Bits)
    (h : ∀ c, i ≤ c → c < i + n → m.read c = m'.read c) : substLoop m ct cap n i x = substLoop m' ct cap n i x := by
  induction n generalizing i x with
  | zero => rfl
  | succ n ih =>
    have hrest : ∀ y, substLoop m ct cap n (i + 1) y = substLoop m' ct cap n (i + 1) y :=
      fun y => ih y fun c hc hn => h c (by omega) (by omega)
    simp only [substLoop, memRead_eq, h i le_rfl (by omega), hrest]

section
variable {s u : State}

theorem tallyBody_of_sameInput (h : SameInput s u) :
    tallyBody u = (tallyBody s).mapState fun t => u.setFt t.ft := by
  obtain ⟨hp, hi, hm⟩ := h
  have hrun : readRun s.ibuf 0 s.ilen = readRun u.ibuf 0 s.ilen := readRun_congr fun c _ hc => hm c (by omega)
  unfold tallyBody
  rw [← hp, ← hi, ← hrun]
  split
  · rfl
  · split <;> rfl

theorem buildBody_of_ft (h : s.ft = u.ft) :
    buildBody u = (buildBody s).mapState fun t => u.setTree t.nodes t.nleaf t.root := by
  unfold buildBody
  rw [← h]
  split <;> rfl

theorem buildOrBypass_of_ft (h : s.ft = u.ft) :
    buildOrBypass u = (buildOrBypass s).mapState fun t => u.setTree t.nodes t.nleaf t.root := by
  unfold buildOrBypass
  rw [← h]
  split
  · rfl
  · exact buildBody_of_ft h

theorem genBody_of_tree (hn : s.nodes = u.nodes) (hr : s.root = u.root) :
    genBody u = (genBody s).mapState fun t => u.setCodes t.ct t.rct := by
  unfold genBody
  rw [← hn, ← hr]
  split <;> rfl

theorem substBody_of_sameInput (h : SameInput s u) (hct : s.ct = u.ct) :
    substBody u = (substBody s).mapState fun t => u.setBs t.bs := by
  obtain ⟨hp, hi, hm⟩ := h
  have hloop : substLoop s.ibuf s.ct s.params.bscap s.ilen 0 [] = substLoop u.ibuf s.ct s.params.bscap s.ilen 0 [] :=
    substLoop_congr _ _ _ fun c _ hc => hm c (by omega)
  unfold substBody
  rw [← hp, ← hi, ← hct, ← hloop]
  split
  · rfl
  · split <;> rfl

theorem packBody_of_bs (hp : s.params = u.params) (hbs : s.bs = u.bs) :
    packBody u = (packBody s).mapState fun t => u.setObuf t.obuf := by
  unfold packBody
  rw [← hp, ← hbs]
  split
  · rfl
  · split <;> rfl

/-- The payload of a packed buffer (rule R153) lies inside the input. -/
theorem unpackPayload_of_sameInput (h : SameInput s u) {hd : Nat} (hpos : 1 ≤ hd) :
    unpackPayload u hd = (unpackPayload s hd).mapState fun t => u.setBs t.bs := by
  obtain ⟨hp, hi, hm⟩ := h
  have hbits : unpackedBits s.ibuf (8 * (s.ilen - 1) - hd) = unpackedBits u.ibuf (8 * (s.ilen - 1) - hd) := by
    rw [unpackedBits, unpackedBits, readRun_congr fun c _ hc => hm c (by omega)]
  unfold unpackPayload
  rw [← hp, ← hi, ← hbits]
  split
  · rfl
  · split <;> rfl

theorem unpackHeader_of_sameInput (h : SameInput s u) (hd : Nat) :
    unpackHeader u hd = (unpackHeader s hd).mapState fun t => u.setBs t.bs := by
  have ⟨_, hi, _⟩ := h
  unfold unpackHeader
  rw [← hi]
  split
  · rfl
  · split
    · split <;> rfl
    · exact unpackPayload_of_sameInput h (by omega)

theorem unpackBody_of_sameInput (h : SameInput s u) :
    unpackBody u = (unpackBody s).mapState fun t => u.setBs t.bs := by
  have ⟨hp, hi, hm⟩ := h
  unfold unpackBody
  rw [← hp, ← hi]
  split
  · rfl
  · split
    · rfl
    · rw [memRead_eq, memRead_eq, ← hm 0 (by omega)]
      cases s.ibuf.read 0 with
      | none => rfl
      | some hd => exact unpackHeader_of_sameInput h hd.toNat

theorem matchBody_of_bs (hp : s.params = u.params) (hbs : s.bs = u.bs) (hrct : s.rct = u.rct) :
    matchBody u = (matchBody s).mapState fun t => u.setObuf t.obuf := by
  unfold matchBody
  rw [← hp, ← hbs, ← hrct]
  split <;> rfl

/-- DECODE's two steps (rule R173): MATCH reads the BS that UNPACK has written. -/
theorem decodeBody_of_sameInput (h : SameInput s u) (hrct : s.rct = u.rct) :
    decodeBody u = (decodeBody s).mapState fun t => (u.setBs t.bs).setObuf t.obuf := by
  have hunpack : unpackBody (u.setObuf []) = _ := unpackBody_of_sameInput (s := s.setObuf []) h
  unfold decodeBody
  rw [hunpack]
  rcases unpackBody_cases (s.setObuf []) with ⟨y, -, hs⟩ | hs | hs | ⟨a, -, -, -, hs⟩ <;> rw [hs]
  · have hmatch : matchBody ((u.setObuf []).setBs y) = _ :=
      matchBody_of_bs (s := (s.setObuf []).setBs y) h.1 rfl hrct
    rw [StepEnd.mapState_ok, StepEnd.andThen_ok, StepEnd.andThen_ok]
    refine hmatch.trans ?_
    rcases matchBody_cases ((s.setObuf []).setBs y) with ⟨o, -, hm⟩ | hm | hm <;> rw [hm] <;> rfl
  · rfl
  · rfl
  · rfl

/-- ENCODE's five steps (rule R171), where they succeed: each reads the input or what the steps before it wrote. -/
theorem encodeBody_of_sameInput {t : State} (h : SameInput s u) (hok : encodeBody s = .ok t) :
    encodeBody u = .ok (((((u.setFt t.ft).setTree t.nodes t.nleaf t.root).setCodes t.ct t.rct).setBs t.bs).setObuf
      t.obuf) := by
  obtain ⟨s₄, hok₄, hpack⟩ := StepEnd.andThen_eq_ok hok
  obtain ⟨s₃, hok₃, hsubst⟩ := StepEnd.andThen_eq_ok hok₄
  obtain ⟨s₂, hok₂, hgen⟩ := StepEnd.andThen_eq_ok hok₃
  obtain ⟨s₁, htally, hbuild⟩ := StepEnd.andThen_eq_ok hok₂
  obtain ⟨f, rfl⟩ : ∃ f, s₁ = (s.setObuf []).setFt f :=
    ⟨_, StepEnd.eq_of_mapState_self htally (tallyBody_of_sameInput (.refl _))⟩
  obtain ⟨ns, nl, r, rfl⟩ : ∃ ns nl r, s₂ = State.setTree _ ns nl r :=
    ⟨_, _, _, StepEnd.eq_of_mapState_self hbuild (buildOrBypass_of_ft rfl)⟩
  obtain ⟨c, rc, rfl⟩ : ∃ c rc, s₃ = State.setCodes _ c rc :=
    ⟨_, _, StepEnd.eq_of_mapState_self hgen (genBody_of_tree rfl rfl)⟩
  obtain ⟨x, rfl⟩ : ∃ x, s₄ = State.setBs _ x :=
    ⟨_, StepEnd.eq_of_mapState_self hsubst (substBody_of_sameInput (.refl _) rfl)⟩
  obtain ⟨o, rfl⟩ : ∃ o, t = State.setObuf _ o :=
    ⟨_, StepEnd.eq_of_mapState_self hpack (packBody_of_bs rfl rfl)⟩
  have htally' : tallyBody (u.setObuf []) = .ok ((u.setObuf []).setFt f) :=
    StepEnd.ok_of_mapState htally (tallyBody_of_sameInput (u := u.setObuf []) h)
  have hbuild' := StepEnd.ok_of_mapState hbuild (buildOrBypass_of_ft (u := (u.setObuf []).setFt f) rfl)
  have hgen' := StepEnd.ok_of_mapState hgen
    (genBody_of_tree (u := ((u.setObuf []).setFt f).setTree ns nl r) rfl rfl)
  have hsubst' := StepEnd.ok_of_mapState hsubst
    (substBody_of_sameInput (u := (((u.setObuf []).setFt f).setTree ns nl r).setCodes c rc) h rfl)
  have hpack' := StepEnd.ok_of_mapState hpack
    (packBody_of_bs (u := ((((u.setObuf []).setFt f).setTree ns nl r).setCodes c rc).setBs x) h.1 rfl)
  exact StepEnd.andThen_eq_ok_of (StepEnd.andThen_eq_ok_of (StepEnd.andThen_eq_ok_of
    (StepEnd.andThen_eq_ok_of htally' hbuild') hgen') hsubst') hpack'

end

/-! ### The frame of ENCODE, and that its failures carry a failure code (rules R82, R180) -/

/-- `s` with everything that a command other than CLR may write, but ERR and SEQ, taken from `t`. -/
def State.withResults (s t : State) : State :=
  { s with
    ft := t.ft, nodes := t.nodes, nleaf := t.nleaf, root := t.root, pq := t.pq, ct := t.ct, rct := t.rct, bs := t.bs,
    obuf := t.obuf }

/-- A micro step from `s` that completes writes results only, and fails with a failure code only. -/
def StepEnd.Framed (s : State) : StepEnd → Prop
  | .ok t => t = s.withResults t
  | .fail e t => e ≠ .ok ∧ t = s.withResults t
  | .fault _ => True

theorem State.eq_withResults_trans {s t v : State} (hst : t = s.withResults t) (htv : v = t.withResults v) :
    v = s.withResults v :=
  htv.trans (congrArg (State.withResults · v) hst :)

theorem StepEnd.Framed.of_start {s t : State} {m : StepEnd} (h : t = s.withResults t) (hm : m.Framed t) :
    m.Framed s := by
  cases m with
  | ok v => exact State.eq_withResults_trans h hm
  | fail e v => exact ⟨hm.1, State.eq_withResults_trans h hm.2⟩
  | fault f => trivial

theorem StepEnd.Framed.andThen {s : State} {m : StepEnd} {g : State → StepEnd} (hm : m.Framed s)
    (hg : ∀ t, (g t).Framed t) : (m.andThen g).Framed s := by
  cases m with
  | ok t => exact (hg t).of_start hm
  | fail e t => exact hm
  | fault f => trivial

theorem tallyBody_framed (s : State) : (tallyBody s).Framed s := by
  rcases tallyBody_cases s with ⟨-, h⟩ | ⟨-, bs, -, h⟩ | ⟨-, f, -, h⟩ <;> rw [h]
  · exact ⟨by decide, rfl⟩
  · exact rfl
  · trivial

theorem buildBody_framed (s : State) : (buildBody s).Framed s := by
  rcases buildBody_cases s with ⟨-, h⟩ | ⟨-, h⟩ <;> rw [h]
  · exact ⟨by decide, rfl⟩
  · exact rfl

theorem buildOrBypass_framed (s : State) : (buildOrBypass s).Framed s := by
  unfold buildOrBypass
  split
  · exact rfl
  · exact buildBody_framed s

theorem genBody_framed (s : State) : (genBody s).Framed s := by
  rcases genBody_cases s with ⟨l, -, h⟩ | ⟨-, h⟩ <;> rw [h]
  · exact rfl
  · trivial

theorem substBody_framed (s : State) : (substBody s).Framed s := by
  rcases substBody_cases s with ⟨y, -, h⟩ | h | h | ⟨a, -, -, -, h⟩ <;> rw [h]
  · exact rfl
  · exact ⟨by decide, rfl⟩
  · exact ⟨by decide, rfl⟩
  · trivial

theorem packBody_framed (s : State) : (packBody s).Framed s := by
  rcases packBody_cases s with ⟨-, h⟩ | ⟨-, -, h⟩ <;> rw [h]
  · exact rfl
  · exact ⟨by decide, rfl⟩

theorem encodeBody_framed (s : State) : (encodeBody s).Framed s :=
  .of_start rfl (((((tallyBody_framed (s.setObuf [])).andThen buildOrBypass_framed).andThen genBody_framed).andThen
    substBody_framed).andThen packBody_framed)

/-- A framed command changes results, ERR and SEQ only, and ends with OK exactly when its body is done. -/
theorem StepEnd.Framed.finish {s t : State} {m : StepEnd} (hm : m.Framed s) (h : m.finish = .next t) :
    t = (s.withResults t).endWith t.err ∧ (t.err = .ok → ∃ v, m = .ok v ∧ t = v.endWith .ok) := by
  rcases StepEnd.finish_next h with ⟨v, rfl, rfl⟩ | ⟨e, v, rfl, rfl⟩
  · exact ⟨congrArg (State.endWith · .ok) hm, fun _ => ⟨v, rfl, rfl⟩⟩
  · exact ⟨congrArg (State.endWith · e) hm.2, fun hok => absurd hok hm.1⟩

/-! ### Every command's sources and frame (rules R82, R209) -/

/-- Settles O54: each command's body is, from states that agree on its sources, one computation whose result replaces
the destinations. -/
theorem commandsReadTheirSources : Obligations.CommandsReadTheirSources := by
  unfold Obligations.CommandsReadTheirSources
  intro s u t
  refine ⟨?tally, ?build, ?gen, ?subst, ?pack, ?unpack, ?pmatch, ?encode, ?decode⟩
  case tally => exact fun hin => StepEnd.finish_of_mapState (tallyBody_of_sameInput hin) fun _ _ => rfl
  case build => exact fun hft => StepEnd.finish_of_mapState (buildBody_of_ft hft) fun _ _ => rfl
  case gen => exact fun hn hr => StepEnd.finish_of_mapState (genBody_of_tree hn hr) fun _ _ => rfl
  case subst => exact fun hin hct => StepEnd.finish_of_mapState (substBody_of_sameInput hin hct) fun _ _ => rfl
  case pack => exact fun hp hbs => StepEnd.finish_of_mapState (packBody_of_bs hp hbs) fun _ _ => rfl
  case unpack => exact fun hin => StepEnd.finish_of_mapState (unpackBody_of_sameInput hin) fun _ _ => rfl
  case pmatch => exact fun hp hbs hrct => StepEnd.finish_of_mapState (matchBody_of_bs hp hbs hrct) fun _ _ => rfl
  case encode =>
    intro hin hexec herr
    obtain ⟨v, hv, rfl⟩ := ((encodeBody_framed s).finish hexec).2 herr
    exact congrArg StepEnd.finish (encodeBody_of_sameInput hin hv)
  case decode => exact fun hin hrct => StepEnd.finish_of_mapState (decodeBody_of_sameInput hin hrct) fun _ _ => rfl

/-- A completed command whose end, from its own start, is the state `v`. -/
theorem frame_of_exec {o : Host.Outcome State Fault Refusal} {s t v : State} (h : o = .next t) (hv : o = .next v)
    (hibuf : v.ibuf = s.ibuf) : (∀ a, t.ibuf.read a = s.ibuf.read a) ∧ t = v := by
  obtain rfl : t = v := Host.Outcome.next.inj (h.symm.trans hv)
  exact ⟨fun _ => hibuf ▸ rfl, rfl⟩

/-- Settles O53: a state agrees with itself on every command's sources, so O54 gives each frame but those of ENCODE,
whose failures O54 leaves out, and of CLR. -/
theorem commandFrames : Obligations.CommandFrames := by
  unfold Obligations.CommandFrames
  intro i s t h
  obtain ⟨htally, hbuild, hgen, hsubst, hpack, hunpack, hmatch, -, hdecode⟩ := commandsReadTheirSources s s t
  cases i with
  | tally => exact frame_of_exec h (htally (.refl s) h) rfl
  | build => exact frame_of_exec h (hbuild rfl h) rfl
  | gen => exact frame_of_exec h (hgen rfl rfl h) rfl
  | subst => exact frame_of_exec h (hsubst (.refl s) rfl h) rfl
  | pack => exact frame_of_exec h (hpack rfl rfl h) rfl
  | unpack => exact frame_of_exec h (hunpack (.refl s) h) rfl
  | pmatch => exact frame_of_exec h (hmatch rfl rfl rfl h) rfl
  | encode => exact frame_of_exec h (h.trans (congrArg _ ((encodeBody_framed s).finish h).1)) rfl
  | decode => exact frame_of_exec h (hdecode (.refl s) rfl h) rfl
  | clr =>
    cases h
    exact ⟨fun _ => rfl, rfl, rfl, rfl, rfl, rfl⟩

end Sys2Proof.Machine

/-! Proofs for the family 40_frequency_table: TALLY counts the symbols of its input, in whatever order they stand. -/

namespace Sys2Proof.Machine

/-! ### What the tally holds at each symbol (rules R101, R104) -/

theorem look_countOne (f : Table Nat) (b c : Byte) :
    (countOne f b).look c = f.look c + if b = c then 1 else 0 := by
  rw [countOne, Table.look_put]
  by_cases h : c = b
  · simp [h]
  · simp [h, Ne.symm h]

theorem look_foldl_countOne (bs : List Byte) (f : Table Nat) (c : Byte) :
    (bs.foldl countOne f).look c = f.look c + bs.count c := by
  induction bs generalizing f with
  | nil => rfl
  | cons b bs ih => simp [ih, look_countOne, List.count_cons, Nat.add_assoc, Nat.add_comm (bs.count c)]

@[simp] theorem look_countAll (bs : List Byte) (c : Byte) : (countAll bs).look c = bs.count c := by
  rw [countAll, look_foldl_countOne, Table.look_const, Nat.zero_add]

theorem countAll_perm {bs cs : List Byte} (h : bs.Perm cs) : countAll bs = countAll cs :=
  Table.ext_look fun b => by rw [look_countAll, look_countAll, h.count_eq b]

/-- Each present symbol is one of the bytes counted, so there are no more of them than bytes. -/
theorem present_countAll_length_le (bs : List Byte) : (present (countAll bs)).length ≤ bs.length := by
  have hnodup : (present (countAll bs)).Nodup := allSymbols_nodup.filter _
  have hsub : present (countAll bs) ⊆ bs := fun b hb => by
    rw [mem_present, look_countAll] at hb
    exact List.count_pos_iff.1 (Nat.pos_of_ne_zero hb)
  exact (hnodup.subperm hsub).length_le

/-! ### TALLY on an input that IBUF cannot hold, and on a written one (rule R101) -/

theorem tallyBody_of_capacity {s : State} (h : s.params.ibufcap < s.ilen) :
    tallyBody s = .fail .capacityExceeded (s.setFt (Table.const 0)) := if_pos h

theorem tallyBody_of_inputIs {s : State} {bs : List Byte} (hcap : s.ilen ≤ s.params.ibufcap) (h : InputIs s bs) :
    tallyBody s = .ok (s.setFt (countAll bs)) := by
  rw [tallyBody, if_neg hcap.not_gt, readRun_of_inputIs h]

theorem exec_tally_of_inputIs {s : State} {bs : List Byte} (hcap : s.ilen ≤ s.params.ibufcap) (h : InputIs s bs) :
    exec .tally s = .next ((s.setFt (countAll bs)).endWith .ok) :=
  congrArg StepEnd.finish (tallyBody_of_inputIs hcap h)

/-- Settles O16: the table after success is `countAll` of the input's bytes. -/
theorem tallyCountsSymbols : Obligations.TallyCountsSymbols := by
  unfold Obligations.TallyCountsSymbols
  refine ⟨rfl, fun s => ⟨fun h => congrArg StepEnd.finish (tallyBody_of_capacity h), fun bs hcap hin => ?_⟩⟩
  have hlen : s.ilen = bs.length := hin.1
  refine ⟨countAll bs, exec_tally_of_inputIs hcap hin, look_countAll bs, (sum_look_countAll bs).trans hlen.symm, ?_⟩
  exact le_min (hlen ▸ present_countAll_length_le bs) (present_length_le _)

/-- Settles O17: permuted inputs have the same counts, and TALLY's table is made from its input alone. -/
theorem tallyIgnoresOrder : Obligations.TallyIgnoresOrder := by
  unfold Obligations.TallyIgnoresOrder
  intro s u bs cs hs hu hperm hscap hucap
  exact ⟨countAll bs, exec_tally_of_inputIs hscap hs, countAll_perm hperm ▸ exec_tally_of_inputIs hucap hu⟩

end Sys2Proof.Machine

/-! Proofs for the family 41_tree_builder: the queue's order and its extraction, and the tree BUILD makes with them. -/

namespace Sys2Proof.Machine

/-! ### The queue's order (rule R112) -/

/-- What the queue sorts an entry by (rule R112): frequency first, index second. -/
def rank (ns : List Node) (k : Nat) : Nat ×ₗ Nat := toLex (freqAt ns k, k)

theorem rank_injective (ns : List Node) : Function.Injective (rank ns) := fun _ _ h =>
  congrArg Prod.snd (toLex.injective h)

theorem before_iff {ns : List Node} {j k : Nat} :
    before ns j k = true ↔ freqAt ns j < freqAt ns k ∨ (freqAt ns j = freqAt ns k ∧ j < k) := by
  simp [before]

/-- The order is the linear one of `rank`, so it inherits that order's laws. -/
theorem before_iff_rank {ns : List Node} {j k : Nat} : before ns j k = true ↔ rank ns j < rank ns k := by
  rw [before_iff, rank, rank, Prod.Lex.toLex_lt_toLex]

theorem before_eq_false_iff_rank {ns : List Node} {j k : Nat} : before ns j k = false ↔ rank ns k ≤ rank ns j := by
  rw [← Bool.not_eq_true, before_iff_rank, not_lt]

/-- Settles O22: the ranks are linearly ordered, and different entries have different ranks. -/
theorem queueOrderIsStrictTotal : Obligations.QueueOrderIsStrictTotal := by
  unfold Obligations.QueueOrderIsStrictTotal
  refine fun ns => ⟨fun j k => before_iff, fun j => before_eq_false_iff_rank.2 le_rfl,
    fun j k l hjk hkl => ?_, fun j k hne => ?_⟩
  · exact before_iff_rank.2 ((before_iff_rank.1 hjk).trans (before_iff_rank.1 hkl))
  · rw [before_iff_rank, before_eq_false_iff_rank]
    exact ⟨le_of_lt, fun h => h.lt_of_ne fun he => hne (rank_injective ns he)⟩

/-! ### The queue's extraction (rule R113) -/

/-- Entry `m` of the queue `q` comes before every other one. -/
structure IsFirst (ns : List Node) (q : List Nat) (m : Nat) : Prop where
  mem : m ∈ q
  first : ∀ j ∈ q, j ≠ m → before ns m j = true

theorem isFirst_iff_rank {ns : List Node} {q : List Nat} {m : Nat} :
    IsFirst ns q m ↔ m ∈ q ∧ ∀ j ∈ q, rank ns m ≤ rank ns j := by
  refine ⟨fun h => ⟨h.mem, fun j hj => ?_⟩, fun ⟨hm, hle⟩ => ⟨hm, fun j hj hne => ?_⟩⟩
  · rcases eq_or_ne j m with rfl | hne
    · exact le_rfl
    · exact (before_iff_rank.1 (h.first j hj hne)).le
  · exact before_iff_rank.2 ((hle j hj).lt_of_ne fun he => hne (rank_injective ns he).symm)

theorem IsFirst.unique {ns : List Node} {q : List Nat} {m m' : Nat} (h : IsFirst ns q m) (h' : IsFirst ns q m') :
    m = m' := by
  obtain ⟨hm, hle⟩ := isFirst_iff_rank.1 h
  obtain ⟨hm', hle'⟩ := isFirst_iff_rank.1 h'
  exact rank_injective ns (le_antisymm (hle m' hm') (hle' m hm))

theorem IsFirst.perm {ns : List Node} {q q' : List Nat} {m : Nat} (h : IsFirst ns q m) (hq : q.Perm q') :
    IsFirst ns q' m :=
  ⟨hq.mem_iff.1 h.mem, fun j hj => h.first j (hq.mem_iff.2 hj)⟩

theorem pqLeast_le (ns : List Node) (j : Nat) (q : List Nat) :
    ∀ k ∈ j :: q, rank ns (pqLeast ns j q) ≤ rank ns k := by
  induction q generalizing j with
  | nil => simp [pqLeast]
  | cons i q ih =>
    intro k hk
    simp only [pqLeast]
    split
    · next hij =>
      rcases List.mem_cons.1 hk with rfl | hk
      · exact (ih i i (by simp)).trans (before_iff_rank.1 hij).le
      · exact ih i k hk
    · next hij =>
      have hji : rank ns j ≤ rank ns i := before_eq_false_iff_rank.1 (Bool.not_eq_true _ ▸ hij)
      rcases List.mem_cons.1 hk with rfl | hk
      · exact ih k k (by simp)
      · rcases List.mem_cons.1 hk with rfl | hk
        · exact (ih j j (by simp)).trans hji
        · exact ih j k (List.mem_cons_of_mem _ hk)

/-- `extract_min` takes out the first entry in the order, wherever it stands in the queue (rule R113). -/
theorem pqExtractMin_eq_some_iff {ns : List Node} {q q' : List Nat} {m : Nat} :
    pqExtractMin ns q = some (m, q') ↔ IsFirst ns q m ∧ q' = q.erase m := by
  cases q with
  | nil =>
    constructor
    · rintro ⟨⟩
    · rintro ⟨hm, -⟩
      cases hm.mem
  | cons i q =>
    have hleast : IsFirst ns (i :: q) (pqLeast ns i q) := isFirst_iff_rank.2 ⟨pqLeast_mem ns i q, pqLeast_le ns i q⟩
    constructor
    · rintro ⟨⟩
      exact ⟨hleast, rfl⟩
    · rintro ⟨hm, rfl⟩
      rw [pqExtractMin, hleast.unique hm]

theorem exists_isFirst (ns : List Node) {q : List Nat} (h : q ≠ []) : ∃ m, IsFirst ns q m := by
  cases q with
  | nil => exact absurd rfl h
  | cons i q => exact ⟨_, (pqExtractMin_eq_some_iff.1 rfl).1⟩

/-- Settles O23: the first entry is the same in every arrangement of the queue. -/
theorem extractMinIsFirst : Obligations.ExtractMinIsFirst := by
  unfold Obligations.ExtractMinIsFirst
  intro ns q hq
  obtain ⟨m, hm⟩ := exists_isFirst ns hq
  exact ⟨m, pqExtractMin_eq_some_iff.2 ⟨hm, rfl⟩, hm.mem, hm.first,
    fun q' hperm => pqExtractMin_eq_some_iff.2 ⟨hm.perm hperm, rfl⟩⟩

/-! ### How BUILD ends (rules R115, R121) -/

theorem ftEmpty_eq_false_iff (f : Table Nat) : ftEmpty f = false ↔ ∃ b, f.look b ≠ 0 := by
  rw [← Bool.not_eq_true, ftEmpty_iff, not_forall]

theorem exec_build_of_empty {s : State} (h : ∀ b, s.ft.look b = 0) :
    exec .build s = .next ((s.setTree [] 0 0).endWith .emptyInput) :=
  congrArg StepEnd.finish (if_pos ((ftEmpty_iff s.ft).2 h))

theorem exec_build_of_present {s : State} (h : ∃ b, s.ft.look b ≠ 0) :
    exec .build s =
      .next ((s.setTree (buildTree s.ft).1 (buildTree s.ft).2.1 (buildTree s.ft).2.2).endWith .ok) :=
  congrArg StepEnd.finish (if_neg (Bool.not_eq_true _ ▸ (ftEmpty_eq_false_iff s.ft).2 h))

/-- Settles O19, by the failing end of BUILD. -/
theorem buildRejectsEmptyTable : Obligations.BuildRejectsEmptyTable := by
  unfold Obligations.BuildRejectsEmptyTable
  exact ⟨rfl, fun s h => exec_build_of_empty h⟩

/-- Settles O24: which of BUILD's two ends it is, and the tree made, are read from FT alone. -/
theorem buildDependsOnFtAlone : Obligations.BuildDependsOnFtAlone := by
  unfold Obligations.BuildDependsOnFtAlone
  intro s u hft
  by_cases h : ∃ b, s.ft.look b ≠ 0
  · exact ⟨_, _, _, _, exec_build_of_present h, hft ▸ exec_build_of_present (hft ▸ h)⟩
  · have hs : ∀ b, s.ft.look b = 0 := by simpa using h
    exact ⟨_, _, _, _, exec_build_of_empty hs, exec_build_of_empty (hft ▸ hs)⟩

/-! ### The tree keeps the leaves (rules R116, R120) -/

/-- What every combine step keeps, the loop of rule R115 keeps. -/
theorem combineAll_induction {P : Builder → Prop} (hstep : ∀ b b', P b → combine b = some b' → P b') (n : Nat)
    {b : Builder} (hb : P b) : P (combineAll n b) := by
  induction n generalizing b with
  | zero => exact hb
  | succ n ih =>
    unfold combineAll
    split
    · exact hb
    · next b' h => exact ih (hstep b b' hb h)

/-- A combine step joins the queue's first entry and the first of the others under a new slot (rule R117). -/
theorem combine_eq_some {b b' : Builder} (h : combine b = some b') :
    ∃ l r, IsFirst b.nodes b.pq l ∧ IsFirst b.nodes (b.pq.erase l) r ∧
      b' = addNode ⟨b.nodes, (b.pq.erase l).erase r⟩ (innerNode (freqAt b.nodes l + freqAt b.nodes r) l r) := by
  unfold combine at h
  split at h
  · cases h
  next l q hl =>
  split at h
  · cases h
  next r q' hr =>
  obtain ⟨hfirst, rfl⟩ := pqExtractMin_eq_some_iff.1 hl
  obtain ⟨hsecond, rfl⟩ := pqExtractMin_eq_some_iff.1 hr
  exact ⟨l, r, hfirst, hsecond, (Option.some.inj h).symm⟩

theorem leavesOf_prefix_buildTree (f : Table Nat) : leavesOf f <+: (buildTree f).1 := by
  refine combineAll_induction (P := fun b => leavesOf f <+: b.nodes) (fun b b' hb h => ?_) _ ?_
  · obtain ⟨l, r, -, -, rfl⟩ := combine_eq_some h
    exact hb.trans (List.prefix_append _ _)
  · rw [leafPhase_eq]

/-- Slot `k` of the tree, below NLEAF, is the leaf of the `k`-th present symbol (rule R116). -/
theorem nodeAt_buildTree_of_leaf {f : Table Nat} {k : Nat} (hk : k < (present f).length) :
    nodeAt (buildTree f).1 k = leafNode (present f)[k] (f.look (present f)[k]) := by
  obtain ⟨inner, hinner⟩ := leavesOf_prefix_buildTree f
  rw [← nodeAt_leavesOf hk, ← hinner, nodeAt, nodeAt, List.getElem?_append_left (by simpa using hk)]

/-- Settles O20: the tree is `buildTree_isTree`'s, and below NLEAF it holds the leaf phase's slots. -/
theorem buildGivesTheTree : Obligations.BuildGivesTheTree := by
  unfold Obligations.BuildGivesTheTree
  intro s h
  obtain ⟨htree, hnleaf, hroot, -⟩ := buildTree_isTree h
  refine ⟨_, _, _, exec_build_of_present h, htree, hnleaf, fun k hk => ?_, fun b hb => ?_, hroot⟩
  · rw [nodeAt_buildTree_of_leaf (hnleaf ▸ hk)]
    rfl
  · obtain ⟨k, hk, rfl⟩ := List.getElem_of_mem (mem_present.2 hb)
    exact ⟨k, hnleaf ▸ hk, by rw [nodeAt_buildTree_of_leaf hk, leafNode]⟩

/-! ### Each internal slot combines the two first (rule R117) -/

/-- Internal slot `k` is made from the first two, in the queue's order, of the slots that had no parent yet. -/
def CombinesFirst (ns : List Node) (nleaf k : Nat) : Prop :=
  ∃ a b, ns[k]? = some (innerNode (freqAt ns a + freqAt ns b) a b) ∧ a < k ∧ b < k ∧
    NoParentBelow ns nleaf k a ∧ NoParentBelow ns nleaf k b ∧ before ns a b = true ∧
    ∀ j, j < k → j ≠ a → j ≠ b → NoParentBelow ns nleaf k j → before ns a j = true ∧ before ns b j = true

theorem before_append {ns : List Node} (n : Node) {j k : Nat} (hj : j < ns.length) (hk : k < ns.length) :
    before (ns ++ [n]) j k = before ns j k := by
  rw [before, before, freqAt_append_left n hj, freqAt_append_left n hk]

theorem noParentBelow_append {ns : List Node} (n : Node) {nleaf k j : Nat} (hk : k ≤ ns.length) :
    NoParentBelow (ns ++ [n]) nleaf k j ↔ NoParentBelow ns nleaf k j :=
  forall₃_congr fun m _ hm => by rw [nodeAt_append_left n (hm.trans_le hk)]

/-- A new slot leaves the older ones as they were made: only slots below a slot bear on it. -/
theorem CombinesFirst.append {ns : List Node} {nleaf k : Nat} (h : CombinesFirst ns nleaf k) (n : Node)
    (hk : k < ns.length) : CombinesFirst (ns ++ [n]) nleaf k := by
  obtain ⟨a, b, hslot, ha, hb, hpa, hpb, hab, hrest⟩ := h
  have halt := ha.trans hk
  have hblt := hb.trans hk
  refine ⟨a, b, ?_, ha, hb, (noParentBelow_append n hk.le).2 hpa, (noParentBelow_append n hk.le).2 hpb,
    (before_append n halt hblt).trans hab, fun j hj hja hjb hpj => ?_⟩
  · rw [List.getElem?_append_left hk, hslot, freqAt_append_left n halt, freqAt_append_left n hblt]
  · rw [before_append n halt (hj.trans hk), before_append n hblt (hj.trans hk)]
    exact hrest j hj hja hjb ((noParentBelow_append n hk.le).1 hpj)

/-- In a forest the slots without a parent are the queue's entries. -/
theorem Builder.Forest.noParentBelow_iff {nleaf total : Nat} {b : Builder} (hb : b.Forest nleaf total) {j : Nat}
    (hj : j < b.nodes.length) : NoParentBelow b.nodes nleaf b.nodes.length j ↔ j ∈ b.pq := by
  have hcount : j ∈ b.pq ↔ parentsOf b.nodes j = [] := by
    rw [← List.length_eq_zero_iff, ← parentCount_eq, hb.parents]
    simp [hj]
  have hinner : ∀ m, m < b.nodes.length →
      ((nodeAt b.nodes m).hasChild j = true ↔
        nleaf ≤ m ∧ ((nodeAt b.nodes m).left = j ∨ (nodeAt b.nodes m).right = j)) := fun m hm => by
    rw [Node.hasChild_iff, (hb.slots m hm).leaf, decide_eq_false_iff_not, not_lt]
  rw [hcount, List.eq_nil_iff_forall_not_mem]
  refine forall_congr' fun m => ?_
  rw [mem_parentsOf]
  constructor
  · rintro h ⟨hm, hchild⟩
    obtain ⟨hge, hlr⟩ := (hinner m hm).1 hchild
    exact hlr.elim (h hge hm).1 (h hge hm).2
  · intro h hge hm
    exact not_or.1 fun hlr => h ⟨hm, (hinner m hm).2 ⟨hge, hlr⟩⟩

/-- The slot a combine step adds joins the first two of the forest's slots without a parent. -/
theorem Builder.Forest.combinesFirst {nleaf total : Nat} {b : Builder} (hb : b.Forest nleaf total) {l r : Nat}
    (hl : IsFirst b.nodes b.pq l) (hr : IsFirst b.nodes (b.pq.erase l) r) :
    CombinesFirst (b.nodes ++ [innerNode (freqAt b.nodes l + freqAt b.nodes r) l r]) nleaf b.nodes.length := by
  obtain ⟨hrl, hrq⟩ := hb.nodup.mem_erase_iff.1 hr.mem
  have hllt := hb.queued l hl.mem
  have hrlt := hb.queued r hrq
  refine ⟨l, r, ?_, hllt, hrlt, ?_, ?_, ?_, fun j hj hjl hjr hpj => ?_⟩
  · rw [List.getElem?_concat_length, freqAt_append_left _ hllt, freqAt_append_left _ hrlt]
  · exact (noParentBelow_append _ le_rfl).2 ((hb.noParentBelow_iff hllt).2 hl.mem)
  · exact (noParentBelow_append _ le_rfl).2 ((hb.noParentBelow_iff hrlt).2 hrq)
  · rw [before_append _ hllt hrlt]
    exact hl.first r hrq hrl
  · have hjq : j ∈ b.pq := (hb.noParentBelow_iff hj).1 ((noParentBelow_append _ le_rfl).1 hpj)
    rw [before_append _ hllt hj, before_append _ hrlt hj]
    exact ⟨hl.first j hjq hjl, hr.first j (hb.nodup.mem_erase_iff.2 ⟨hjl, hjq⟩) hjr⟩

/-- Every internal slot so far combines the two first. -/
def Builder.Greedy (nleaf : Nat) (b : Builder) : Prop :=
  ∀ k, nleaf ≤ k → k < b.nodes.length → CombinesFirst b.nodes nleaf k

theorem Builder.Greedy.combine {nleaf total : Nat} {b b' : Builder} (hforest : b.Forest nleaf total)
    (hb : b.Greedy nleaf) (h : combine b = some b') : b'.Greedy nleaf := by
  obtain ⟨l, r, hl, hr, rfl⟩ := combine_eq_some h
  intro k hge hk
  rcases Nat.lt_succ_iff_lt_or_eq.1 (by simpa [addNode] using hk) with hlt | rfl
  · exact (hb k hge hlt).append _ hlt
  · exact hforest.combinesFirst hl hr

theorem buildTree_combinesFirst {f : Table Nat} (h : ∃ b, f.look b ≠ 0) {k : Nat} (hge : (buildTree f).2.1 ≤ k)
    (hk : k < (buildTree f).1.length) : CombinesFirst (buildTree f).1 (buildTree f).2.1 k := by
  have hnleaf : (buildTree f).2.1 = (present f).length := (buildTree_isTree h).2.1
  have hstart : (leafPhase f).Greedy (present f).length := fun k hge hk => by
    rw [leafPhase_eq, leavesOf_length] at hk
    omega
  have hloop := combineAll_induction
    (P := fun b => b.Forest (present f).length (allSymbols.map f.look).sum ∧ b.Greedy (present f).length)
    (fun _ _ ⟨hforest, hgreedy⟩ hc => ⟨hforest.combine hc, hgreedy.combine hforest hc⟩)
    (leafPhase f).pq.length ⟨leafPhase_forest (present_length_pos h), hstart⟩
  rw [hnleaf] at hge ⊢
  exact hloop.2 k hge hk

/-- Settles O21: BUILD succeeds on a table with a present symbol only, and there with the loop's nodes. -/
theorem buildCombinesTheTwoFirst : Obligations.BuildCombinesTheTwoFirst := by
  unfold Obligations.BuildCombinesTheTwoFirst
  intro s t hexec hok k hge hk
  by_cases h : ∃ b, s.ft.look b ≠ 0
  · rw [exec_build_of_present h] at hexec
    cases hexec
    exact buildTree_combinesFirst h hge hk
  · rw [exec_build_of_empty (by simpa using h)] at hexec
    cases hexec
    cases hok

end Sys2Proof.Machine

/-! Proofs for the family 42_code_table: GEN's tables for the empty tree, the lone leaf and the trees with an internal
root. -/

namespace Sys2Proof.Machine

/-! ### What GEN leaves (rules R131 to R133) -/

/-- Where the walk ends, GEN completes with the tables of its assignments. -/
theorem exec_gen_of_treeCodes {s : State} {l : List (Byte × Bits)} (h : treeCodes s.nodes s.root = some l) :
    exec .gen s = .next ((s.setCodes (codesOf l).ct (codesOf l).rct).endWith .ok) :=
  congrArg StepEnd.finish (show genBody s = .ok (s.setCodes (codesOf l).ct (codesOf l).rct) by rw [genBody, h])

theorem treeCodes_of_leaf_root {ns : List Node} {root : Nat} {n : Node} (hn : ns[root]? = some n)
    (hleaf : n.leaf = true) : treeCodes ns root = some [(n.sym, [false])] := by
  have hne : ns ≠ [] := fun h => by simp [h] at hn
  rw [treeCodes, if_neg hne, hn]
  exact if_pos hleaf

/-- Settles O25: the empty tree has no assignments. -/
theorem genOfEmptyTree : Obligations.GenOfEmptyTree := by
  unfold Obligations.GenOfEmptyTree
  intro s hs
  have hcodes : treeCodes s.nodes s.root = some [] := if_pos (List.length_eq_zero_iff.1 hs)
  exact ⟨_, _, exec_gen_of_treeCodes hcodes, Table.look_const [], rctLook_nil⟩

/-- Settles O26: the tables hold one assignment, the string "0" for the leaf's symbol. -/
theorem genOfLoneLeaf : Obligations.GenOfLoneLeaf := by
  unfold Obligations.GenOfLoneLeaf
  intro s n hn hleaf
  have hone : codesOf [(n.sym, [false])] = assign noCodes (n.sym, [false]) := rfl
  refine ⟨_, _, exec_gen_of_treeCodes (treeCodes_of_leaf_root hn hleaf), ?_, fun b hb => ?_, ?_, fun p hp => ?_⟩ <;>
    rw [hone]
  · simp
  · rw [assign_ct_look, if_neg hb]
    exact Table.look_const [] b
  · simp
  · rw [rctLook_assign, if_neg hp]
    exact rctLook_nil p

/-! ### CT holds the assignments of a code, and RCT one entry for each coded symbol (rules R35, R37) -/

theorem IsCode.look_eq_iff {l : List (Byte × Bits)} (h : IsCode l) {b : Byte} {p : Bits} (hp : p ≠ []) :
    (codesOf l).ct.look b = p ↔ (b, p) ∈ l := by
  constructor
  · rintro rfl
    exact mem_of_codesOf_look hp
  · exact fun hmem => (h.look hmem).1

theorem IsCode.look_ne_nil_iff {l : List (Byte × Bits)} (h : IsCode l) {b : Byte} :
    (codesOf l).ct.look b ≠ [] ↔ ∃ p, (b, p) ∈ l := by
  constructor
  · exact fun hne => ⟨_, mem_of_codesOf_look hne⟩
  · rintro ⟨p, hp⟩
    rw [(h.look hp).1]
    exact h.nonempty _ hp

/-- An assignment replaces any earlier entry of its code, so RCT holds no code twice. -/
theorem codesOf_rct_keys_nodup (l : List (Byte × Bits)) : ((codesOf l).rct.map Prod.fst).Nodup := by
  induction l using List.reverseRecOn with
  | nil => exact List.nodup_nil
  | append_singleton l e ih =>
    have hkept : (((codesOf l).rct.filter fun a => decide (a.1 ≠ e.2)).map Prod.fst).Nodup :=
      ih.sublist (List.filter_sublist.map _)
    rw [codesOf_concat, assign, rctAssign, List.map_append, List.nodup_append']
    exact ⟨hkept, List.nodup_singleton _, by simp⟩

/-- Where no code stands twice, every entry is the one its code looks up. -/
theorem rctLook_eq_some_iff {r : List (Bits × Byte)} (h : (r.map Prod.fst).Nodup) {c : Bits} {b : Byte} :
    rctLook r c = some b ↔ (c, b) ∈ r := by
  refine ⟨mem_of_rctLook, fun hmem => ?_⟩
  induction r with
  | nil => cases hmem
  | cons e r ih =>
    rw [List.map_cons, List.nodup_cons] at h
    obtain ⟨hfresh, hrest⟩ := h
    rw [rctLook]
    rcases List.mem_cons.1 hmem with rfl | hmem
    · exact if_pos rfl
    · have hne : e.1 ≠ c := fun hc => hfresh (hc ▸ List.mem_map_of_mem (f := Prod.fst) hmem)
      rw [if_neg hne]
      exact ih hrest hmem

/-- The symbols that have a code, ascending. -/
def codedSymbols (ct : Table Bits) : List Byte := allSymbols.filter fun b => decide (ct.look b ≠ [])

theorem mem_codedSymbols {ct : Table Bits} {b : Byte} : b ∈ codedSymbols ct ↔ ct.look b ≠ [] := by simp [codedSymbols]

theorem codedSymbols_nodup (ct : Table Bits) : (codedSymbols ct).Nodup := allSymbols_nodup.filter _

/-- An inverse table that holds no code twice has one entry for each coded symbol, in some order. -/
theorem InverseTables.perm_codedSymbols {ct : Table Bits} {r : List (Bits × Byte)} (h : InverseTables ct r)
    (hkeys : (r.map Prod.fst).Nodup) : r.Perm ((codedSymbols ct).map fun b => (ct.look b, b)) := by
  have hinj : Function.Injective fun b => (ct.look b, b) := fun _ _ hab => congrArg Prod.snd hab
  refine (List.perm_ext_iff_of_nodup hkeys.of_map ((codedSymbols_nodup ct).map hinj)).2 fun ⟨c, b⟩ => ?_
  rw [← rctLook_eq_some_iff hkeys, h c b, List.mem_map]
  constructor
  · rintro ⟨hne, rfl⟩
    exact ⟨b, mem_codedSymbols.2 hne, rfl⟩
  · rintro ⟨a, ha, hab⟩
    obtain ⟨rfl, rfl⟩ := Prod.mk.inj hab
    exact ⟨mem_codedSymbols.1 ha, rfl⟩

theorem InverseTables.length_eq {ct : Table Bits} {r : List (Bits × Byte)} (h : InverseTables ct r)
    (hkeys : (r.map Prod.fst).Nodup) : r.length = (codedSymbols ct).length :=
  (h.perm_codedSymbols hkeys).length_eq.trans (List.length_map _)

/-! ### On a tree exactly the leaves' symbols have codes (rules R33, R131, R134) -/

/-- A node that has slot `k` as a child is internal and has it along one of the two edge labels. -/
theorem Node.exists_child {n : Node} {k : Nat} (h : n.hasChild k = true) : ∃ b, n.leaf = false ∧ n.child b = k := by
  obtain ⟨hleaf, hl | hr⟩ := (Node.hasChild_iff n k).1 h
  · exact ⟨false, hleaf, hl⟩
  · exact ⟨true, hleaf, hr⟩

section
variable {ns : List Node} {nleaf root : Nat}

/-- Every slot is reached from the root: its parent lies above it and is reached, by induction downwards. -/
theorem IsTree.exists_path (h : IsTree ns nleaf root) {k : Nat} (hk : k < ns.length) :
    ∃ p, followPath ns root p = some k := by
  by_cases hroot : k = root
  · exact ⟨[], followPath_nil.2 ⟨hroot ▸ hk, hroot.symm⟩⟩
  have hone : 0 < (parentsOf ns k).length := by
    obtain ⟨-, -, -, -, ⟨-, hparents⟩, -⟩ := h
    rw [← parentCount_eq, hparents k hk, if_neg hroot]
    exact Nat.one_pos
  obtain ⟨j, hj⟩ := List.exists_mem_of_length_pos hone
  obtain ⟨hjlt, hchild⟩ := mem_parentsOf.1 hj
  obtain ⟨b, hleaf, rfl⟩ := Node.exists_child hchild
  have habove := IsTree.child_lt h hjlt hleaf b
  obtain ⟨p, hp⟩ := IsTree.exists_path h hjlt
  exact ⟨p ++ [b], followPath_append.2 ⟨j, hp, followPath_cons.2 ⟨hjlt, hleaf, followPath_nil.2 ⟨hk, rfl⟩⟩⟩⟩
termination_by ns.length - k

theorem IsTree.root_leaf_iff (h : IsTree ns nleaf root) : (nodeAt ns root).leaf = true ↔ nleaf = 1 := by
  rw [IsTree.leaf_iff h (IsTree.root_lt h)]
  obtain ⟨⟨hpos, -, hsize⟩, -, -, -, ⟨hroot, -⟩, -⟩ := h
  omega

/-- A symbol is assigned a code exactly when it stands in a leaf. -/
theorem IsTree.exists_code_iff (h : IsTree ns nleaf root) {l : List (Byte × Bits)} (hl : treeCodes ns root = some l)
    (b : Byte) : (∃ p, (b, p) ∈ l) ↔ ∃ k < nleaf, (nodeAt ns k).sym = b := by
  have hroot := IsTree.root_lt h
  rcases IsTree.treeCodes_cases h hl with ⟨hleaf, rfl⟩ | ⟨-, hmem⟩
  · have hone := (IsTree.root_leaf_iff h).1 hleaf
    obtain rfl : root = 0 := by
      have := (IsTree.leaf_iff h hroot).1 hleaf
      omega
    simp [hone, eq_comm]
  · simp only [hmem]
    constructor
    · rintro ⟨p, k, hp, hleaf, rfl⟩
      exact ⟨k, (IsTree.leaf_iff h (followPath_lt hp)).1 hleaf, rfl⟩
    · rintro ⟨k, hk, rfl⟩
      have hlt : k < ns.length := by
        obtain ⟨⟨-, -, hsize⟩, -⟩ := h
        omega
      obtain ⟨p, hp⟩ := IsTree.exists_path h hlt
      exact ⟨p, k, hp, (IsTree.leaf_iff h hlt).2 hk, rfl⟩

theorem IsTree.codedSymbols_perm (h : IsTree ns nleaf root) {l : List (Byte × Bits)}
    (hl : treeCodes ns root = some l) :
    (codedSymbols (codesOf l).ct).Perm ((List.range nleaf).map fun k => (nodeAt ns k).sym) := by
  have hnodup : ((List.range nleaf).map fun k => (nodeAt ns k).sym).Nodup :=
    List.nodup_range.map_on fun i hi j hj =>
      IsTree.leaf_symbol_injective h (List.mem_range.1 hi) (List.mem_range.1 hj)
  refine (List.perm_ext_iff_of_nodup (codedSymbols_nodup _) hnodup).2 fun b => ?_
  rw [mem_codedSymbols, (IsTree.treeCodes_isCode h hl).look_ne_nil_iff, IsTree.exists_code_iff h hl]
  simp

/-- As many symbols have codes as the tree has leaves, none on the empty tree. -/
theorem TreeInv.codedSymbols_length (h : TreeInv ns nleaf root) {l : List (Byte × Bits)}
    (hl : treeCodes ns root = some l) : (codedSymbols (codesOf l).ct).length = nleaf := by
  rcases h with ⟨rfl, rfl, -⟩ | h
  · cases hl
    rw [List.length_eq_zero_iff, List.eq_nil_iff_forall_not_mem]
    exact fun b hb => mem_codedSymbols.1 hb (Table.look_const [] b)
  · rw [(IsTree.codedSymbols_perm h hl).length_eq, List.length_map, List.length_range]

end

/-- Settles O27: on an internal root GEN's assignments are the paths to the leaves, and CT holds each of them. -/
theorem genCodesAreThePaths : Obligations.GenCodesAreThePaths := by
  unfold Obligations.GenCodesAreThePaths
  intro s hinv hsize
  obtain ⟨l, hl⟩ := Option.ne_none_iff_exists'.1 hinv.treeCodes_ne_none
  refine ⟨_, _, exec_gen_of_treeCodes hl, fun b p hp => ?_⟩
  rw [(hinv.treeCodes_isCode hl).look_eq_iff hp]
  have hsize : 1 < s.nodes.length := hsize
  rcases hinv with ⟨hnil, -, -⟩ | htree
  · simp [hnil] at hsize
  rcases IsTree.treeCodes_cases htree hl with ⟨hleaf, -⟩ | ⟨-, hmem⟩
  · have hone := (IsTree.root_leaf_iff htree).1 hleaf
    obtain ⟨⟨-, -, hlen⟩, -⟩ := htree
    omega
  · simp only [hmem, eq_comm (a := b)]

/-- Settles O28: GEN's assignments make a code that has one entry for each leaf. -/
theorem genTablesArePrefixFree : Obligations.GenTablesArePrefixFree := by
  unfold Obligations.GenTablesArePrefixFree
  intro s hinv
  obtain ⟨l, hl⟩ := Option.ne_none_iff_exists'.1 hinv.treeCodes_ne_none
  have hcode := hinv.treeCodes_isCode hl
  have hinverse := hcode.inverseTables
  have hcount := hinv.codedSymbols_length hl
  exact ⟨_, _, exec_gen_of_treeCodes hl, hcode.prefixFree, hinverse,
    (hinverse.length_eq (codesOf_rct_keys_nodup l)).trans hcount, hcount, hinv.look_length hl⟩

end Sys2Proof.Machine

/-! Proofs for the family 43_bit_packer: SUBST's ends, the packed buffer bit by bit, UNPACK's checks and its payload,
and UNPACK as PACK's inverse. -/

namespace Sys2Proof.Machine

/-! ### SUBST (rules R141, R142) -/

section
variable {s : State}

theorem substBody_of_capacity (h : s.params.ibufcap < s.ilen) : substBody s = .fail .capacityExceeded (s.setBs []) :=
  if_pos h

/-- Once SUBST's loop has passed a coded part of the text whose codes fit, it goes on with the symbols that remain. -/
theorem substLoop_of_prefix {pre : List Byte} (hle : pre.length ≤ s.ilen)
    (hread : ∀ i, i < pre.length → s.ibuf.read i = pre[i]?) (hcoded : AllCoded s.ct pre)
    (hfit : (coded s.ct pre).length ≤ s.params.bscap) :
    substLoop s.ibuf s.ct s.params.bscap s.ilen 0 [] =
      substLoop s.ibuf s.ct s.params.bscap (s.ilen - pre.length) pre.length (coded s.ct pre) := by
  have happend := substLoop_append (cap := s.params.bscap) (s.ilen - pre.length) (i := 0) (x := [])
    (by simpa using hread) hcoded (by simpa using hfit)
  simpa [Nat.add_sub_cancel' hle] using happend

theorem substBody_of_loop_ok (hcap : s.ilen ≤ s.params.ibufcap) {x : Bits}
    (h : substLoop s.ibuf s.ct s.params.bscap s.ilen 0 [] = .ok x) : substBody s = .ok (s.setBs x) := by
  rw [substBody, if_neg hcap.not_gt, h]

theorem substBody_of_loop_err (hcap : s.ilen ≤ s.params.ibufcap) {e : ErrCode}
    (h : substLoop s.ibuf s.ct s.params.bscap s.ilen 0 [] = .error (.err e)) : substBody s = .fail e (s.setBs []) := by
  rw [substBody, if_neg hcap.not_gt, h]

end

/-- Settles O29: the loop passes over the whole text. -/
theorem substConcatenatesCodes : Obligations.SubstConcatenatesCodes := by
  unfold Obligations.SubstConcatenatesCodes
  intro s bs hcap ⟨hlen, hread⟩ hcoded hfit
  refine congrArg StepEnd.finish (substBody_of_loop_ok hcap ?_)
  rw [substLoop_of_prefix hlen.ge hread hcoded hfit, hlen, Nat.sub_self, substLoop]

/-- Settles O30: the loop passes over the coded symbols that fit and ends at the next one, whose code it looks up
before it compares lengths. -/
theorem substFailures : Obligations.SubstFailures := by
  unfold Obligations.SubstFailures
  refine fun s => ⟨fun h => congrArg StepEnd.finish (substBody_of_capacity h), ?_⟩
  intro pre b hcap hlt hread hb hcoded hfit
  obtain ⟨n, hn⟩ : ∃ n, s.ilen - pre.length = n + 1 := ⟨s.ilen - pre.length - 1, by omega⟩
  have hloop := substLoop_of_prefix hlt.le hread hcoded hfit
  rw [hn, substLoop, memRead_of_some hb] at hloop
  refine ⟨fun hnone => ?absent, fun hsome hover => ?full⟩
  case absent => exact congrArg StepEnd.finish (substBody_of_loop_err hcap (hloop.trans (if_pos hnone)))
  case full =>
    exact congrArg StepEnd.finish (substBody_of_loop_err hcap (hloop.trans ((if_neg hsome).trans (if_pos hover))))

/-! ### PACK (rules R145 to R150) -/

theorem packed_of_ne_nil {x : Bits} (h : x ≠ []) :
    packed x = BitVec.ofNat 8 (padLen x.length) :: (List.range (payloadLen x.length)).map (payloadByte x) := if_neg h

theorem packed_length_of_ne_nil {x : Bits} (h : x ≠ []) : (packed x).length = 2 + x.length / 8 := by
  rw [packed_of_ne_nil h, List.length_cons, List.length_map, List.length_range, payloadLen_eq]
  omega

theorem getElem?_packed_payload {x : Bits} (h : x ≠ []) {j : Nat} (hj : j ≤ x.length / 8) :
    (packed x)[1 + j]? = some (payloadByte x j) := by
  have hlt : j < payloadLen x.length := by
    rw [payloadLen_eq]
    omega
  rw [packed_of_ne_nil h, Nat.add_comm, List.getElem?_cons_succ, List.getElem?_map, List.getElem?_range hlt]
  rfl

/-- The header holds the padding length (rule R147). -/
theorem toNat_ofNat_padLen (n : Nat) : (BitVec.ofNat 8 (padLen n)).toNat = padLen n := by
  have hle := (padLen_bounds n).2
  rw [BitVec.toNat_ofNat, Nat.mod_eq_of_lt (by omega)]

/-- Position `p` of payload byte `j` is position `8j + p` of the bit string, or 0 past its end (rule R148). -/
theorem payloadByte_getLsbD (x : Bits) (j : Nat) {p : Nat} (hp : p < 8) :
    (payloadByte x j).getLsbD (7 - p) = x.getD (8 * j + p) false := by
  simp [payloadByte, byteOf_getLsbD _ hp]

theorem exec_pack_of_fits {s : State} (h : s.bs = [] ∨ 2 + s.blen / 8 ≤ s.params.obufcap) :
    exec .pack s = .next ((s.setObuf (packed s.bs)).endWith .ok) := by
  rcases packBody_cases s with ⟨-, hok⟩ | ⟨hne, hover, -⟩
  · exact congrArg StepEnd.finish hok
  · have hfit : 2 + s.bs.length / 8 ≤ s.params.obufcap := h.resolve_left hne
    rw [payloadLen_eq] at hover
    omega

theorem exec_pack_of_capacity {s : State} (hne : s.bs ≠ []) (h : s.params.obufcap < 2 + s.blen / 8) :
    exec .pack s = .next ((s.setObuf []).endWith .capacityExceeded) := by
  rcases packBody_cases s with ⟨hfit, -⟩ | ⟨-, -, hfail⟩
  · have hover : s.params.obufcap < 2 + s.bs.length / 8 := h
    have hfit := hfit.resolve_left hne
    rw [payloadLen_eq] at hfit
    omega
  · exact congrArg StepEnd.finish hfail

theorem blen_eq_zero_iff {s : State} : s.blen = 0 ↔ s.bs = [] := List.length_eq_zero_iff

/-- Settles O31. -/
theorem packOfEmptyString : Obligations.PackOfEmptyString := by
  unfold Obligations.PackOfEmptyString
  intro s h
  have hnil := blen_eq_zero_iff.1 h
  rw [exec_pack_of_fits (.inl hnil), hnil]
  rfl

/-- Settles O32: the header is the padding length, and the payload's bits are those of the bit string. -/
theorem packWritesHeaderAndPayload : Obligations.PackWritesHeaderAndPayload := by
  unfold Obligations.PackWritesHeaderAndPayload
  intro s h
  have hne : s.bs ≠ [] := mt blen_eq_zero_iff.2 h
  refine ⟨fun hfit => ?fits, exec_pack_of_capacity hne⟩
  case fits =>
    refine ⟨_, _, packed_of_ne_nil hne ▸ exec_pack_of_fits (.inr hfit), ?_⟩
    rw [toNat_ofNat_padLen]
    refine ⟨rfl, (padLen_bounds _).1, (padLen_bounds _).2, by simp [payloadLen_eq, State.blen], ?_⟩
    intro j hj p hp
    refine ⟨payloadByte s.bs j, ?_, payloadByte_getLsbD s.bs j hp⟩
    rw [List.getElem?_eq_getElem hj, List.getElem_map, List.getElem_range]

/-! ### UNPACK's checks (rules R153 to R157) -/

section
variable {s : State}

theorem exec_unpack_of_capacity (h : s.params.ibufcap < s.ilen) :
    exec .unpack s = .next ((s.setBs []).endWith .capacityExceeded) :=
  congrArg StepEnd.finish (if_pos h)

theorem exec_unpack_of_empty (h : s.ilen = 0) : exec .unpack s = .next ((s.setBs []).endWith .malformedHeader) := by
  have hbody : unpackBody s = .fail .malformedHeader (s.setBs []) := by simp [unpackBody, h]
  exact congrArg StepEnd.finish hbody

theorem exec_unpack_of_header (hpos : 0 < s.ilen) (hcap : s.ilen ≤ s.params.ibufcap) {h : Byte}
    (hh : s.ibuf.read 0 = some h) : exec .unpack s = (unpackHeader s h.toNat).finish := by
  have hbody : unpackBody s = unpackHeader s h.toNat := by
    rw [unpackBody, if_neg hcap.not_gt, if_neg hpos.ne', memRead_of_some hh]
  exact congrArg StepEnd.finish hbody

theorem unpackHeader_of_malformed {h : Nat} (hh : h < 1 ∨ 8 < h) :
    unpackHeader s h = .fail .malformedHeader (s.setBs []) := if_pos hh

theorem unpackHeader_eight_of_alone (hone : s.ilen = 1) : unpackHeader s 8 = .ok (s.setBs []) := by
  simp [unpackHeader, hone]

theorem unpackHeader_of_alone {h : Nat} (hh : h < 8) (hone : s.ilen = 1) :
    unpackHeader s h = .fail .malformedHeader (s.setBs []) := by
  simp [unpackHeader, hone, hh.ne]

theorem unpackHeader_of_payload {h : Nat} (hlo : 1 ≤ h) (hhi : h ≤ 8) (htwo : 2 ≤ s.ilen) :
    unpackHeader s h = unpackPayload s h := by
  rw [unpackHeader, if_neg (by omega), if_neg (by omega)]

theorem unpackPayload_of_capacity {h : Nat} (hover : s.params.bscap < 8 * (s.ilen - 1) - h) :
    unpackPayload s h = .fail .capacityExceeded (s.setBs []) := if_pos hover

/-- Where the bits fit BS and the bytes `pay` that hold them are written, BS gets the first bits of those bytes. -/
theorem unpackPayload_of_read {h nb : Nat} (hnb : 8 * (s.ilen - 1) - h = nb) (hfit : nb ≤ s.params.bscap)
    {pay : List Byte} (hlen : pay.length = (nb + 7) / 8)
    (hread : ∀ i, i < pay.length → s.ibuf.read (1 + i) = pay[i]?) :
    unpackPayload s h = .ok (s.setBs ((pay.flatMap bitsOf).take nb)) := by
  have hrun := (readRun_ok_iff s.ibuf ((nb + 7) / 8) 1 pay).2 ⟨hlen, hlen ▸ hread⟩
  rw [unpackPayload, hnb, if_neg hfit.not_gt, unpackedBits, hrun]

end

/-- Settles O34. -/
theorem unpackHeaderOnlyBuffer : Obligations.UnpackHeaderOnlyBuffer := by
  unfold Obligations.UnpackHeaderOnlyBuffer
  intro s h hone hcap hh
  rw [exec_unpack_of_header (by omega) (by omega) hh]
  refine ⟨?_, fun _ hhi => congrArg StepEnd.finish (unpackHeader_of_alone (by omega) hone)⟩
  rintro rfl
  exact congrArg StepEnd.finish (unpackHeader_eight_of_alone hone)

/-- UNPACK never ends with TruncatedStream (rules R154, R157). -/
theorem exec_unpack_err_ne_truncatedStream {s t : State} (h : exec .unpack s = .next t) : t.err ≠ .truncatedStream := by
  have hend : (unpackBody s).finish = .next t := h
  obtain ⟨v, -, rfl⟩ | ⟨e, v, hfail, rfl⟩ := StepEnd.finish_next hend
  · simp
  · rintro rfl
    rcases unpackBody_cases s with ⟨_, -, hb⟩ | hb | hb | ⟨_, -, -, -, hb⟩ <;> simp [hb] at hfail

/-- Settles O35, check by check. -/
theorem unpackChecksInOrder : Obligations.UnpackChecksInOrder := by
  unfold Obligations.UnpackChecksInOrder
  refine fun s => ⟨exec_unpack_of_capacity, exec_unpack_of_empty, ?_, fun t => exec_unpack_err_ne_truncatedStream⟩
  intro h hpos hcap hh
  rw [exec_unpack_of_header hpos hcap hh]
  refine ⟨fun hbad => ?header, fun _ hlt hone => ?lone, fun hlo hhi htwo hover => ?bits⟩
  case header => exact congrArg StepEnd.finish (unpackHeader_of_malformed hbad)
  case lone => exact congrArg StepEnd.finish (unpackHeader_of_alone hlt hone)
  case bits =>
    rw [unpackHeader_of_payload hlo hhi htwo]
    exact congrArg StepEnd.finish (unpackPayload_of_capacity hover)

/-! ### UNPACK's payload, and UNPACK after PACK (rules R153, R156, R158) -/

/-- The bits of a run of bytes: bit `q` is in byte `q / 8`, most significant bit first (rule R62). -/
theorem getElem?_flatMap_bitsOf (pay : List Byte) (q : Nat) :
    (pay.flatMap bitsOf)[q]? = pay[q / 8]?.map fun v => v.getLsbD (7 - q % 8) := by
  induction pay generalizing q with
  | nil => simp
  | cons v pay ih =>
    rw [List.flatMap_cons]
    by_cases hq : q < 8
    · rw [List.getElem?_append_left (by simpa using hq), getElem?_bitsOf_getLsbD v hq, Nat.div_eq_of_lt hq,
        Nat.mod_eq_of_lt hq]
      rfl
    · have hdiv : q / 8 = (q - 8) / 8 + 1 := by omega
      have hmod : q % 8 = (q - 8) % 8 := by omega
      rw [List.getElem?_append_right (by simpa using hq), bitsOf_length, ih, hdiv, hmod, List.getElem?_cons_succ]

theorem length_flatMap_bitsOf (pay : List Byte) : (pay.flatMap bitsOf).length = 8 * pay.length := by
  simp [List.length_flatMap, Nat.mul_comm]

/-- The bytes that hold a bit string's bits give them back: the padding is what `take` drops. -/
theorem take_flatMap_bitsOf_payload (x : Bits) {n : Nat} (hn : x.length ≤ 8 * n) :
    (((List.range n).map (payloadByte x)).flatMap bitsOf).take x.length = x := by
  have hlen : ((((List.range n).map (payloadByte x)).flatMap bitsOf).take x.length).length = x.length := by
    rw [List.length_take, length_flatMap_bitsOf, List.length_map, List.length_range, min_eq_left hn]
  refine List.ext_getElem hlen fun q _ hq => ?_
  have hbyte : q / 8 < n := by omega
  have hbit : (((List.range n).map (payloadByte x)).flatMap bitsOf)[q]? = some x[q] := by
    rw [getElem?_flatMap_bitsOf]
    simp [hbyte, payloadByte_getLsbD x (q / 8) (Nat.mod_lt q (by decide)), Nat.div_add_mod, hq]
  rw [List.getElem_take]
  exact (List.getElem?_eq_some_iff.1 hbit).2

theorem exec_unpack_of_payload {s : State} {h : Byte} {pay : List Byte} {nb : Nat} (htwo : 2 ≤ s.ilen)
    (hcap : s.ilen ≤ s.params.ibufcap) (hh : s.ibuf.read 0 = some h) (hlo : 1 ≤ h.toNat) (hhi : h.toNat ≤ 8)
    (hnb : 8 * (s.ilen - 1) - h.toNat = nb) (hfit : nb ≤ s.params.bscap) (hlen : pay.length = (nb + 7) / 8)
    (hread : ∀ i, i < pay.length → s.ibuf.read (1 + i) = pay[i]?) :
    exec .unpack s = .next ((s.setBs ((pay.flatMap bitsOf).take nb)).endWith .ok) := by
  rw [exec_unpack_of_header (by omega) hcap hh, unpackHeader_of_payload hlo hhi htwo,
    unpackPayload_of_read hnb hfit hlen hread]
  rfl

/-- Settles O33: the bits are the first `nb` of the bytes that hold them. -/
theorem unpackStripsThePadding : Obligations.UnpackStripsThePadding := by
  unfold Obligations.UnpackStripsThePadding
  intro s h pay htwo hcap hh hlo hhi hfit hlen hread
  refine ⟨_, exec_unpack_of_payload htwo hcap hh hlo hhi rfl hfit hlen hread, ?_, fun q hq => ?_⟩
  · rw [List.length_take, length_flatMap_bitsOf]
    omega
  · rw [List.length_take] at hq
    have hbyte : q / 8 < pay.length := by omega
    refine ⟨pay[q / 8], List.getElem?_eq_getElem hbyte, ?_⟩
    rw [List.getElem?_take_of_lt (by omega), getElem?_flatMap_bitsOf, List.getElem?_eq_getElem hbyte]
    rfl

/-- A packed buffer unpacks to its bit string wherever it is the input and the bits fit BS (rule R158). -/
theorem exec_unpack_of_packed {u : State} {x : Bits} (hin : InputIs u (packed x)) (hfit : x.length ≤ u.params.bscap)
    (hcap : (packed x).length ≤ u.params.ibufcap) : exec .unpack u = .next ((u.setBs x).endWith .ok) := by
  obtain ⟨hilen, hread⟩ := hin
  rw [← hilen] at hcap
  by_cases hx : x = []
  · subst hx
    have hone : u.ilen = 1 := hilen
    have hheader : u.ibuf.read 0 = some 0x08#8 := hread 0 Nat.one_pos
    rw [exec_unpack_of_header (by omega) hcap hheader]
    exact congrArg StepEnd.finish (unpackHeader_eight_of_alone hone)
  · rw [packed_length_of_ne_nil hx] at hilen hread
    obtain ⟨hlo, hhi⟩ := padLen_bounds x.length
    have hheader : u.ibuf.read 0 = some (BitVec.ofNat 8 (padLen x.length)) := by
      rw [hread 0 (by omega), packed_of_ne_nil hx, List.getElem?_cons_zero]
    have hnb : 8 * (u.ilen - 1) - padLen x.length = x.length := by
      rw [hilen, padLen]
      omega
    have hpay : ∀ i, i < ((List.range ((x.length + 7) / 8)).map (payloadByte x)).length →
        u.ibuf.read (1 + i) = ((List.range ((x.length + 7) / 8)).map (payloadByte x))[i]? := by
      intro i hi
      rw [List.getElem?_eq_getElem hi, List.getElem_map, List.getElem_range]
      rw [List.length_map, List.length_range] at hi
      rw [hread (1 + i) (by omega), getElem?_packed_payload hx (by omega)]
    rw [← toNat_ofNat_padLen] at hlo hhi hnb
    rw [exec_unpack_of_payload (by omega) hcap hheader hlo hhi hnb hfit (by simp) hpay,
      take_flatMap_bitsOf_payload x (by omega)]

/-- A core whose input is 08 00, whose header strips the whole payload (rule R158's last example). -/
def emptyWithPayload : State := { State.reset with ibuf := [(0, 0x08#8), (1, 0x00#8)], ilen := 2 }

/-- Settles O36. The converse fails on 08 00, which unpacks to the empty bit string and packs to 08. -/
theorem unpackInvertsPack : Obligations.UnpackInvertsPack := by
  unfold Obligations.UnpackInvertsPack
  refine ⟨fun s hbits hcap => ?inverse, ?converse⟩
  case inverse =>
    obtain ⟨hobuf, hibuf⟩ := le_min_iff.1 hcap
    refine ⟨packed s.bs, exec_pack_of_fits (.inr hobuf), fun u hp hin => ?_⟩
    have hlen : (packed s.bs).length ≤ 2 + s.blen / 8 := by
      rw [packed_length, packedLen, payloadLen_eq, State.blen]
      split <;> omega
    exact exec_unpack_of_packed hin (hp ▸ hbits) (hp ▸ hlen.trans hibuf)
  case converse =>
    have hin : InputIs emptyWithPayload [0x08, 0x00] := by unfold InputIs; decide
    have hunpack : exec .unpack emptyWithPayload = .next ((emptyWithPayload.setBs []).endWith .ok) :=
      exec_unpack_of_payload (pay := []) (by decide) (by decide) (hin.2 0 (by decide)) (by decide) (by decide) rfl
        (by decide) rfl (by simp)
    exact ⟨_, _, _, _, hin, hunpack, rfl, exec_pack_of_fits (.inl rfl), rfl, by decide⟩

end Sys2Proof.Machine

/-! Proofs for the family 44_prefix_decoder: what MATCH's scan makes of bits that match nothing, of one code and of a
coded text; the decomposition it finds, its two failures, and its degenerate inputs. -/

namespace Sys2Proof.Machine

/-! ### How MATCH ends (rules R161, R164, R165) -/

section
variable {s : State}

theorem exec_pmatch_of_ok {y : List Byte} (h : matchLoop s.rct s.params.obufcap s.bs [] [] = .ok y) :
    exec .pmatch s = .next ((s.setObuf y).endWith .ok) := by
  have hbody : matchBody s = .ok (s.setObuf y) := by rw [matchBody, h]
  exact congrArg StepEnd.finish hbody

theorem exec_pmatch_of_error {e : ErrCode} (h : matchLoop s.rct s.params.obufcap s.bs [] [] = .error e) :
    exec .pmatch s = .next ((s.setObuf []).endWith e) := by
  have hbody : matchBody s = .fail e (s.setObuf []) := by rw [matchBody, h]
  exact congrArg StepEnd.finish hbody

end

/-! ### The scan on any table (rules R161, R164, R165) -/

section
variable {r : List (Bits × Byte)} {cap : Nat}

/-- Bits on which no lookup succeeds end up in ACC. -/
theorem matchLoop_of_unmatched {x acc : Bits} (h : ∀ p, p ≠ [] → p <+: x → rctLook r (acc ++ p) = none)
    (rest : Bits) (out : List Byte) : matchLoop r cap (x ++ rest) acc out = matchLoop r cap rest (acc ++ x) out := by
  induction x generalizing acc with
  | nil => simp
  | cons b x ih =>
    have hb : rctLook r (acc ++ [b]) = none := h [b] (by simp) (by simp)
    have hx : ∀ p, p ≠ [] → p <+: x → rctLook r (acc ++ [b] ++ p) = none := fun p _ hp => by
      simpa using h (b :: p) (by simp) (by simpa using hp)
    rw [List.cons_append, matchLoop, hb]
    simpa using ih hx

/-- A residue on which no lookup succeeds is still in ACC when the bits run out (rule R164). -/
theorem matchLoop_of_residue {x : Bits} (hne : x ≠ []) (h : ∀ p, p ≠ [] → p <+: x → rctLook r p = none)
    (out : List Byte) : matchLoop r cap x [] out = .error .truncatedStream := by
  have hscan := matchLoop_of_unmatched (cap := cap) (acc := []) (by simpa using h) [] out
  rw [List.append_nil, List.nil_append] at hscan
  rw [hscan, matchLoop, if_neg hne]

/-- Each symbol takes at least one bit, so OBUF has room for as many symbols as there are bits (rule R165). -/
theorem matchLoop_ne_capacityExceeded {x acc : Bits} {out : List Byte} (h : out.length + x.length ≤ cap) :
    matchLoop r cap x acc out ≠ .error .capacityExceeded := by
  induction x generalizing acc out with
  | nil =>
    rw [matchLoop]
    split <;> simp
  | cons b x ih =>
    rw [List.length_cons] at h
    rw [matchLoop]
    split
    · exact ih (by omega)
    · rw [if_neg (by omega)]
      exact ih (by rw [List.length_append, List.length_singleton]; omega)

end

/-! ### The scan under a code table and its inverse (rule R162) -/

section
variable {ct : Table Bits} {r : List (Bits × Byte)} {cap : Nat} (hinv : InverseTables ct r)
include hinv

/-- A scan that succeeds has cut ACC and the bits into the codes of the symbols it wrote. -/
theorem coded_of_matchLoop_ok {x acc : Bits} {out y : List Byte} (h : matchLoop r cap x acc out = .ok y) :
    ∃ bs, AllCoded ct bs ∧ y = out ++ bs ∧ acc ++ x = coded ct bs := by
  induction x generalizing acc out with
  | nil =>
    rw [matchLoop] at h
    split at h
    · next hacc =>
      cases h
      exact ⟨[], by simp [AllCoded], by simp, by simp [hacc, coded]⟩
    · cases h
  | cons b x ih =>
    rw [matchLoop] at h
    split at h
    · simpa using ih h
    · next a ha =>
      split at h
      · cases h
      · obtain ⟨hne, hcode⟩ := (hinv _ _).1 ha
        obtain ⟨bs, hbs, rfl, rfl⟩ := ih h
        refine ⟨a :: bs, ?_, by simp, by simp [coded, hcode]⟩
        exact List.forall_mem_cons.2 ⟨hcode ▸ hne, hbs⟩

/-- No lookup succeeds on bits that begin with no code. -/
theorem rctLook_eq_none_of_no_code {x p : Bits} (h : ∀ b, ct.look b ≠ [] → ¬ ct.look b <+: x) (hp : p <+: x) :
    rctLook r p = none := by
  by_contra hsome
  obtain ⟨b, hb⟩ := Option.ne_none_iff_exists'.1 hsome
  obtain ⟨hne, rfl⟩ := (hinv p b).1 hb
  exact h b hne hp

variable (hpf : PrefixFree ct)
include hpf

/-- No lookup succeeds inside a code: the entry found would begin it (rule R36). -/
theorem rctLook_eq_none_of_proper_prefix {b : Byte} {p : Bits} (hb : ct.look b ≠ []) (hp : p <+: ct.look b)
    (hne : p ≠ ct.look b) : rctLook r p = none := by
  by_contra hsome
  obtain ⟨a, ha⟩ := Option.ne_none_iff_exists'.1 hsome
  obtain ⟨hcode, rfl⟩ := (hinv p a).1 ha
  exact hpf a b (fun hab => hne (hab ▸ rfl)) hcode hb hp

/-- The scan of a code emits its symbol at its last bit, if OBUF has room (rules R161, R165). -/
theorem matchLoop_code {b : Byte} (hb : ct.look b ≠ []) (rest : Bits) (out : List Byte) :
    matchLoop r cap (ct.look b ++ rest) [] out =
      if out.length = cap then .error .capacityExceeded else matchLoop r cap rest [] (out ++ [b]) := by
  have hlook : rctLook r (ct.look b) = some b := (hinv _ _).2 ⟨hb, rfl⟩
  obtain ⟨init, last, hsplit⟩ := (List.eq_nil_or_concat' (ct.look b)).resolve_left hb
  have hinit : ∀ p, p ≠ [] → p <+: init → rctLook r ([] ++ p) = none := fun p _ hp => by
    refine rctLook_eq_none_of_proper_prefix hinv hpf hb (hsplit ▸ hp.trans (List.prefix_append _ _)) ?_
    rintro rfl
    have hlen := hp.length_le
    rw [hsplit, List.length_append, List.length_singleton] at hlen
    omega
  rw [hsplit] at hlook ⊢
  rw [List.append_assoc, matchLoop_of_unmatched hinit, List.nil_append, List.singleton_append, matchLoop, hlook]

/-- The scan of a coded text that OBUF holds writes the text (rule R162). -/
theorem matchLoop_coded {bs out : List Byte} (hbs : AllCoded ct bs) (hfit : out.length + bs.length ≤ cap)
    (rest : Bits) : matchLoop r cap (coded ct bs ++ rest) [] out = matchLoop r cap rest [] (out ++ bs) := by
  induction bs generalizing out with
  | nil => simp [coded]
  | cons b bs ih =>
    obtain ⟨hb, hbs⟩ := List.forall_mem_cons.1 hbs
    rw [List.length_cons] at hfit
    have hrest := ih (out := out ++ [b]) hbs (by rw [List.length_append, List.length_singleton]; omega)
    rw [coded, List.flatMap_cons, List.append_assoc, matchLoop_code hinv hpf hb, if_neg (by omega)]
    simpa [coded] using hrest

/-- The greedy scan finds every decomposition, so there is only one (rule R162). -/
theorem coded_injective {bs cs : List Byte} (hbs : AllCoded ct bs) (hcs : AllCoded ct cs)
    (h : coded ct bs = coded ct cs) : bs = cs := by
  have hscan : ∀ ds, AllCoded ct ds → ds.length ≤ bs.length + cs.length →
      matchLoop r (bs.length + cs.length) (coded ct ds) [] [] = .ok ds := fun ds hds hlen => by
    simpa [matchLoop] using matchLoop_coded hinv hpf (out := []) hds (by simpa using hlen) []
  have hfound := hscan bs hbs (Nat.le_add_right _ _)
  rw [h, hscan cs hcs (Nat.le_add_left _ _)] at hfound
  exact (Except.ok.inj hfound).symm

end

/-! ### MATCH under a code table and its inverse (rules R162, R164, R165) -/

section
variable {s : State} {ct : Table Bits} (hinv : InverseTables ct s.rct) (hpf : PrefixFree ct) {bs : List Byte}
  (hbs : AllCoded ct bs)
include hinv hpf hbs

theorem exec_pmatch_of_coded (h : s.bs = coded ct bs) (hfit : bs.length ≤ s.params.obufcap) :
    exec .pmatch s = .next ((s.setObuf bs).endWith .ok) := by
  refine exec_pmatch_of_ok ?_
  simpa [h, matchLoop] using matchLoop_coded hinv hpf (out := []) hbs (by simpa using hfit) []

theorem exec_pmatch_of_residue {rest : Bits} (h : s.bs = coded ct bs ++ rest) (hne : rest ≠ [])
    (hno : ∀ b, ct.look b ≠ [] → ¬ ct.look b <+: rest) (hfit : bs.length ≤ s.params.obufcap) :
    exec .pmatch s = .next ((s.setObuf []).endWith .truncatedStream) := by
  refine exec_pmatch_of_error ?_
  rw [h, matchLoop_coded hinv hpf hbs (by simpa using hfit)]
  exact matchLoop_of_residue hne (fun p _ hp => rctLook_eq_none_of_no_code hinv hno hp) _

theorem exec_pmatch_of_full {b : Byte} (hb : ct.look b ≠ []) {rest : Bits} (h : s.bs = coded ct (bs ++ [b]) ++ rest)
    (hfull : bs.length = s.params.obufcap) :
    exec .pmatch s = .next ((s.setObuf []).endWith .capacityExceeded) := by
  have hsplit : coded ct (bs ++ [b]) ++ rest = coded ct bs ++ (ct.look b ++ rest) := by simp [coded]
  refine exec_pmatch_of_error ?_
  rw [h, hsplit, matchLoop_coded hinv hpf hbs (by simpa using hfull.le), matchLoop_code hinv hpf hb]
  exact if_pos hfull

end

/-- With no decomposition the scan cannot succeed, and with room in OBUF for one symbol per bit it cannot find OBUF
full, so it ends with TruncatedStream. -/
theorem exec_pmatch_of_no_decomposition {s : State} {ct : Table Bits} (hinv : InverseTables ct s.rct)
    (hnone : ∀ bs, AllCoded ct bs → s.bs ≠ coded ct bs) (hcap : s.blen ≤ s.params.obufcap) :
    exec .pmatch s = .next ((s.setObuf []).endWith .truncatedStream) := by
  refine exec_pmatch_of_error ?_
  rcases matchLoop_cases s.rct s.params.obufcap s.bs [] [] (Nat.zero_le _) with ⟨y, hok, -⟩ | htrunc | hfull
  · obtain ⟨bs, hbs, -, hcoded⟩ := coded_of_matchLoop_ok hinv hok
    exact absurd hcoded (hnone bs hbs)
  · exact htrunc
  · exact absurd hfull (matchLoop_ne_capacityExceeded (by simpa [State.blen] using hcap))

/-- Settles O37: the scan of a code emits its symbol at its last bit and nowhere before, so the scan of a coded text is
the text, and a scan that succeeds is one of a coded text. -/
theorem matchIsUnambiguous : Obligations.MatchIsUnambiguous := by
  unfold Obligations.MatchIsUnambiguous
  intro s hpf hinv
  exact ⟨fun bs cs => coded_injective hinv hpf, fun bs => exec_pmatch_of_coded hinv hpf,
    exec_pmatch_of_no_decomposition hinv, fun bs rest hbs => exec_pmatch_of_residue hinv hpf hbs⟩

/-- Settles O38: OBUF is full after OBUFCAP symbols, and the last bit of the next code emits one more. -/
theorem matchCapacity : Obligations.MatchCapacity := by
  unfold Obligations.MatchCapacity
  refine fun s => ⟨fun bs rest hpf hinv hbs h hlen => ?full, fun hcap t hexec => ?room⟩
  case full =>
    obtain ⟨pre, b, rfl⟩ := (List.eq_nil_or_concat' bs).resolve_left (by rintro rfl; simp at hlen)
    obtain ⟨hpre, hb⟩ := List.forall_mem_append.1 hbs
    exact exec_pmatch_of_full hinv hpf hpre (hb b (List.mem_singleton_self b)) h (by simpa using hlen)
  case room =>
    cases hloop : matchLoop s.rct s.params.obufcap s.bs [] [] with
    | ok y =>
      cases (exec_pmatch_of_ok hloop).symm.trans hexec
      simp
    | error e =>
      cases (exec_pmatch_of_error hloop).symm.trans hexec
      rintro rfl
      exact matchLoop_ne_capacityExceeded (by simpa [State.blen] using hcap) hloop

/-! ### Degenerate inputs (rule R166) -/

/-- The code table of the lone symbol `b` (rule R132). -/
def loneTable (b : Byte) : Table Bits := (codesOf [(b, [false])]).ct

theorem isCode_lone (b : Byte) : IsCode [(b, [false])] := .singleton (by simp)

theorem loneTable_prefixFree (b : Byte) : PrefixFree (loneTable b) := (isCode_lone b).prefixFree

theorem loneTable_inverseTables (b : Byte) : InverseTables (loneTable b) [([false], b)] := (isCode_lone b).inverseTables

@[simp] theorem loneTable_look_self (b : Byte) : (loneTable b).look b = [false] :=
  ((isCode_lone b).look (List.mem_singleton_self _)).1

/-- The lone symbol's code is the only one. -/
theorem loneTable_look {b c : Byte} (h : (loneTable b).look c ≠ []) : (loneTable b).look c = [false] :=
  congrArg Prod.snd (List.mem_singleton.1 (mem_of_codesOf_look h))

theorem allCoded_lone (b : Byte) (m : Nat) : AllCoded (loneTable b) (List.replicate m b) := fun c hc => by
  simp [List.eq_of_mem_replicate hc]

theorem coded_lone (b : Byte) (m : Nat) : coded (loneTable b) (List.replicate m b) = List.replicate m false := by
  simp [coded, List.flatMap_replicate]

/-- A completed MATCH has changed OBUF, ERR and SEQ only, which it does not read (rules R82, R160). -/
theorem exec_pmatch_twice {s t : State} (h : exec .pmatch s = .next t) : exec .pmatch t = .next t := by
  obtain ⟨-, hframe⟩ := commandFrames .pmatch s t h
  obtain ⟨-, -, -, -, -, -, hagain, -⟩ := commandsReadTheirSources s t t
  have hexec := hagain (by rw [hframe]; rfl) (by rw [hframe]; rfl) (by rw [hframe]; rfl) h
  have hself : (t.setObuf t.obuf).endWith t.err = t := by rw [hframe]; rfl
  rwa [hself] at hexec

/-- Settles O39: no bits are the codes of no symbols on any table; m zeros are the lone code m times; a 1 begins no
code of the lone table. -/
theorem matchDegenerateInputs : Obligations.MatchDegenerateInputs := by
  unfold Obligations.MatchDegenerateInputs
  refine fun s => ⟨fun h => ?noBits, fun hrct hne => ?noCodes, fun b m hrct h hfit => ?zeros,
    fun b m rest hrct h hfit => ?one, fun t => exec_pmatch_twice⟩
  case noBits =>
    refine exec_pmatch_of_ok ?_
    rw [blen_eq_zero_iff.1 h, matchLoop, if_pos rfl]
  case noCodes =>
    refine exec_pmatch_of_error (matchLoop_of_residue (mt blen_eq_zero_iff.2 hne) (fun p _ _ => ?_) _)
    rw [hrct, rctLook_nil]
  case zeros =>
    exact exec_pmatch_of_coded (hrct ▸ loneTable_inverseTables b) (loneTable_prefixFree b) (allCoded_lone b m)
      (h.trans (coded_lone b m).symm) (by simpa using hfit)
  case one =>
    refine exec_pmatch_of_residue (hrct ▸ loneTable_inverseTables b) (loneTable_prefixFree b) (allCoded_lone b m)
      (h.trans (by rw [coded_lone])) (List.cons_ne_nil true rest) (fun c hc => ?_) (by simpa using hfit)
    rw [loneTable_look hc]
    simp

end Sys2Proof.Machine

/-! Proofs for the family 45_orchestration: ENCODE and DECODE against the chains of micro commands, what ENCODE makes of
a written text, the round trip, and the output without its last byte. -/

namespace Sys2Proof.Machine

/-! ### A step of ENCODE or DECODE ends as its command does from a state that agrees on the sources (rule R170) -/

/-- A body that is the image of a completed command's body ends as the command did, in the image of its end. -/
theorem StepEnd.Framed.image {s t : State} {m n : StepEnd} {g : State → State} (hm : m.Framed s)
    (hmap : n = m.mapState g) (hg : ∀ v e, g (State.endWith v e) = g v) (h : m.finish = .next t) :
    (t.err = .ok → n = .ok (g t)) ∧ (t.err ≠ .ok → n = .fail t.err (g t)) := by
  subst hmap
  rcases StepEnd.finish_next h with ⟨v, rfl, rfl⟩ | ⟨e, v, rfl, rfl⟩ <;> rw [hg]
  · exact ⟨fun _ => rfl, fun hne => absurd rfl hne⟩
  · exact ⟨fun hok => absurd hok hm.1, fun _ => rfl⟩

/-- Two images of one end that agree but for ERR and SEQ end a command alike. -/
theorem StepEnd.finish_eq_of_images {m n : StepEnd} {g g' : State → State} (hn : n = m.mapState g)
    (hm : m = m.mapState g') (hg : ∀ v e, (g v).endWith e = (g' v).endWith e) : n.finish = m.finish := by
  rw [hm, hn]
  cases m with
  | ok v => exact congrArg Host.Outcome.next (hg v .ok)
  | fail e v => exact congrArg Host.Outcome.next (hg v e)
  | fault f => rfl

section
variable {s t u : State}

theorem tallyBody_of_exec (h : exec .tally s = .next t) (hin : SameInput s u) :
    (t.err = .ok → tallyBody u = .ok (u.setFt t.ft)) ∧ (t.err ≠ .ok → tallyBody u = .fail t.err (u.setFt t.ft)) :=
  (tallyBody_framed s).image (tallyBody_of_sameInput hin) (fun _ _ => rfl) h

/-- BUILD leaves the tree of ENCODE's second step, also where it ends with EmptyInput (rules R121, R175). -/
theorem buildOrBypass_of_exec (h : exec .build s = .next t) (hft : s.ft = u.ft) :
    buildOrBypass u = .ok (u.setTree t.nodes t.nleaf t.root) := by
  rw [buildOrBypass_of_ft hft, buildOrBypass]
  rcases buildBody_cases s with ⟨hempty, hbody⟩ | ⟨hfull, hbody⟩
  · cases (congrArg StepEnd.finish hbody).symm.trans h
    rw [if_pos hempty]
    rfl
  · cases (congrArg StepEnd.finish hbody).symm.trans h
    rw [if_neg (by simp [hfull]), hbody]
    rfl

/-- A GEN that completes has succeeded (rule R131). -/
theorem genBody_of_exec (h : exec .gen s = .next t) (hn : s.nodes = u.nodes) (hr : s.root = u.root) :
    genBody u = .ok (u.setCodes t.ct t.rct) := by
  rw [genBody_of_tree hn hr]
  rcases genBody_cases s with ⟨l, hl, hbody⟩ | ⟨-, hbody⟩ <;> cases (congrArg StepEnd.finish hbody).symm.trans h
  rw [hbody]
  rfl

theorem substBody_of_exec (h : exec .subst s = .next t) (hin : SameInput s u) (hct : s.ct = u.ct) :
    (t.err = .ok → substBody u = .ok (u.setBs t.bs)) ∧ (t.err ≠ .ok → substBody u = .fail t.err (u.setBs t.bs)) :=
  (substBody_framed s).image (substBody_of_sameInput hin hct) (fun _ _ => rfl) h

theorem unpackBody_framed (s : State) : (unpackBody s).Framed s := by
  rcases unpackBody_cases s with ⟨y, -, h⟩ | h | h | ⟨a, -, -, -, h⟩ <;> rw [h]
  · exact rfl
  · exact ⟨by decide, rfl⟩
  · exact ⟨by decide, rfl⟩
  · trivial

theorem unpackBody_of_exec (h : exec .unpack s = .next t) (hin : SameInput s u) :
    (t.err = .ok → unpackBody u = .ok (u.setBs t.bs)) ∧ (t.err ≠ .ok → unpackBody u = .fail t.err (u.setBs t.bs)) :=
  (unpackBody_framed s).image (unpackBody_of_sameInput hin) (fun _ _ => rfl) h

end

/-! ### ENCODE and DECODE against the chains (rules R170 to R175) -/

/-- Settles O42: each step of ENCODE is, OBUF, ERR and SEQ aside, the command the host issues. -/
theorem encodeEqualsTheChain : Obligations.EncodeEqualsTheChain := by
  unfold Obligations.EncodeEqualsTheChain
  intro s t₁ h₁
  obtain ⟨tallyOk, tallyFail⟩ := tallyBody_of_exec (u := s.setObuf []) h₁ (.refl s)
  obtain ⟨f, e₁, rfl⟩ : ∃ f e, t₁ = (s.setFt f).endWith e := ⟨_, _, (commandFrames .tally s t₁ h₁).2⟩
  refine ⟨fun hfail => ?tally, fun hok t₂ t₃ t₄ h₂ h₃ h₄ => ?chain⟩
  case tally =>
    have hbody : encodeBody s = .fail e₁ ((s.setObuf []).setFt f) := by
      rw [encodeBody, tallyFail hfail]
      rfl
    exact congrArg StepEnd.finish hbody
  case chain =>
    have hbuild := buildOrBypass_of_exec (u := (s.setObuf []).setFt f) h₂ rfl
    obtain ⟨ns, nl, r, e₂, rfl⟩ : ∃ ns nl r e, t₂ = State.endWith (State.setTree _ ns nl r) e :=
      ⟨_, _, _, _, (commandFrames .build _ t₂ h₂).2⟩
    have hgen := genBody_of_exec (u := ((s.setObuf []).setFt f).setTree ns nl r) h₃ rfl rfl
    obtain ⟨c, rc, e₃, rfl⟩ : ∃ c rc e, t₃ = State.endWith (State.setCodes _ c rc) e :=
      ⟨_, _, _, (commandFrames .gen _ t₃ h₃).2⟩
    have htables : ((tallyBody (s.setObuf [])).andThen buildOrBypass).andThen genBody =
        .ok ((((s.setObuf []).setFt f).setTree ns nl r).setCodes c rc) :=
      StepEnd.andThen_eq_ok_of (StepEnd.andThen_eq_ok_of (tallyOk hok) hbuild) hgen
    obtain ⟨substOk, substFail⟩ := substBody_of_exec
      (u := (((s.setObuf []).setFt f).setTree ns nl r).setCodes c rc) h₄ (.refl _) rfl
    obtain ⟨x, e₄, rfl⟩ : ∃ x e, t₄ = State.endWith (State.setBs _ x) e := ⟨_, _, (commandFrames .subst _ t₄ h₄).2⟩
    refine ⟨fun hfail => ?subst, fun hdone => ?pack⟩
    case subst =>
      have hbody : encodeBody s = .fail e₄ (((((s.setObuf []).setFt f).setTree ns nl r).setCodes c rc).setBs x) := by
        rw [encodeBody, htables, StepEnd.andThen_ok, substFail hfail]
        rfl
      exact congrArg StepEnd.finish hbody
    case pack =>
      have hbody : encodeBody s = packBody (((((s.setObuf []).setFt f).setTree ns nl r).setCodes c rc).setBs x) := by
        rw [encodeBody, htables, StepEnd.andThen_ok, substOk hdone]
        rfl
      refine (congrArg StepEnd.finish hbody).trans ?_
      exact StepEnd.finish_eq_of_images (packBody_of_bs rfl rfl) (packBody_of_bs rfl rfl) fun _ _ => rfl

/-- Settles O43: UNPACK does not read OBUF, and MATCH reads BS, RCT and the capacities alone. -/
theorem decodeEqualsTheChain : Obligations.DecodeEqualsTheChain := by
  unfold Obligations.DecodeEqualsTheChain
  intro s t h
  obtain ⟨unpackOk, unpackFail⟩ := unpackBody_of_exec (u := s.setObuf []) h (.refl s)
  obtain ⟨x, e, rfl⟩ : ∃ x e, t = (s.setBs x).endWith e := ⟨_, _, (commandFrames .unpack s t h).2⟩
  refine ⟨fun hfail => ?unpack, fun hok => ?pmatch⟩
  case unpack =>
    have hbody : decodeBody s = .fail e ((s.setObuf []).setBs x) := by
      rw [decodeBody, unpackFail hfail]
      rfl
    exact congrArg StepEnd.finish hbody
  case pmatch =>
    have hbody : decodeBody s = matchBody ((s.setObuf []).setBs x) := by
      rw [decodeBody, unpackOk hok]
      rfl
    refine (congrArg StepEnd.finish hbody).trans ?_
    exact StepEnd.finish_eq_of_images (matchBody_of_bs rfl rfl rfl) (matchBody_of_bs rfl rfl rfl) fun _ _ => rfl

/-- Settles O49: what CLR writes is the reset state's. -/
theorem clrReturnsToReset : Obligations.ClrReturnsToReset := by
  unfold Obligations.ClrReturnsToReset
  exact fun s => rfl

/-! ### The tree and the tables that ENCODE makes of a text (rules R171, R172) -/

/-- The tree of ENCODE's second step: the empty tree for the empty text, else BUILD's. -/
def textTree (bs : List Byte) : List Node × Nat × Nat :=
  if ftEmpty (countAll bs) then ([], 0, 0) else buildTree (countAll bs)

/-- The codes that GEN assigns on that tree. -/
def textAssignments (bs : List Byte) : List (Byte × Bits) := (treeCodes (textTree bs).1 (textTree bs).2.2).getD []

/-- CT and RCT after ENCODE's third step. -/
def textCodes (bs : List Byte) : Codes := codesOf (textAssignments bs)

/-- The text's bits: the codes of its bytes in order. -/
def textBits (bs : List Byte) : Bits := coded (textCodes bs).ct bs

/-- The state after ENCODE's first three steps on the text `bs`. -/
def State.withTables (s : State) (bs : List Byte) : State :=
  (((s.setObuf []).setFt (countAll bs)).setTree (textTree bs).1 (textTree bs).2.1 (textTree bs).2.2).setCodes
    (textCodes bs).ct (textCodes bs).rct

theorem exists_count_ne_zero {bs : List Byte} (h : ftEmpty (countAll bs) ≠ true) : ∃ b, (countAll bs).look b ≠ 0 :=
  (ftEmpty_eq_false_iff _).1 (Bool.not_eq_true _ ▸ h)

theorem textTree_treeInv (bs : List Byte) : TreeInv (textTree bs).1 (textTree bs).2.1 (textTree bs).2.2 := by
  unfold textTree
  split
  · exact .inl ⟨rfl, rfl, rfl⟩
  · next h => exact .inr (buildTree_isTree (exists_count_ne_zero h)).1

/-- Every byte of the text stands in a leaf of its tree (rule R116), which then is not the empty one. -/
theorem textTree_leaf {bs : List Byte} {b : Byte} (hb : b ∈ bs) :
    IsTree (textTree bs).1 (textTree bs).2.1 (textTree bs).2.2 ∧
      ∃ k < (textTree bs).2.1, (nodeAt (textTree bs).1 k).sym = b := by
  have hpresent : (countAll bs).look b ≠ 0 := by simpa [List.count_eq_zero] using hb
  have hnonempty : ¬ ftEmpty (countAll bs) = true := fun h => hpresent ((ftEmpty_iff _).1 h b)
  obtain ⟨htree, hnleaf, -⟩ := buildTree_isTree ⟨b, hpresent⟩
  obtain ⟨k, hk, hget⟩ := List.getElem_of_mem (mem_present.2 hpresent)
  rw [textTree, if_neg hnonempty]
  exact ⟨htree, k, hnleaf ▸ hk, by rw [nodeAt_buildTree_of_leaf hk, hget, leafNode]⟩

theorem treeCodes_textTree (bs : List Byte) :
    treeCodes (textTree bs).1 (textTree bs).2.2 = some (textAssignments bs) := by
  obtain ⟨l, hl⟩ := Option.ne_none_iff_exists'.1 (textTree_treeInv bs).treeCodes_ne_none
  rw [textAssignments, hl, Option.getD_some]

theorem textAssignments_isCode (bs : List Byte) : IsCode (textAssignments bs) :=
  (textTree_treeInv bs).treeCodes_isCode (treeCodes_textTree bs)

theorem textCodes_prefixFree (bs : List Byte) : PrefixFree (textCodes bs).ct := (textAssignments_isCode bs).prefixFree

theorem textCodes_inverseTables (bs : List Byte) : InverseTables (textCodes bs).ct (textCodes bs).rct :=
  (textAssignments_isCode bs).inverseTables

/-- A symbol has a code where it stands in a leaf, and so every byte of the text has one. -/
theorem textCodes_allCoded (bs : List Byte) : AllCoded (textCodes bs).ct bs := fun b hb => by
  obtain ⟨htree, hleaf⟩ := textTree_leaf hb
  exact (textAssignments_isCode bs).look_ne_nil_iff.2
    ((IsTree.exists_code_iff htree (treeCodes_textTree bs) b).2 hleaf)

/-! ### ENCODE of a written text (rules R171, R175) -/

theorem buildOrBypass_of_countAll {s : State} {bs : List Byte} (h : s.ft = countAll bs) :
    buildOrBypass s = .ok (s.setTree (textTree bs).1 (textTree bs).2.1 (textTree bs).2.2) := by
  unfold buildOrBypass textTree
  rw [h]
  split
  · rfl
  · next hne => rw [buildBody, h, if_neg hne]

/-- The symbol at which a coded text passes a capacity. -/
theorem exists_overflowing_code {ct : Table Bits} {cap : Nat} {bs : List Byte} (h : cap < (coded ct bs).length) :
    ∃ pre b post, bs = pre ++ b :: post ∧ (coded ct pre).length ≤ cap ∧
      cap < (coded ct pre).length + (ct.look b).length := by
  induction bs using List.reverseRecOn with
  | nil => simp [coded] at h
  | append_singleton bs b ih =>
    by_cases hover : cap < (coded ct bs).length
    · obtain ⟨pre, a, post, rfl, hpre⟩ := ih hover
      exact ⟨pre, a, post ++ [b], by simp, hpre⟩
    · exact ⟨bs, b, [], rfl, by omega, by simpa [coded] using h⟩

theorem substBody_of_fits {s : State} {bs : List Byte} (hcap : s.ilen ≤ s.params.ibufcap) (hin : InputIs s bs)
    (hcoded : AllCoded s.ct bs) (hfit : (coded s.ct bs).length ≤ s.params.bscap) :
    substBody s = .ok (s.setBs (coded s.ct bs)) :=
  (substBody_of_exec (substConcatenatesCodes s bs hcap hin hcoded hfit) (.refl s) rfl).1 rfl

/-- SUBST fails at the first symbol whose code does not fit BS (rule R142). -/
theorem substBody_of_overflow {s : State} {bs : List Byte} (hcap : s.ilen ≤ s.params.ibufcap) (hin : InputIs s bs)
    (hcoded : AllCoded s.ct bs) (hover : s.params.bscap < (coded s.ct bs).length) :
    substBody s = .fail .capacityExceeded (s.setBs []) := by
  obtain ⟨hlen, hread⟩ := hin
  obtain ⟨pre, b, post, rfl, hfit, hfull⟩ := exists_overflowing_code hover
  obtain ⟨hpre, hb, -⟩ : AllCoded s.ct pre ∧ s.ct.look b ≠ [] ∧ AllCoded s.ct post := by
    simpa [AllCoded, or_imp, forall_and] using hcoded
  rw [List.length_append, List.length_cons] at hlen hread
  have hbyte : s.ibuf.read pre.length = some b := by rw [hread _ (by omega)]; simp
  have hprefix : ∀ i, i < pre.length → s.ibuf.read i = pre[i]? := fun i hi => by
    rw [hread i (by omega), List.getElem?_append_left hi]
  have hexec := ((substFailures s).2 pre b hcap (by omega) hprefix hbyte hpre hfit).2 hb hfull
  exact (substBody_of_exec hexec (.refl s) rfl).2 (by simp)

/-- The text's bits fit BS and their packed bytes OBUF, which PACK checks for a non-empty bit string only. -/
def OutputFits (p : Params) (bs : List Byte) : Prop :=
  (textBits bs).length ≤ p.bscap ∧ (textBits bs = [] ∨ packedLen (textBits bs).length ≤ p.obufcap)

theorem packedLen_of_ne_nil {x : Bits} (h : x ≠ []) : packedLen x.length = 1 + payloadLen x.length :=
  if_neg (mt List.length_eq_zero_iff.1 h)

/-- Where OBUF holds a byte, the header-only buffer fits like any other. -/
theorem outputFits_iff {p : Params} (h : 1 ≤ p.obufcap) (bs : List Byte) :
    OutputFits p bs ↔ (textBits bs).length ≤ p.bscap ∧ packedLen (textBits bs).length ≤ p.obufcap := by
  unfold OutputFits
  by_cases hnil : textBits bs = []
  · simp [hnil, packedLen, h]
  · simp [hnil]

section
variable {s : State} {bs : List Byte} (hcap : s.ilen ≤ s.params.ibufcap) (hin : InputIs s bs)
include hcap hin

/-- On a written text the first three steps succeed, and SUBST and PACK go on from the text's tables. -/
theorem encodeBody_of_inputIs : encodeBody s = (substBody (s.withTables bs)).andThen packBody := by
  have htables : ((tallyBody (s.setObuf [])).andThen buildOrBypass).andThen genBody = .ok (s.withTables bs) :=
    StepEnd.andThen_eq_ok_of (StepEnd.andThen_eq_ok_of (tallyBody_of_inputIs (s := s.setObuf []) hcap hin)
      (buildOrBypass_of_countAll rfl)) (genBody_of_exec (exec_gen_of_treeCodes (treeCodes_textTree bs)) rfl rfl)
  rw [encodeBody, htables, StepEnd.andThen_ok]

theorem encodeBody_of_bits_fit (hbits : (textBits bs).length ≤ s.params.bscap) :
    encodeBody s = packBody ((s.withTables bs).setBs (textBits bs)) := by
  have hsubst : substBody (s.withTables bs) = .ok ((s.withTables bs).setBs (textBits bs)) :=
    substBody_of_fits hcap hin (textCodes_allCoded bs) hbits
  rw [encodeBody_of_inputIs hcap hin, hsubst, StepEnd.andThen_ok]

theorem encodeBody_of_bits_overflow (hbits : s.params.bscap < (textBits bs).length) :
    encodeBody s = .fail .capacityExceeded ((s.withTables bs).setBs []) := by
  have hsubst : substBody (s.withTables bs) = .fail .capacityExceeded ((s.withTables bs).setBs []) :=
    substBody_of_overflow hcap hin (textCodes_allCoded bs) hbits
  rw [encodeBody_of_inputIs hcap hin, hsubst, StepEnd.andThen_fail]

theorem exec_encode_of_fits (hfits : OutputFits s.params bs) : exec .encode s =
    .next ((((s.withTables bs).setBs (textBits bs)).setObuf (packed (textBits bs))).endWith .ok) := by
  obtain ⟨hbits, hbytes⟩ := hfits
  have hbody := encodeBody_of_bits_fit hcap hin hbits
  rcases packBody_cases ((s.withTables bs).setBs (textBits bs)) with ⟨-, hok⟩ | ⟨hne, hover, -⟩
  · exact congrArg StepEnd.finish (hbody.trans hok)
  · have hfit := (packedLen_of_ne_nil hne).symm.trans_le (hbytes.resolve_left hne)
    exact absurd hover hfit.not_gt

/-- What does not fit BS ends ENCODE in SUBST, what does not fit OBUF in PACK. -/
theorem exec_encode_of_not_fits (hfits : ¬ OutputFits s.params bs) : ∃ y, exec .encode s =
    .next ((((s.withTables bs).setBs y).setObuf []).endWith .capacityExceeded) := by
  rcases Nat.lt_or_ge s.params.bscap (textBits bs).length with hover | hbits
  · exact ⟨[], congrArg StepEnd.finish (encodeBody_of_bits_overflow hcap hin hover)⟩
  · have hbody := encodeBody_of_bits_fit hcap hin hbits
    rcases packBody_cases ((s.withTables bs).setBs (textBits bs)) with ⟨hbytes, -⟩ | ⟨-, -, hfail⟩
    · refine absurd ⟨hbits, or_iff_not_imp_left.2 fun hne => ?_⟩ hfits
      exact (packedLen_of_ne_nil hne).trans_le (hbytes.resolve_left hne)
    · exact ⟨_, congrArg StepEnd.finish (hbody.trans hfail)⟩

end

/-- Settles O41: the tables are the text's whether or not its packed codes fit. -/
theorem encodeCompletes : Obligations.EncodeCompletes := by
  unfold Obligations.EncodeCompletes
  intro s bs hin hcap hobuf
  obtain ⟨y, o, e, hexec, hend⟩ : ∃ y o e,
      exec .encode s = .next ((((s.withTables bs).setBs y).setObuf o).endWith e) ∧
      if (textBits bs).length ≤ s.params.bscap ∧ packedLen (textBits bs).length ≤ s.params.obufcap then
        e = .ok ∧ y = textBits bs ∧ o = packed (textBits bs)
      else e = .capacityExceeded ∧ o = [] := by
    by_cases hfits : OutputFits s.params bs
    · refine ⟨_, _, _, exec_encode_of_fits hcap hin hfits, ?_⟩
      rw [if_pos ((outputFits_iff hobuf bs).1 hfits)]
      exact ⟨rfl, rfl, rfl⟩
    · obtain ⟨y, hexec⟩ := exec_encode_of_not_fits hcap hin hfits
      refine ⟨_, _, _, hexec, ?_⟩
      rw [if_neg (mt (outputFits_iff hobuf bs).2 hfits)]
      exact ⟨rfl, rfl⟩
  exact ⟨_, hexec, look_countAll bs, textTree_treeInv bs, textCodes_prefixFree bs, textCodes_inverseTables bs,
    textCodes_allCoded bs, hend, by simp [State.withTables]⟩

/-- Settles O40: the empty text's table, tree and codes are empty, and it has no bits. -/
theorem encodeOfEmptyInput : Obligations.EncodeOfEmptyInput := by
  unfold Obligations.EncodeOfEmptyInput
  intro s hilen
  have hin : InputIs s [] := ⟨hilen, fun i hi => absurd hi (Nat.not_lt_zero i)⟩
  have htree : textTree [] = ([], 0, 0) := if_pos ftEmpty_const
  have hcodes : textCodes [] = noCodes := by rw [textCodes, textAssignments, htree]; rfl
  have hexec := exec_encode_of_fits (by omega) hin ⟨Nat.zero_le _, .inl rfl⟩
  rw [State.withTables, htree, hcodes] at hexec
  exact hexec

theorem packed_header (x : Bits) : ∃ h pay, packed x = h :: pay ∧ 1 ≤ h.toNat ∧ h.toNat ≤ 8 := by
  by_cases hx : x = []
  · exact ⟨0x08#8, [], if_pos hx, by decide, by decide⟩
  · exact ⟨_, _, packed_of_ne_nil hx, by simpa only [toNat_ofNat_padLen] using padLen_bounds x.length⟩

/-- A successful PACK, alone or as ENCODE's last step, leaves a packed buffer. -/
theorem obuf_of_packBody {s v : State} (h : packBody s = .ok v) : (v.endWith .ok).obuf = packed s.bs := by
  rcases packBody_cases s with ⟨-, hok⟩ | ⟨-, -, hfail⟩
  · cases hok.symm.trans h
    rfl
  · cases hfail.symm.trans h

/-- Settles O47: the tables, and whether the output fits, are the text's and the capacities' alone. -/
theorem encodeIsDeterministic : Obligations.EncodeIsDeterministic := by
  unfold Obligations.EncodeIsDeterministic
  refine ⟨fun s u bs hs hu hp hcap => ?same, fun s t hexec hok => ?header⟩
  case same =>
    have hcap' : u.ilen ≤ u.params.ibufcap := by rwa [hp, hu.1, ← hs.1]
    by_cases hfits : OutputFits s.params bs
    · exact ⟨_, _, exec_encode_of_fits hcap hs hfits, exec_encode_of_fits hcap' hu (hp ▸ hfits), rfl, rfl⟩
    · obtain ⟨y, hs⟩ := exec_encode_of_not_fits hcap hs hfits
      obtain ⟨z, hu⟩ := exec_encode_of_not_fits hcap' hu (hp ▸ hfits)
      exact ⟨_, _, hs, hu, rfl, rfl⟩
  case header =>
    obtain ⟨x, hx⟩ : ∃ x, t.obuf = packed x := by
      rcases hexec with hpack | hencode
      · obtain ⟨v, hv, rfl⟩ := ((packBody_framed s).finish hpack).2 hok
        exact ⟨_, obuf_of_packBody hv⟩
      · obtain ⟨v, hv, rfl⟩ := ((encodeBody_framed s).finish hencode).2 hok
        obtain ⟨w, -, hpack⟩ := StepEnd.andThen_eq_ok hv
        exact ⟨_, obuf_of_packBody hpack⟩
    rw [hx]
    exact packed_header x

/-! ### DECODE (rules R173, R177) -/

/-- Settles O44, by the ends of UNPACK's body and, where it is done, of MATCH's. -/
theorem decodeCompletes : Obligations.DecodeCompletes := by
  unfold Obligations.DecodeCompletes
  intro s hwritten
  have hdecode : exec .decode s = ((unpackBody (s.setObuf [])).andThen matchBody).finish := rfl
  rw [hdecode]
  rcases unpackBody_cases (s.setObuf []) with ⟨x, -, hu⟩ | hu | hu | ⟨a, ha, -, hread, -⟩
  · rw [hu, StepEnd.andThen_ok]
    rcases matchBody_cases ((s.setObuf []).setBs x) with ⟨o, -, hm⟩ | hm | hm <;> rw [hm]
    · exact ⟨x, o, .ok, rfl, by simp, fun h => absurd rfl h⟩
    · exact ⟨x, [], .truncatedStream, rfl, by simp, fun _ => rfl⟩
    · exact ⟨x, [], .capacityExceeded, rfl, by simp, fun _ => rfl⟩
  · rw [hu]
    exact ⟨[], [], .malformedHeader, rfl, by simp, fun _ => rfl⟩
  · rw [hu]
    exact ⟨[], [], .capacityExceeded, rfl, by simp, fun _ => rfl⟩
  · exact absurd hread (hwritten a ha)

section
variable {u : State}

/-- DECODE goes on with MATCH from the bits that UNPACK gives. -/
theorem exec_decode_of_unpack {x : Bits} (h : exec .unpack u = .next ((u.setBs x).endWith .ok)) :
    exec .decode u = exec .pmatch ((u.setBs x).endWith .ok) := (decodeEqualsTheChain u _ h).2 rfl

/-- DECODE ends with UNPACK's failure, and with no output. -/
theorem exec_decode_of_unpack_fail {e : ErrCode} (he : e ≠ .ok)
    (h : exec .unpack u = .next ((u.setBs []).endWith e)) :
    exec .decode u = .next (((u.setBs []).setObuf []).endWith e) := (decodeEqualsTheChain u _ h).1 he

theorem exec_decode_of_capacity (h : u.params.ibufcap < u.ilen) :
    exec .decode u = .next (((u.setBs []).setObuf []).endWith .capacityExceeded) :=
  exec_decode_of_unpack_fail (by decide) (exec_unpack_of_capacity h)

variable {ct : Table Bits} {bs : List Byte} (hinv : InverseTables ct u.rct) (hpf : PrefixFree ct)
  (hbs : AllCoded ct bs)
include hinv hpf hbs

/-- The codes of more symbols than OBUF holds: the symbol after the OBUFCAP first ones finds it full (rule R165). -/
theorem exec_pmatch_of_overflow (h : u.bs = coded ct bs) (hover : u.params.obufcap < bs.length) :
    exec .pmatch u = .next ((u.setObuf []).endWith .capacityExceeded) := by
  have hsplit : bs = bs.take u.params.obufcap ++ [bs[u.params.obufcap]] ++ bs.drop (u.params.obufcap + 1) := by simp
  refine exec_pmatch_of_full hinv hpf (bs := bs.take u.params.obufcap) (b := bs[u.params.obufcap])
    (fun b hb => hbs b (List.mem_of_mem_take hb)) (hbs _ (List.getElem_mem hover))
    (rest := coded ct (bs.drop (u.params.obufcap + 1))) ?_ (List.length_take_of_le hover.le)
  rw [h, coded, coded, coded, ← List.flatMap_append, ← hsplit]

variable (hin : InputIs u (packed (coded ct bs))) (hcap : u.ilen ≤ u.params.ibufcap)
  (hfit : (coded ct bs).length ≤ u.params.bscap)
include hin hcap hfit

theorem exec_decode_of_packed (hroom : bs.length ≤ u.params.obufcap) :
    exec .decode u = .next (((u.setBs (coded ct bs)).setObuf bs).endWith .ok) :=
  (exec_decode_of_unpack (exec_unpack_of_packed hin hfit (hin.1 ▸ hcap))).trans
    (exec_pmatch_of_coded (s := (u.setBs (coded ct bs)).endWith .ok) hinv hpf hbs rfl hroom)

theorem exec_decode_of_packed_overflow (hover : u.params.obufcap < bs.length) :
    exec .decode u = .next (((u.setBs (coded ct bs)).setObuf []).endWith .capacityExceeded) :=
  (exec_decode_of_unpack (exec_unpack_of_packed hin hfit (hin.1 ▸ hcap))).trans
    (exec_pmatch_of_overflow (u := (u.setBs (coded ct bs)).endWith .ok) hinv hpf hbs rfl hover)

end

/-- Settles O45: UNPACK gives the packed codes back, and MATCH the symbols. -/
theorem decodeOfPackedCodes : Obligations.DecodeOfPackedCodes := by
  unfold Obligations.DecodeOfPackedCodes
  exact fun s bs hpf hinv hbs hin hcap hfit hroom => exec_decode_of_packed hinv hpf hbs hin hcap hfit hroom

/-- Settles O46: ENCODE's output, where it fits, is the packed codes of the text under the text's own tables, whose
RCT alone DECODE reads. -/
theorem decodeInvertsEncode : Obligations.DecodeInvertsEncode := by
  unfold Obligations.DecodeInvertsEncode
  intro s bs hin hcap hobuf
  by_cases hfits : OutputFits s.params bs
  · refine ⟨_, exec_encode_of_fits hcap hin hfits, fun _ _ => rfl, fun h => absurd rfl h, ?_⟩
    intro _ u hp hrct hu
    have hinv : InverseTables (textCodes bs).ct u.rct := hrct ▸ textCodes_inverseTables bs
    have hpf := textCodes_prefixFree bs
    have hbs := textCodes_allCoded bs
    have hilen : u.ilen = (packed (textBits bs)).length := hu.1
    have hbits : (textBits bs).length ≤ u.params.bscap := hp ▸ hfits.1
    refine ⟨fun hi ho => ?text, fun hi => ?input, fun hi ho => ?output⟩
    case text => exact exec_decode_of_packed hinv hpf hbs hu (hilen ▸ hp ▸ hi) hbits (hp ▸ ho)
    case input => exact exec_decode_of_capacity (hilen ▸ hp ▸ hi)
    case output => exact exec_decode_of_packed_overflow hinv hpf hbs hu (hilen ▸ hp ▸ hi) hbits (hp ▸ ho)
  · obtain ⟨y, hexec⟩ := exec_encode_of_not_fits hcap hin hfits
    exact ⟨_, hexec, fun hbits hbytes => absurd ((outputFits_iff hobuf bs).2 ⟨hbits, hbytes⟩) hfits,
      fun _ => ⟨rfl, rfl⟩, nofun⟩

/-! ### The output without its last byte (rule R179) -/

/-- The first bits of a bit string are in the first bytes of its payload. -/
theorem take_flatMap_bitsOf_payload_of_le {x : Bits} {n k : Nat} (hn : k ≤ 8 * n) (hk : k ≤ x.length) :
    (((List.range n).map (payloadByte x)).flatMap bitsOf).take k = x.take k := by
  have hwhole := take_flatMap_bitsOf_payload x (n := n + x.length) (by omega)
  have hlen : k ≤ (((List.range n).map (payloadByte x)).flatMap bitsOf).length := by
    rwa [length_flatMap_bitsOf, List.length_map, List.length_range]
  have hmore : (((List.range (n + x.length)).map (payloadByte x)).flatMap bitsOf).take k =
      (((List.range n).map (payloadByte x)).flatMap bitsOf).take k := by
    rw [List.range_add, List.map_append, List.flatMap_append, List.take_append_of_le_length hlen]
  rw [← hmore]
  conv_rhs => rw [← hwhole, List.take_take, min_eq_left hk]

@[simp] theorem coded_nil (ct : Table Bits) : coded ct [] = [] := rfl

theorem coded_cons (ct : Table Bits) (b : Byte) (bs : List Byte) : coded ct (b :: bs) = ct.look b ++ coded ct bs :=
  List.flatMap_cons

/-- Where no code begins another (rule R36), the codes of a text begin another text's only if the text does. -/
theorem prefix_of_coded_prefix {ct : Table Bits} (hpf : PrefixFree ct) {as bs : List Byte} (has : AllCoded ct as)
    (hbs : AllCoded ct bs) (h : coded ct as <+: coded ct bs) : as <+: bs := by
  induction as generalizing bs with
  | nil => exact List.nil_prefix
  | cons a as ih =>
    obtain ⟨ha, hrest⟩ := List.forall_mem_cons.1 has
    rw [coded_cons] at h
    cases bs with
    | nil => simp [ha] at h
    | cons b bs =>
      obtain ⟨hb, hrest'⟩ := List.forall_mem_cons.1 hbs
      rw [coded_cons] at h
      obtain rfl : a = b := by
        by_contra hne
        rcases List.prefix_or_prefix_of_prefix ((List.prefix_append _ _).trans h) (List.prefix_append _ _) with hp | hp
        · exact hpf a b hne ha hb hp
        · exact hpf b a (Ne.symm hne) hb ha hp
      exact (List.prefix_cons_inj a).2 (ih hrest hrest' ((List.prefix_append_right_inj _).1 h))

/-- A text whose codes are a proper beginning of another's is shorter. -/
theorem length_lt_of_coded_prefix {ct : Table Bits} (hpf : PrefixFree ct) {as bs : List Byte} (has : AllCoded ct as)
    (hbs : AllCoded ct bs) (h : coded ct as <+: coded ct bs) (hlt : (coded ct as).length < (coded ct bs).length) :
    as.length < bs.length := by
  have hpre := prefix_of_coded_prefix hpf has hbs h
  refine lt_of_le_of_ne hpre.length_le fun heq => ?_
  rw [hpre.eq_of_length heq] at hlt
  exact lt_irrefl _ hlt

section
variable {u : State} {x : Bits} (hin : InputIs u (packed x).dropLast)
include hin

theorem read_of_truncated {i : Nat} (hi : i < u.ilen) : u.ibuf.read i = (packed x)[i]? := by
  obtain ⟨hlen, hread⟩ := hin
  rw [hlen] at hi
  rw [hread i hi, List.getElem?_dropLast, if_pos (by simpa using hi)]

variable (hne : x ≠ [])
include hne

theorem ilen_of_truncated : u.ilen = 1 + x.length / 8 := by
  have hlen := hin.1
  rw [List.length_dropLast, packed_length_of_ne_nil hne] at hlen
  omega

theorem header_of_truncated : u.ibuf.read 0 = some (BitVec.ofNat 8 (padLen x.length)) := by
  rw [read_of_truncated hin (by rw [ilen_of_truncated hin hne]; omega), packed_of_ne_nil hne,
    List.getElem?_cons_zero]

variable (hcap : u.ilen ≤ u.params.ibufcap)
include hcap

/-- Fewer than eight bits had one payload byte, so the header is left alone, and it is not 8 (rule R155). -/
theorem exec_unpack_of_truncated_short (hshort : x.length < 8) :
    exec .unpack u = .next ((u.setBs []).endWith .malformedHeader) := by
  have hilen := ilen_of_truncated hin hne
  have hpos := List.length_pos_iff.2 hne
  rw [exec_unpack_of_header (by omega) hcap (header_of_truncated hin hne), toNat_ofNat_padLen]
  exact congrArg StepEnd.finish (unpackHeader_of_alone (by unfold padLen; omega) (by omega))

/-- The missing byte costs eight bits: the padding is now stripped from whole bits (rule R153). -/
theorem exec_unpack_of_truncated_long (hlong : 8 ≤ x.length) (hfit : x.length ≤ u.params.bscap) :
    exec .unpack u = .next ((u.setBs (x.take (x.length - 8))).endWith .ok) := by
  have hilen := ilen_of_truncated hin hne
  obtain ⟨hlo, hhi⟩ := padLen_bounds x.length
  have hnb : 8 * (u.ilen - 1) - padLen x.length = x.length - 8 := by
    rw [hilen, padLen]
    omega
  have hpay : ∀ i, i < ((List.range ((x.length - 8 + 7) / 8)).map (payloadByte x)).length →
      u.ibuf.read (1 + i) = ((List.range ((x.length - 8 + 7) / 8)).map (payloadByte x))[i]? := by
    intro i hi
    rw [List.getElem?_eq_getElem hi, List.getElem_map, List.getElem_range]
    rw [List.length_map, List.length_range] at hi
    rw [read_of_truncated hin (by omega), getElem?_packed_payload hne (by omega)]
  rw [← toNat_ofNat_padLen] at hlo hhi hnb
  rw [exec_unpack_of_payload (by omega) hcap (header_of_truncated hin hne) hlo hhi hnb (by omega) (by simp) hpay,
    take_flatMap_bitsOf_payload_of_le (by omega) (by omega)]

end

/-- A successful ENCODE of the text `bs` has found room for everything. -/
theorem exec_encode_ok {s t : State} {bs : List Byte} (hin : InputIs s bs) (h : exec .encode s = .next t)
    (hok : t.err = .ok) : s.ilen ≤ s.params.ibufcap ∧ OutputFits s.params bs ∧
      t = (((s.withTables bs).setBs (textBits bs)).setObuf (packed (textBits bs))).endWith .ok := by
  by_cases hcap : s.ilen ≤ s.params.ibufcap
  · by_cases hfits : OutputFits s.params bs
    · exact ⟨hcap, hfits, Host.Outcome.next.inj (h.symm.trans (exec_encode_of_fits hcap hin hfits))⟩
    · obtain ⟨y, hfail⟩ := exec_encode_of_not_fits hcap hin hfits
      cases hfail.symm.trans h
      cases hok
  · have htally : exec .tally s = .next ((s.setFt (Table.const 0)).endWith .capacityExceeded) :=
      congrArg StepEnd.finish (tallyBody_of_capacity (Nat.lt_of_not_le hcap))
    cases ((encodeEqualsTheChain s _ htally).1 (by simp)).symm.trans h
    cases hok

/-- A MATCH that reads a proper beginning of the text's bits finds fewer symbols or fails (rules R162, R164, R165). -/
theorem exec_pmatch_of_beginning {u : State} {ct : Table Bits} {bs : List Byte} (hinv : InverseTables ct u.rct)
    (hpf : PrefixFree ct) (hbs : AllCoded ct bs) (hpre : u.bs <+: coded ct bs)
    (hlt : u.bs.length < (coded ct bs).length) :
    ∃ v, exec .pmatch u = .next v ∧ (v.err ≠ .ok ∨ v.olen < bs.length) := by
  rcases matchLoop_cases u.rct u.params.obufcap u.bs [] [] (Nat.zero_le _) with ⟨y, hloop, -⟩ | hloop | hloop
  · obtain ⟨as, has, rfl, hcoded⟩ := coded_of_matchLoop_ok hinv hloop
    rw [List.nil_append] at hcoded
    rw [hcoded] at hpre hlt
    exact ⟨_, exec_pmatch_of_ok hloop, .inr (length_lt_of_coded_prefix hpf has hbs hpre hlt)⟩
  · exact ⟨_, exec_pmatch_of_error hloop, .inl (by simp)⟩
  · exact ⟨_, exec_pmatch_of_error hloop, .inl (by simp)⟩

/-- Settles O48: without its last byte an output of one byte is empty, one of two bytes is a lone header below 8, and a
longer one unpacks to the text's bits less eight. -/
theorem truncationIsNotSilent : Obligations.TruncationIsNotSilent := by
  unfold Obligations.TruncationIsNotSilent
  intro s t u bs hs hexec hok hp hrct hu
  obtain ⟨hcap, hfits, rfl⟩ := exec_encode_ok hs hexec hok
  have hinv : InverseTables (textCodes bs).ct u.rct := hrct ▸ textCodes_inverseTables bs
  have hpf := textCodes_prefixFree bs
  have hbs := textCodes_allCoded bs
  by_cases hnil : textBits bs = []
  · have hempty : u.ilen = 0 := by simpa [hnil, packed] using hu.1
    exact ⟨_, exec_decode_of_unpack_fail (by decide) (exec_unpack_of_empty hempty), fun _ => rfl, .inl (by simp)⟩
  rcases Nat.lt_or_ge (textBits bs).length 8 with hshort | hlong
  · have hnonempty : bs ≠ [] := fun h => hnil (by rw [h]; rfl)
    have hpos := List.length_pos_iff.2 hnonempty
    have hilen : s.ilen = bs.length := hs.1
    have hucap : u.ilen ≤ u.params.ibufcap := by
      rw [ilen_of_truncated hu hnil, hp]
      omega
    have hunpack := exec_unpack_of_truncated_short hu hnil hucap hshort
    exact ⟨_, exec_decode_of_unpack_fail (by decide) hunpack, fun _ => rfl, .inl (by simp)⟩
  · have holen : ¬ (packed (textBits bs)).length ≤ 2 := by
      rw [packed_length_of_ne_nil hnil]
      omega
    by_cases hucap : u.ilen ≤ u.params.ibufcap
    · have hunpack := exec_unpack_of_truncated_long hu hnil hucap hlong (hp ▸ hfits.1)
      obtain ⟨v, hv, hend⟩ := exec_pmatch_of_beginning
        (u := (u.setBs ((textBits bs).take ((textBits bs).length - 8))).endWith .ok) hinv hpf hbs
        (List.take_prefix _ (textBits bs)) (show _ < (textBits bs).length by simp; omega)
      exact ⟨v, (exec_decode_of_unpack hunpack).trans hv, fun h => absurd h holen, hend⟩
    · exact ⟨_, exec_decode_of_capacity (Nat.lt_of_not_le hucap), fun h => absurd h holen, .inl (by simp)⟩

end Sys2Proof.Machine

/-! Proofs for the family 60_exceptions: the result codes' numbers, and for every command the codes it can fail with
and what a failure leaves. -/

namespace Sys2Proof.Machine

/-! ### The result codes' numbers (rule R180) -/

/-- The codes are numbered in the order of the constructors, so a code can be read back from its number. -/
theorem ErrCode.ofNat_code (e : ErrCode) : ErrCode.ofNat e.code.toNat = e := by cases e <;> rfl

theorem ErrCode.code_injective : Function.Injective ErrCode.code := fun e f h => by
  rw [← e.ofNat_code, h, f.ofNat_code]

theorem ErrCode.code_ne_seven (e : ErrCode) : e.code ≠ 7#3 := by cases e <;> decide

/-- Settles O9: the numbers are read off the table, and a code can be read back from its number. -/
theorem resultCodesAreDistinct : Obligations.ResultCodesAreDistinct := by
  unfold Obligations.ResultCodesAreDistinct
  exact ⟨by decide, fun _ _ h => ErrCode.code_injective h, ErrCode.code_ne_seven⟩

/-! ### How the bodies fail (rules R188, R191) -/

/-- What a failure of the command leaves empty (rule R191 item 2); GEN and CLR do not fail. -/
def DestinationEmpty : Instr → State → Prop
  | .tally, t => t.ft = Table.const 0
  | .build, t => t.nnodes = 0 ∧ t.nleaf = 0 ∧ t.root = 0 ∧ t.pq = []
  | .subst, t | .unpack, t => t.blen = 0
  | .pack, t | .pmatch, t | .encode, t | .decode, t => t.olen = 0
  | .gen, _ | .clr, _ => False

theorem DestinationEmpty.endWith {i : Instr} {t : State} (e : ErrCode) (h : DestinationEmpty i t) :
    DestinationEmpty i (t.endWith e) := by
  cases i <;> exact h

/-- A body that fails does so with a code of the command's row of rule R188's table, and leaves the command's
destination empty. -/
def StepEnd.FailsAs (i : Instr) : StepEnd → Prop
  | .ok _ => True
  | .fail e t => e ∈ mayReport i ∧ DestinationEmpty i t
  | .fault _ => True

theorem tallyBody_failsAs (s : State) : (tallyBody s).FailsAs .tally := by
  rcases tallyBody_cases s with ⟨-, h⟩ | ⟨-, bs, -, h⟩ | ⟨-, f, -, h⟩ <;> rw [h]
  · exact ⟨by decide, rfl⟩
  · trivial
  · trivial

theorem buildBody_failsAs (s : State) : (buildBody s).FailsAs .build := by
  rcases buildBody_cases s with ⟨-, h⟩ | ⟨-, h⟩ <;> rw [h]
  · exact ⟨by decide, rfl, rfl, rfl, rfl⟩
  · trivial

theorem genBody_failsAs (s : State) : (genBody s).FailsAs .gen := by
  rcases genBody_cases s with ⟨l, -, h⟩ | ⟨-, h⟩ <;> rw [h] <;> trivial

theorem substBody_failsAs (s : State) : (substBody s).FailsAs .subst := by
  rcases substBody_cases s with ⟨x, -, h⟩ | h | h | ⟨a, -, -, -, h⟩ <;> rw [h]
  · trivial
  · exact ⟨by decide, rfl⟩
  · exact ⟨by decide, rfl⟩
  · trivial

theorem packBody_failsAs (s : State) : (packBody s).FailsAs .pack := by
  rcases packBody_cases s with ⟨-, h⟩ | ⟨-, -, h⟩ <;> rw [h]
  · trivial
  · exact ⟨by decide, rfl⟩

theorem unpackBody_failsAs (s : State) : (unpackBody s).FailsAs .unpack := by
  rcases unpackBody_cases s with ⟨x, -, h⟩ | h | h | ⟨a, -, -, -, h⟩ <;> rw [h]
  · trivial
  · exact ⟨by decide, rfl⟩
  · exact ⟨by decide, rfl⟩
  · trivial

theorem matchBody_failsAs (s : State) : (matchBody s).FailsAs .pmatch := by
  rcases matchBody_cases s with ⟨y, -, h⟩ | h | h <;> rw [h]
  · trivial
  · exact ⟨by decide, rfl⟩
  · exact ⟨by decide, rfl⟩

/-- UNPACK's failures leave OBUF as DECODE emptied it, and MATCH's empty it (rules R173, R191). -/
theorem decodeBody_failsAs (s : State) : (decodeBody s).FailsAs .decode := by
  unfold decodeBody
  rcases unpackBody_cases (s.setObuf []) with ⟨x, -, hu⟩ | hu | hu | ⟨a, -, -, -, hu⟩ <;> rw [hu]
  · rcases matchBody_cases ((s.setObuf []).setBs x) with ⟨y, -, hm⟩ | hm | hm <;> rw [StepEnd.andThen_ok, hm]
    · trivial
    · exact ⟨by decide, rfl⟩
    · exact ⟨by decide, rfl⟩
  · exact ⟨by decide, rfl⟩
  · exact ⟨by decide, rfl⟩
  · trivial

/-! ### ENCODE meets no symbol without a code (rules R172, R188) -/

theorem inputIs_of_readRun {s : State} {bs : List Byte} (h : readRun s.ibuf 0 s.ilen = .ok bs) : InputIs s bs := by
  obtain ⟨hlen, hread⟩ := (readRun_ok_iff _ _ _ _).1 h
  exact ⟨hlen.symm, fun i hi => by simpa using hread i (hlen ▸ hi)⟩

/-- The input that TALLY has read is a written text, whose own table codes each of its symbols: SUBST and PACK fail for
want of room only. PACK's row of the table and its destination are ENCODE's too. -/
theorem encodeBody_failsAs (s : State) : (encodeBody s).FailsAs .encode := by
  rcases tallyBody_cases (s.setObuf []) with ⟨-, htally⟩ | ⟨hcap, bs, hread, -⟩ | ⟨-, f, -, htally⟩
  · rw [encodeBody, htally]
    exact ⟨by decide, rfl⟩
  · have hcap : s.ilen ≤ s.params.ibufcap := hcap
    have hin : InputIs s bs := inputIs_of_readRun hread
    rcases Nat.lt_or_ge s.params.bscap (textBits bs).length with hover | hbits
    · rw [encodeBody_of_bits_overflow hcap hin hover]
      exact ⟨by decide, rfl⟩
    · rw [encodeBody_of_bits_fit hcap hin hbits]
      exact packBody_failsAs _
  · rw [encodeBody, htally]
    trivial

/-! ### How every command fails (rules R188, R191) -/

theorem StepEnd.FailsAs.finish {i : Instr} {m : StepEnd} {t : State} (hm : m.FailsAs i) (h : m.finish = .next t) :
    t.err = .ok ∨ t.err ∈ mayReport i ∧ DestinationEmpty i t := by
  rcases StepEnd.finish_next h with ⟨v, -, rfl⟩ | ⟨e, v, rfl, rfl⟩
  · exact .inl rfl
  · obtain ⟨hcode, hempty⟩ := hm
    exact .inr ⟨hcode, hempty.endWith e⟩

/-- A completed command has succeeded, or failed as its row of rule R188's table and rule R191 say. -/
theorem exec_ok_or_fails {i : Instr} {s t : State} (h : exec i s = .next t) :
    t.err = .ok ∨ t.err ∈ mayReport i ∧ DestinationEmpty i t := by
  cases i with
  | tally => exact (tallyBody_failsAs s).finish h
  | build => exact (buildBody_failsAs s).finish h
  | gen => exact (genBody_failsAs s).finish h
  | subst => exact (substBody_failsAs s).finish h
  | pack => exact (packBody_failsAs s).finish h
  | unpack => exact (unpackBody_failsAs s).finish h
  | pmatch => exact (matchBody_failsAs s).finish h
  | encode => exact (encodeBody_failsAs s).finish h
  | decode => exact (decodeBody_failsAs s).finish h
  | clr =>
    cases h
    exact .inl rfl

theorem exec_seq {i : Instr} {s t : State} (h : exec i s = .next t) : t.seq = .idle := by
  rcases exec_cases i s with ⟨u, hu, hidle, -⟩ | ⟨f, hf, -⟩ | ⟨-, hf, -⟩
  · cases hu.symm.trans h
    exact hidle
  · cases hf.symm.trans h
  · cases hf.symm.trans h

theorem ok_mem_mayReport (i : Instr) : .ok ∈ mayReport i := by cases i <;> decide

/-- Settles O51: success is reported by every command, and each body's failures are its row's. -/
theorem commandsReportTheirCodes : Obligations.CommandsReportTheirCodes := by
  unfold Obligations.CommandsReportTheirCodes
  intro i s t h
  rcases exec_ok_or_fails h with hok | ⟨hcode, -⟩
  · exact hok ▸ ok_mem_mayReport i
  · exact hcode

/-- Settles O52: a completed command is idle, and a failing body leaves the command's destination empty. -/
theorem failureLeavesDestinationEmpty : Obligations.FailureLeavesDestinationEmpty := by
  unfold Obligations.FailureLeavesDestinationEmpty
  intro i s t h hfail
  obtain ⟨-, hempty⟩ := (exec_ok_or_fails h).resolve_left hfail
  refine ⟨busy_of_idle (exec_seq h), ?_⟩
  cases i <;> exact hempty

end Sys2Proof.Machine

/-! Proofs for the family 70_reset_and_hazards: reset while idle and while a command runs, the accesses that a running
command does not admit, and every command in the reset state. -/

namespace Sys2Proof.Machine

/-! ### Reset in every state (rule R200) -/

/-- Settles O2: the reset is the next access of an idle core, and comes before a running command's end. -/
theorem resetInEveryState : Obligations.ResetInEveryState := by
  unfold Obligations.ResetInEveryState
  intro s e rest hp hearly
  cases hseq : s.seq with
  | idle =>
    rw [step_of_idle_cons hseq hp]
    rfl
  | run op =>
    obtain rfl : e = true := hearly (busy_of_run hseq)
    rw [step_of_run_early hseq hp]
    rfl

/-! ### The accesses of a running core (rule R207) -/

/-- STATUS stands at the offset 0x04 only (rule R86). -/
theorem regAt_eq_status {off : Nat} (h : regAt off = some .status) : off = 0x04 := by
  by_contra hne
  rw [regAt, if_neg hne] at h
  split_ifs at h <;> cases h

theorem hostAccessBusy_refused {a : HostAccess} (s : State) (hstatus : a ≠ .readReg 0x04) (hreset : a ≠ .reset) :
    hostAccessBusy a s = .refused .accessWhileBusy := by
  cases a with
  | readReg off => exact if_neg fun h => hstatus (congrArg HostAccess.readReg (regAt_eq_status h))
  | reset => exact absurd rfl hreset
  | writeReg off v => rfl
  | writeIbuf c b => rfl
  | readIbuf c => rfl
  | readObuf c => rfl
  | writeObuf c b => rfl

/-- Settles O13, access by access. -/
theorem accessWhileBusyIsRefused : Obligations.AccessWhileBusyIsRefused := by
  unfold Obligations.AccessWhileBusyIsRefused
  intro s op a rest hrun hp hstatus hreset
  rw [step_of_run_early hrun hp, hostAccessBusy_refused _ hstatus hreset]

/-! ### Every command in the reset state (rule R201) -/

theorem inputIs_nil {s : State} (h : s.ilen = 0) : InputIs s [] := ⟨h, fun _ hi => absurd hi (Nat.not_lt_zero _)⟩

/-- Settles O50: each command meets the empty input, table, tree or bit string, and what it writes is the reset
value already. -/
theorem commandsInTheResetState : Obligations.CommandsInTheResetState := by
  unfold Obligations.CommandsInTheResetState
  intro p
  have hin : InputIs (State.resetWith p) [] := inputIs_nil rfl
  have hcap : (State.resetWith p).ilen ≤ p.ibufcap := Nat.zero_le _
  have hunpack : exec .unpack (State.resetWith p) = .next ((State.resetWith p).endWith .malformedHeader) :=
    exec_unpack_of_empty rfl
  refine ⟨?tally, ?subst, ?encode, ?build, ?gen, ?pack, hunpack, ?decode, ?pmatch, ?clr⟩
  case tally => exact exec_tally_of_inputIs hcap hin
  case subst => exact substConcatenatesCodes _ [] hcap hin (List.forall_mem_nil _) (Nat.zero_le _)
  case encode => exact encodeOfEmptyInput _ rfl
  case build => exact exec_build_of_empty (Table.look_const 0)
  case gen => exact exec_gen_of_treeCodes (l := []) (if_pos rfl)
  case pack => exact packOfEmptyString _ rfl
  case decode => exact exec_decode_of_unpack_fail (by decide) hunpack
  case pmatch => exact (matchDegenerateInputs _).1 rfl
  case clr => exact clrReturnsToReset _

end Sys2Proof.Machine
